-- ==== Sys2Proof/Word.lean ====
section
/-! DEFINITION. The words of kfr-core: the 64-bit lane slot and register word, the two precisions with their
format constants (spec/00_scope.md R12), and the bit pattern of a value of one precision (R13). -/

namespace Sys2Proof

/-- A 64-bit word: a lane slot, a register of the window, a command word (10_state.md R32-R36). -/
abbrev Word := BitVec 64

/-- The precision P of a command: CMD.P = 0 is binary32, CMD.P = 1 is binary64 (00_scope.md R12). -/
inductive Prec
  | b32
  | b64
  deriving DecidableEq, Repr, Inhabited

/-- EW, the number of exponent bits (R12). -/
def Prec.expBits : Prec → Nat
  | .b32 => 8
  | .b64 => 11

/-- FW, the number of fraction bits (R12). -/
def Prec.fracBits : Prec → Nat
  | .b32 => 23
  | .b64 => 52

/-- W, the number of bits of a pattern: sign, exponent field, fraction field, from the top (R12, R13). -/
def Prec.width (P : Prec) : Nat := 1 + P.expBits + P.fracBits

/-- The exponent bias (R12). -/
def Prec.bias : Prec → Nat
  | .b32 => 127
  | .b64 => 1023

/-- The exponent of the smallest normal value (R12). -/
def Prec.emin : Prec → Int
  | .b32 => -126
  | .b64 => -1022

/-- The exponent of the largest finite value (R12). -/
def Prec.emax : Prec → Int
  | .b32 => 127
  | .b64 => 1023

/-- A W-bit pattern of precision P: a FloatValue of the source (R13, R27). -/
abbrev Pat (P : Prec) := BitVec (1 + P.expBits + P.fracBits)

end Sys2Proof
end

