-- ==== Sys2Proof/Syntax.lean ====
section
/-! DEFINITION. The command set of kfr-core: the 22 commands of spec/30_encoding.md R93, each with its precision and
lane count (R90), PE.EVAL with a table id (R95) and SV.RESOLVE with a function selector (R96). -/

namespace Sys2Proof

/-- The lane count N of a command, selected by CMD.WC (30_encoding.md R90, 44_lane_dispatch.md R261). -/
inductive LaneCount
  | x1
  | x2
  | x4
  | x8
  | x16
  deriving DecidableEq, Repr, Inhabited

/-- The coefficient tables PE.EVAL can name (30_encoding.md R95). -/
inductive TableId
  | sin
  | cos
  | asin
  | acos
  | atan
  | exp2
  | log2
  deriving DecidableEq, Repr, Inhabited

/-- The 13 functions of the core: the selectors of SV.RESOLVE (30_encoding.md R96). -/
inductive FnId
  | sin
  | cos
  | tan
  | asin
  | acos
  | atan
  | atan2
  | exp
  | exp2
  | exp10
  | log
  | log2
  | log10
  deriving DecidableEq, Repr, Inhabited

/-- The commands: one constructor for each row of the opcode map (30_encoding.md R93). A command carries no register
numbers and no immediates (R91): its operands are the input lane files. -/
inductive Instr
  /-- FD.DECOMP (40_float_decomposer.md R131). -/
  | fdDecomp (p : Prec) (n : LaneCount)
  /-- FD.COMPOSE (R133). -/
  | fdCompose (p : Prec) (n : LaneCount)
  /-- FD.NORM (R135). -/
  | fdNorm (p : Prec) (n : LaneCount)
  /-- FD.SCALE (R137). -/
  | fdScale (p : Prec) (n : LaneCount)
  /-- RR.TRIG (41_range_reducer.md R161). -/
  | rrTrig (p : Prec) (n : LaneCount)
  /-- RR.EXP2 (R166). -/
  | rrExp2 (p : Prec) (n : LaneCount)
  /-- RR.ATAN (R169). -/
  | rrAtan (p : Prec) (n : LaneCount)
  /-- PE.EVAL (42_poly_evaluator.md R196). -/
  | peEval (p : Prec) (n : LaneCount) (t : TableId)
  /-- SV.RESOLVE (43_special_values.md R222). -/
  | svResolve (p : Prec) (n : LaneCount) (f : FnId)
  /-- SIN (45_trig.md R282). -/
  | sin (p : Prec) (n : LaneCount)
  /-- COS (R283). -/
  | cos (p : Prec) (n : LaneCount)
  /-- TAN (R285). -/
  | tan (p : Prec) (n : LaneCount)
  /-- ASIN (46_inverse_trig.md R311). -/
  | asin (p : Prec) (n : LaneCount)
  /-- ACOS (R314). -/
  | acos (p : Prec) (n : LaneCount)
  /-- ATAN (R318). -/
  | atan (p : Prec) (n : LaneCount)
  /-- ATAN2 (R321). -/
  | atan2 (p : Prec) (n : LaneCount)
  /-- EXP (47_exponential.md R344). -/
  | exp (p : Prec) (n : LaneCount)
  /-- EXP2 (R341). -/
  | exp2 (p : Prec) (n : LaneCount)
  /-- EXP10 (R345). -/
  | exp10 (p : Prec) (n : LaneCount)
  /-- LOG (48_logarithmic.md R375). -/
  | log (p : Prec) (n : LaneCount)
  /-- LOG2 (R371). -/
  | log2 (p : Prec) (n : LaneCount)
  /-- LOG10 (R376). -/
  | log10 (p : Prec) (n : LaneCount)
  deriving DecidableEq, Repr, Inhabited

/-- The lane count of a command (30_encoding.md R90, the field WC). -/
def Instr.lanes : Instr → LaneCount
  | .fdDecomp _ n => n
  | .fdCompose _ n => n
  | .fdNorm _ n => n
  | .fdScale _ n => n
  | .rrTrig _ n => n
  | .rrExp2 _ n => n
  | .rrAtan _ n => n
  | .peEval _ n _ => n
  | .svResolve _ n _ => n
  | .sin _ n => n
  | .cos _ n => n
  | .tan _ n => n
  | .asin _ n => n
  | .acos _ n => n
  | .atan _ n => n
  | .atan2 _ n => n
  | .exp _ n => n
  | .exp2 _ n => n
  | .exp10 _ n => n
  | .log _ n => n
  | .log2 _ n => n
  | .log10 _ n => n

/-- The precision of a command (30_encoding.md R90, the field P). -/
def Instr.prec : Instr → Prec
  | .fdDecomp p _ => p
  | .fdCompose p _ => p
  | .fdNorm p _ => p
  | .fdScale p _ => p
  | .rrTrig p _ => p
  | .rrExp2 p _ => p
  | .rrAtan p _ => p
  | .peEval p _ _ => p
  | .svResolve p _ _ => p
  | .sin p _ => p
  | .cos p _ => p
  | .tan p _ => p
  | .asin p _ => p
  | .acos p _ => p
  | .atan p _ => p
  | .atan2 p _ => p
  | .exp p _ => p
  | .exp2 p _ => p
  | .exp10 p _ => p
  | .log p _ => p
  | .log2 p _ => p
  | .log10 p _ => p

/-- The same command at another lane count: what 44_lane_dispatch.md R266 compares. -/
def Instr.withLanes (n : LaneCount) : Instr → Instr
  | .fdDecomp p _ => .fdDecomp p n
  | .fdCompose p _ => .fdCompose p n
  | .fdNorm p _ => .fdNorm p n
  | .fdScale p _ => .fdScale p n
  | .rrTrig p _ => .rrTrig p n
  | .rrExp2 p _ => .rrExp2 p n
  | .rrAtan p _ => .rrAtan p n
  | .peEval p _ t => .peEval p n t
  | .svResolve p _ f => .svResolve p n f
  | .sin p _ => .sin p n
  | .cos p _ => .cos p n
  | .tan p _ => .tan p n
  | .asin p _ => .asin p n
  | .acos p _ => .acos p n
  | .atan p _ => .atan p n
  | .atan2 p _ => .atan2 p n
  | .exp p _ => .exp p n
  | .exp2 p _ => .exp2 p n
  | .exp10 p _ => .exp10 p n
  | .log p _ => .log p n
  | .log2 p _ => .log2 p n
  | .log10 p _ => .log10 p n

end Sys2Proof
end

