-- ==== Sys2Proof/Config.lean ====
section
/-! DEFINITION. The parameters of the block (spec/00_scope.md R9) and the two free functions of R287 (45_trig.md): one
record `Cfg`, an OPAQUE constant for every parameter the spec leaves OPEN (nothing in Lean can evaluate it, so a claim
about the machine holds whatever its value), and `Config.cfg`, the record the machine runs with. The legal range the spec
gives a parameter (a finite coefficient, a threshold of at least 100) is enforced where the machine reads it:
Machine/Rom.lean. -/

namespace Sys2Proof

/-- ACOS_MODE (R9, 46_inverse_trig.md R314). -/
inductive AcosMode
  /-- ACOS is K_PI_2 − ASIN; the ACOS table is absent. -/
  | identity
  /-- ACOS is `acosVal`; the ACOS table is present. -/
  | table
  deriving DecidableEq, Repr, Inhabited

/-- The form of a coefficient table (42_poly_evaluator.md R192). -/
inductive Form
  | plain
  | even
  | odd
  | rational
  deriving DecidableEq, Repr, Inhabited

/-- A coefficient table of one precision (42_poly_evaluator.md R192): c_0 and the list c_1 .. c_d, and for the
RATIONAL form q_0 and q_1 .. q_dq. -/
structure Table (P : Prec) where
  form : Form
  c0 : Pat P
  cs : List (Pat P)
  q0 : Pat P
  qs : List (Pat P)
  deriving DecidableEq, Repr, Inhabited

/-- INV_TRIG_TOL: 2.0 or 2.5 (49_accuracy.md R405). -/
inductive InvTrigTol
  | two
  | twoAndHalf
  deriving DecidableEq, Repr, Inhabited

/-- The parameters of 00_scope.md R9, and the two free functions of 45_trig.md R287. -/
structure Cfg where
  /-- BASE / 4096: BASE is aligned to 4096 (20_memory.md R60). -/
  basePage : Nat
  /-- COEFF[t][P] (42_poly_evaluator.md R192). -/
  coeff : TableId → (P : Prec) → Table P
  /-- PE_FMA (42_poly_evaluator.md R194). -/
  peFma : Bool
  /-- TRIG_RR_MAX[P] (41_range_reducer.md R164). -/
  trigRrMax : Prec → ℚ
  /-- reduceTrigVal(P, x) (41_range_reducer.md R163). -/
  reduceTrigVal : (P : Prec) → Pat P → Pat P
  /-- trigQuadBig(P, x), in 0..3 (41_range_reducer.md R164). -/
  trigQuadBig : (P : Prec) → Pat P → Fin 4
  /-- The MODEL's own name for SIN of an operand beyond TRIG_RR_MAX, an unconstrained pattern (45_trig.md R287,
  assumption log 27). -/
  sinBig : (P : Prec) → Pat P → Pat P
  /-- The MODEL's own name for COS of an operand beyond TRIG_RR_MAX, an unconstrained pattern (R287, log 27). -/
  cosBig : (P : Prec) → Pat P → Pat P
  /-- ASIN_SPLIT[P] (46_inverse_trig.md R311). -/
  asinSplit : Prec → ℚ
  /-- asinVal(P, x) (46_inverse_trig.md R312). -/
  asinVal : (P : Prec) → Pat P → Pat P
  /-- ACOS_MODE (46_inverse_trig.md R314). -/
  acosMode : AcosMode
  /-- acosVal(P, x) (46_inverse_trig.md R314). -/
  acosVal : (P : Prec) → Pat P → Pat P
  /-- log2Val(P, x) (48_logarithmic.md R372). -/
  log2Val : (P : Prec) → Pat P → Pat P
  /-- K_LOG2E[P] (47_exponential.md R342). -/
  kLog2e : (P : Prec) → Pat P
  /-- K_LOG2_10[P] (47_exponential.md R343). -/
  kLog2Ten : (P : Prec) → Pat P
  /-- K_LN2[P] (48_logarithmic.md R373). -/
  kLn2 : (P : Prec) → Pat P
  /-- K_LOG10_2[P] (48_logarithmic.md R374). -/
  kLog10Two : (P : Prec) → Pat P
  /-- ATAN2_ZZ_SIGN(sgn y, sgn x) (46_inverse_trig.md R322). -/
  atan2ZZSign : Bool → Bool → Bool
  /-- INV_TRIG_TOL (49_accuracy.md R405). -/
  invTrigTol : InvTrigTol
  /-- TAN_TOL_NARROW (49_accuracy.md R404). -/
  tanTolNarrow : ℚ
  /-- TAN_TOL_WIDE (49_accuracy.md R404). -/
  tanTolWide : ℚ
  /-- ACC_EVERYWHERE (49_accuracy.md R410). -/
  accEverywhere : Bool

/-- BASE / 4096, OPEN (R9). -/
opaque Config.basePage : Nat
/-- COEFF, OPEN (R9): any table; the machine reads it through Machine/Rom.lean. -/
opaque Config.coeff : TableId → (P : Prec) → Table P
/-- PE_FMA, OPEN (R9). -/
opaque Config.peFma : Bool
/-- TRIG_RR_MAX, OPEN (R9). A real threshold acts on patterns only through the finite values at or below it, and every
such cut is the cut of a rational number. -/
opaque Config.trigRrMax : Prec → ℚ
/-- reduceTrigVal, OPEN (R9). -/
opaque Config.reduceTrigVal : (P : Prec) → Pat P → Pat P
/-- trigQuadBig, OPEN (R9). -/
opaque Config.trigQuadBig : (P : Prec) → Pat P → Fin 4
/-- SIN beyond TRIG_RR_MAX: any pattern, a fixed function of the precision and the operand (R287, R164). -/
opaque Config.sinBig : (P : Prec) → Pat P → Pat P
/-- COS beyond TRIG_RR_MAX: any pattern, a fixed function of the precision and the operand (R287, R164). -/
opaque Config.cosBig : (P : Prec) → Pat P → Pat P
/-- ASIN_SPLIT, OPEN (R9), a rational number for the reason given at `Config.trigRrMax`. -/
opaque Config.asinSplit : Prec → ℚ
/-- asinVal, OPEN (R9). -/
opaque Config.asinVal : (P : Prec) → Pat P → Pat P
/-- ACOS_MODE, OPEN (R9). -/
opaque Config.acosMode : AcosMode
/-- acosVal, OPEN (R9). -/
opaque Config.acosVal : (P : Prec) → Pat P → Pat P
/-- log2Val, OPEN (R9). -/
opaque Config.log2Val : (P : Prec) → Pat P → Pat P
/-- K_LOG2E, OPEN (R9). -/
opaque Config.kLog2e : (P : Prec) → Pat P
/-- K_LOG2_10, OPEN (R9). -/
opaque Config.kLog2Ten : (P : Prec) → Pat P
/-- K_LN2, OPEN (R9). -/
opaque Config.kLn2 : (P : Prec) → Pat P
/-- K_LOG10_2, OPEN (R9). -/
opaque Config.kLog10Two : (P : Prec) → Pat P
/-- ATAN2_ZZ_SIGN, OPEN: the source calls the sign implementation-defined (R9, R322). -/
opaque Config.atan2ZZSign : Bool → Bool → Bool
/-- INV_TRIG_TOL, OPEN between two values (R9). -/
opaque Config.invTrigTol : InvTrigTol

/-- The configuration of this block: the OPEN parameters stay opaque; TAN_TOL_NARROW = 2.0, TAN_TOL_WIDE = 3.0 and
ACC_EVERYWHERE = false are the values R9 gives. -/
def Config.cfg : Cfg where
  basePage := Config.basePage
  coeff := Config.coeff
  peFma := Config.peFma
  trigRrMax := Config.trigRrMax
  reduceTrigVal := Config.reduceTrigVal
  trigQuadBig := Config.trigQuadBig
  sinBig := Config.sinBig
  cosBig := Config.cosBig
  asinSplit := Config.asinSplit
  asinVal := Config.asinVal
  acosMode := Config.acosMode
  acosVal := Config.acosVal
  log2Val := Config.log2Val
  kLog2e := Config.kLog2e
  kLog2Ten := Config.kLog2Ten
  kLn2 := Config.kLn2
  kLog10Two := Config.kLog10Two
  atan2ZZSign := Config.atan2ZZSign
  invTrigTol := Config.invTrigTol
  tanTolNarrow := 2
  tanTolWide := 3
  accEverywhere := false

end Sys2Proof
end

