-- ==== Sys2Proof/WellFormed.lean ====
section
/-! DEFINITION. Which commands are well-formed: the only check the types of Syntax.lean do not already make is that
PE.EVAL names a table that is present (spec/30_encoding.md R95, R101 clause 5; 42_poly_evaluator.md R191). -/

namespace Sys2Proof

/-- TABLE_PRESENT[t] (42_poly_evaluator.md R191): every table, but ACOS only when ACOS_MODE = TABLE. -/
def TableId.present (m : AcosMode) : TableId → Bool
  | .acos => m == .table
  | .sin | .cos | .asin | .atan | .exp2 | .log2 => true

/-- A command that 30_encoding.md R101 does not make illegal, under the given ACOS_MODE. -/
def Instr.wellFormedIn (m : AcosMode) : Instr → Bool
  | .peEval _ _ t => t.present m
  | .fdDecomp _ _ | .fdCompose _ _ | .fdNorm _ _ | .fdScale _ _ => true
  | .rrTrig _ _ | .rrExp2 _ _ | .rrAtan _ _ => true
  | .svResolve _ _ _ => true
  | .sin _ _ | .cos _ _ | .tan _ _ => true
  | .asin _ _ | .acos _ _ | .atan _ _ | .atan2 _ _ => true
  | .exp _ _ | .exp2 _ _ | .exp10 _ _ => true
  | .log _ _ | .log2 _ _ | .log10 _ _ => true

/-- A well-formed command of this block. -/
def Instr.wellFormed (i : Instr) : Bool := i.wellFormedIn Config.acosMode

end Sys2Proof
end

