-- ==== Sys2Proof/Decode.lean ====
section
/-! DEFINITION. The command word CMD64 (spec/30_encoding.md R90): the decoder, total on all 2^64 words and rejecting an
illegal word by the clause of R101 it breaks, and after it the encoder (R90, R106). -/

namespace Sys2Proof

/-- Why a command word is illegal: the six clauses of 30_encoding.md R101. -/
inductive Illegal
  /-- Clause 1: OP is not listed in R93. -/
  | opcode
  /-- Clause 2: WC is 5, 6 or 7. -/
  | laneCode
  /-- Clause 3: v[15:12] or v[63:24] is not 0. -/
  | reservedBits
  /-- Clause 4: AUX is not 0 on a command that takes none. -/
  | auxNotZero
  /-- Clause 5: AUX of PE.EVAL is no table id, or the table is not present. -/
  | tableId
  /-- Clause 6: AUX of SV.RESOLVE is no function opcode. -/
  | fnSelector
  deriving DecidableEq, Repr

/-! ### The fields of the word (R90) -/

/-- OP, bits [7:0]. -/
def opField (v : Word) : BitVec 8 := v.extractLsb' 0 8
/-- P, bit [8]. -/
def precField (v : Word) : Prec := if v.getLsbD 8 then .b64 else .b32
/-- WC, bits [11:9]. -/
def wcField (v : Word) : BitVec 3 := v.extractLsb' 9 3
/-- The reserved bits [15:12]. -/
def reservedLow (v : Word) : BitVec 4 := v.extractLsb' 12 4
/-- AUX, bits [23:16]. -/
def auxField (v : Word) : BitVec 8 := v.extractLsb' 16 8
/-- The reserved bits [63:24]. -/
def reservedHigh (v : Word) : BitVec 40 := v.extractLsb' 24 40

/-- N = 2^WC for WC ≤ 4; 5, 6 and 7 are reserved (R90). -/
def laneOfCode (wc : BitVec 3) : Option LaneCount :=
  match wc.toNat with
  | 0 => some .x1
  | 1 => some .x2
  | 2 => some .x4
  | 3 => some .x8
  | 4 => some .x16
  | _ => none

/-- The table ids of R95. -/
def tableOfCode (aux : BitVec 8) : Option TableId :=
  match aux.toNat with
  | 0x01 => some .sin
  | 0x02 => some .cos
  | 0x03 => some .asin
  | 0x04 => some .acos
  | 0x05 => some .atan
  | 0x06 => some .exp2
  | 0x07 => some .log2
  | _ => none

/-- The function selectors of R96. -/
def fnOfCode (aux : BitVec 8) : Option FnId :=
  match aux.toNat with
  | 0x40 => some .sin
  | 0x41 => some .cos
  | 0x42 => some .tan
  | 0x48 => some .asin
  | 0x49 => some .acos
  | 0x4A => some .atan
  | 0x4B => some .atan2
  | 0x50 => some .exp
  | 0x51 => some .exp2
  | 0x52 => some .exp10
  | 0x58 => some .log
  | 0x59 => some .log2
  | 0x5A => some .log10
  | _ => none

/-- A command without AUX: AUX must be 0 (R101 clause 4). -/
def withoutAux (aux : BitVec 8) (i : Instr) : Except Illegal Instr :=
  if aux = 0 then .ok i else .error .auxNotZero

/-- PE.EVAL: AUX must name a present table (R101 clause 5). -/
def decodePeEval (m : AcosMode) (p : Prec) (n : LaneCount) (aux : BitVec 8) : Except Illegal Instr :=
  match tableOfCode aux with
  | some t => if t.present m then .ok (.peEval p n t) else .error .tableId
  | none => .error .tableId

/-- SV.RESOLVE: AUX must be a function opcode (R101 clause 6). -/
def decodeSvResolve (p : Prec) (n : LaneCount) (aux : BitVec 8) : Except Illegal Instr :=
  match fnOfCode aux with
  | some f => .ok (.svResolve p n f)
  | none => .error .fnSelector

/-- The opcode map of R93. -/
def decodeOp (m : AcosMode) (op : BitVec 8) (p : Prec) (n : LaneCount) (aux : BitVec 8) : Except Illegal Instr :=
  match op.toNat with
  | 0x01 => withoutAux aux (.fdDecomp p n)
  | 0x02 => withoutAux aux (.fdCompose p n)
  | 0x03 => withoutAux aux (.fdNorm p n)
  | 0x04 => withoutAux aux (.fdScale p n)
  | 0x10 => withoutAux aux (.rrTrig p n)
  | 0x11 => withoutAux aux (.rrExp2 p n)
  | 0x12 => withoutAux aux (.rrAtan p n)
  | 0x20 => decodePeEval m p n aux
  | 0x30 => decodeSvResolve p n aux
  | 0x40 => withoutAux aux (.sin p n)
  | 0x41 => withoutAux aux (.cos p n)
  | 0x42 => withoutAux aux (.tan p n)
  | 0x48 => withoutAux aux (.asin p n)
  | 0x49 => withoutAux aux (.acos p n)
  | 0x4A => withoutAux aux (.atan p n)
  | 0x4B => withoutAux aux (.atan2 p n)
  | 0x50 => withoutAux aux (.exp p n)
  | 0x51 => withoutAux aux (.exp2 p n)
  | 0x52 => withoutAux aux (.exp10 p n)
  | 0x58 => withoutAux aux (.log p n)
  | 0x59 => withoutAux aux (.log2 p n)
  | 0x5A => withoutAux aux (.log10 p n)
  | _ => .error .opcode

/-- The decoder under the given ACOS_MODE: a legal word's command, or the clause of R101 that makes it illegal. -/
def decodeIn (m : AcosMode) (v : Word) : Except Illegal Instr :=
  match laneOfCode (wcField v) with
  | none => .error .laneCode
  | some n =>
    if reservedLow v = 0 ∧ reservedHigh v = 0 then decodeOp m (opField v) (precField v) n (auxField v)
    else .error .reservedBits

/-- The decoder of this block (R103: total on all 2^64 words). -/
def decode (v : Word) : Except Illegal Instr := decodeIn Config.acosMode v

/-- `illegal(v)` of 30_encoding.md R101. -/
def illegal (v : Word) : Bool :=
  match decode v with
  | .ok _ => false
  | .error _ => true

/-- The command word whose bits are the low `nbits` bits of `w`, every higher bit 0. -/
def tableWord (nbits w : Nat) : Word := BitVec.ofNat 64 (w % 2 ^ nbits)

/-- The instruction the decoder reads from the word numbered as spec/opcode_table.json numbers its bits: CMD64 is one
64-bit word, bit 0 its least significant bit (00_scope.md R10, 30_encoding.md R105). -/
def decodeTableWord (nbits w : Nat) : Option Instr :=
  match decode (tableWord nbits w) with
  | .ok i => some i
  | .error _ => none

/-! ### The encoder (R90, R93, R95, R96, R106) -/

/-- The field P of a precision. -/
def precCode : Prec → BitVec 1
  | .b32 => 0
  | .b64 => 1

/-- The field WC of a lane count: log2(N). -/
def laneCode : LaneCount → BitVec 3
  | .x1 => 0
  | .x2 => 1
  | .x4 => 2
  | .x8 => 3
  | .x16 => 4

/-- The AUX of a table id (R95). -/
def tableCode : TableId → BitVec 8
  | .sin => 0x01
  | .cos => 0x02
  | .asin => 0x03
  | .acos => 0x04
  | .atan => 0x05
  | .exp2 => 0x06
  | .log2 => 0x07

/-- The AUX of a function selector: the function's opcode (R96). -/
def fnCode : FnId → BitVec 8
  | .sin => 0x40
  | .cos => 0x41
  | .tan => 0x42
  | .asin => 0x48
  | .acos => 0x49
  | .atan => 0x4A
  | .atan2 => 0x4B
  | .exp => 0x50
  | .exp2 => 0x51
  | .exp10 => 0x52
  | .log => 0x58
  | .log2 => 0x59
  | .log10 => 0x5A

/-- A CMD64 word from its fields: reserved, AUX, reserved, WC, P, OP from the top (R90). -/
def cmdWord (op : BitVec 8) (p : Prec) (n : LaneCount) (aux : BitVec 8) : Word :=
  0#40 ++ aux ++ 0#4 ++ laneCode n ++ precCode p ++ op

/-- The word of a command (R93, R106). -/
def encode : Instr → Word
  | .fdDecomp p n => cmdWord 0x01 p n 0
  | .fdCompose p n => cmdWord 0x02 p n 0
  | .fdNorm p n => cmdWord 0x03 p n 0
  | .fdScale p n => cmdWord 0x04 p n 0
  | .rrTrig p n => cmdWord 0x10 p n 0
  | .rrExp2 p n => cmdWord 0x11 p n 0
  | .rrAtan p n => cmdWord 0x12 p n 0
  | .peEval p n t => cmdWord 0x20 p n (tableCode t)
  | .svResolve p n f => cmdWord 0x30 p n (fnCode f)
  | .sin p n => cmdWord 0x40 p n 0
  | .cos p n => cmdWord 0x41 p n 0
  | .tan p n => cmdWord 0x42 p n 0
  | .asin p n => cmdWord 0x48 p n 0
  | .acos p n => cmdWord 0x49 p n 0
  | .atan p n => cmdWord 0x4A p n 0
  | .atan2 p n => cmdWord 0x4B p n 0
  | .exp p n => cmdWord 0x50 p n 0
  | .exp2 p n => cmdWord 0x51 p n 0
  | .exp10 p n => cmdWord 0x52 p n 0
  | .log p n => cmdWord 0x58 p n 0
  | .log2 p n => cmdWord 0x59 p n 0
  | .log10 p n => cmdWord 0x5A p n 0

end Sys2Proof
end

