-- ==== Sys2Proof/Machine/State.lean ====
section
/-! DEFINITION. The state of kfr-core (spec/10_state.md R32-R36, R42): the command and status registers, the four input
and the four output lane files; and the MODEL's own host side: the accesses the host has still to make, the index of the
next one (R31) and the values its reads returned. The reasons a step can stop, and the state after reset
(70_reset_and_hazards.md R460). -/

namespace Sys2Proof.Machine

open Sys2Proof

/-- One thing the host platform does to the block: an access of the interface window (20_memory.md R62) or a reset
(70_reset_and_hazards.md R461). An access names the offset `off = addr - BASE` the block decodes (R60), which is
negative or large for an address outside the window, and its width in bytes. -/
inductive HostEvent
  /-- MemRead(BASE + off, size). -/
  | read (off : Int) (size : Nat)
  /-- MemWrite(BASE + off, size, v). -/
  | write (off : Int) (size : Nat) (v : Word)
  /-- A reset of the block by the host platform. -/
  | reset
  deriving DecidableEq, Repr

/-- Why the machine stops with a fault: never. "No fault state exists, because no rule of this spec faults"
(60_exceptions.md R444). No step raises one, which is safe: nothing is left out. -/
inductive Fault
  deriving DecidableEq, Repr

/-- Why the model gives no step. -/
inductive Refusal
  /-- An instruction the model gives no meaning to. No arm of `exec` raises it: every command has its meaning. Safe: a
  refusal proves nothing about the hardware. -/
  | notModelled (mnemonic : String)
  /-- A host access that is not an aligned 64-bit access of the window: the spec gives it no step (20_memory.md R67,
  60_exceptions.md R444). Raised by the window decoder of Machine/Ops.lean. Safe: no claim can be proved about a host
  that makes one. -/
  | badAccess (off : Int) (size : Nat)
  deriving DecidableEq, Repr

/-- The machine state (10_state.md R42) and the model's host side. -/
structure State where
  /-- CMD, the command word last written (R35). -/
  cmd : Word
  /-- STATUS.ILL (R36); STATUS[63:1] is hardwired 0. -/
  ill : Bool
  /-- XA, the first float operand of each lane (R32). -/
  xa : Vector Word 16
  /-- XB, the second float operand (R32). -/
  xb : Vector Word 16
  /-- XN, the integer operand (R32). -/
  xn : Vector Word 16
  /-- XS, the sign bit operand (R32). -/
  xs : Vector Bool 16
  /-- YF, the float result (R33). -/
  yf : Vector Word 16
  /-- YN, the integer result (R33). -/
  yn : Vector Word 16
  /-- YS, the sign bit result (R33). -/
  ys : Vector Bool 16
  /-- YM, the fraction field result (R33). -/
  ym : Vector Word 16
  /-- The MODEL's own: the host events still to come, the next one first, in the order they take effect
  (20_memory.md R70). -/
  hostQueue : List HostEvent
  /-- The MODEL's own: the index of the next host access (R31), advanced by 1 per access. -/
  hostIndex : Nat
  /-- The MODEL's own: the values the host's reads returned (20_memory.md R64), oldest first. -/
  hostReads : List Word
  deriving DecidableEq, Repr

/-- The machine right after reset: every register and lane 0 (70_reset_and_hazards.md R460), and a host that has made no
access and has none to make. -/
def State.reset : State where
  cmd := 0
  ill := false
  xa := Vector.replicate 16 0
  xb := Vector.replicate 16 0
  xn := Vector.replicate 16 0
  xs := Vector.replicate 16 false
  yf := Vector.replicate 16 0
  yn := Vector.replicate 16 0
  ys := Vector.replicate 16 false
  ym := Vector.replicate 16 0
  hostQueue := []
  hostIndex := 0
  hostReads := []

end Sys2Proof.Machine
end

