-- ==== Sys2Proof/Machine/Flags.lean ====
section
/-! DEFINITION. The one flag of the block, STATUS.ILL (spec/10_state.md R36-R38): no command sets any other flag, and no
IEEE exception flag exists (00_scope.md R21). -/

namespace Sys2Proof.Machine

open Sys2Proof

/-- STATUS as a host reads it: `zext_64(ILL)`, bits [63:1] hardwired 0 (10_state.md R36, 20_memory.md R64). -/
def statusWord (ill : Bool) : Word := if ill then 1 else 0

/-- CMD takes the written word and STATUS.ILL says whether it is illegal; ILL is not sticky (10_state.md R35, R37,
20_memory.md R63). -/
def latchCommand (v : Word) (ill : Bool) (s : State) : State := { s with cmd := v, ill := ill }

end Sys2Proof.Machine
end

