-- ==== Sys2Proof/Machine/Float.lean ====
section
/-! DEFINITION. The floating-point formats and primitives of spec/00_scope.md R13-R20, R23-R26: fields, classes, the
exact value, RoundRNE, and the IEEE operations with this spec's NaN rule. Exact values are rational numbers: every real
number the rules round (a sum, product, quotient or scaling of values of patterns) is rational. -/

namespace Sys2Proof.Machine

open Sys2Proof

variable {P : Prec}

/-! ### Fields and classes (R13, R14) -/

/-- `sgn(x)`, bit W-1 (R13). -/
def sgn (x : Pat P) : Bool := x.getLsbD (P.expBits + P.fracBits)

/-- `expf(x)`, the biased exponent field (R13). -/
def expf (x : Pat P) : Nat := (x.extractLsb' P.fracBits P.expBits).toNat

/-- `frac(x)`, the fraction field (R13). -/
def frac (x : Pat P) : Nat := (x.extractLsb' 0 P.fracBits).toNat

/-- `EMAX_F = 2^EW - 1` (R14). -/
def expMax (P : Prec) : Nat := 2 ^ P.expBits - 1

/-- A pattern from its fields: sign ++ E ++ F, each field cut to its width (R13). -/
def pack (P : Prec) (s : Bool) (E F : Nat) : Pat P :=
  BitVec.ofBool s ++ BitVec.ofNat P.expBits E ++ BitVec.ofNat P.fracBits F

/-- `isNaN(x)` (R14). -/
def isNaN (x : Pat P) : Bool := expf x == expMax P && frac x != 0
/-- `isQNaN(x)` (R14). -/
def isQNaN (x : Pat P) : Bool := isNaN x && x.getLsbD (P.fracBits - 1)
/-- `isSNaN(x)` (R14). -/
def isSNaN (x : Pat P) : Bool := isNaN x && !x.getLsbD (P.fracBits - 1)
/-- `isInf(x)` (R14). -/
def isInf (x : Pat P) : Bool := expf x == expMax P && frac x == 0
/-- `isZero(x)` (R14). -/
def isZero (x : Pat P) : Bool := expf x == 0 && frac x == 0
/-- `isSub(x)` (R14). -/
def isSub (x : Pat P) : Bool := expf x == 0 && frac x != 0
/-- `isNorm(x)` (R14). -/
def isNorm (x : Pat P) : Bool := decide (0 < expf x) && decide (expf x < expMax P)
/-- `isFinite(x)` (R14). -/
def isFinite (x : Pat P) : Bool := isZero x || isSub x || isNorm x

/-! ### Named patterns (R15-R18) -/

/-- The zero of sign s (R15). -/
def zeroPat (P : Prec) (s : Bool) : Pat P := pack P s 0 0
/-- The infinity of sign s (R15). -/
def infPat (P : Prec) (s : Bool) : Pat P := pack P s (expMax P) 0
/-- `cNaN(P)`: 0x7FC00000 or 0x7FF8000000000000 (R17). -/
def cNaN (P : Prec) : Pat P := pack P false (expMax P) (2 ^ (P.fracBits - 1))
/-- ONE(P), the pattern of 1.0 (41_range_reducer.md R169). -/
def onePat (P : Prec) : Pat P := pack P false P.bias 0

/-- `quiet(x) = x OR (1 << (FW-1))` (R16). -/
def quiet (x : Pat P) : Pat P := x ||| ((1 : Pat P) <<< (P.fracBits - 1))
/-- `neg(x) = x XOR (1 << (W-1))` (R18). -/
def neg (x : Pat P) : Pat P := x ^^^ ((1 : Pat P) <<< (P.expBits + P.fracBits))
/-- `abs(x)` clears the sign bit (R18). -/
def absPat (x : Pat P) : Pat P := x &&& ~~~((1 : Pat P) <<< (P.expBits + P.fracBits))

/-- A value the block made from operands that are no NaN, as it leaves the block: a NaN is always cNaN(P) (R17). -/
def canonNaN (v : Pat P) : Pat P := if isNaN v then cNaN P else v

/-! ### Exact values (R15, R23) -/

/-- 2^q as an exact number, for any integer q. -/
def pow2 : Int → ℚ
  | .ofNat n => ((2 ^ n : Nat) : ℚ)
  | .negSucc n => mkRat 1 (2 ^ (n + 1))

/-- The magnitude of a finite pattern (R15). -/
def magnitude (x : Pat P) : ℚ :=
  if expf x = 0 then (frac x : ℚ) * pow2 (P.emin - P.fracBits)
  else ((2 ^ P.fracBits + frac x : Nat) : ℚ) * pow2 ((expf x : Int) - P.bias - P.fracBits)

/-- `val(x)` of a finite pattern (R15). -/
def val (x : Pat P) : ℚ := if sgn x then -magnitude x else magnitude x

/-- `floor(log2 v)` of a number v > 0 (R19): the quotient of the bit lengths, corrected by at most one. -/
def floorLog2 (v : ℚ) : Int :=
  let e : Int := (v.num.natAbs.log2 : Int) - (v.den.log2 : Int)
  if pow2 e ≤ v then e else e - 1

/-- `nearest(v)`, the integer nearest to v, for a v that is no half-integer (R23). -/
def nearest (v : ℚ) : Int := ⌊v + 1 / 2⌋

/-- `sat64(n)` (R23). -/
def sat64 (n : Int) : Int := min (max n (-2 ^ 63)) (2 ^ 63 - 1)

/-- `mod4(k)`, the Euclidean remainder (R23). -/
def mod4 (k : Int) : Fin 4 := ⟨(k % 4).toNat, by omega⟩

/-! ### Rounding (R19) -/

/-- The quantum exponent of a magnitude v > 0: `max(e, emin) - FW` (R19). -/
def quantumExp (P : Prec) (v : ℚ) : Int := max (floorLog2 v) P.emin - P.fracBits

/-- Round a non-negative number to an integer, ties to even (R19). -/
def roundTiesEven (m : ℚ) : Nat :=
  let S := ⌊m⌋.toNat
  let r := m - S
  if 1 / 2 < r ∨ (r = 1 / 2 ∧ S % 2 = 1) then S + 1 else S

/-- The pattern of significand S at quantum exponent qt, with the carry into the next binade, the normal, subnormal and
overflow cases of R19. -/
def assemble (P : Prec) (s : Bool) (S : Nat) (qt : Int) : Pat P :=
  let S' := if S = 2 ^ (P.fracBits + 1) then 2 ^ P.fracBits else S
  let qt' := if S = 2 ^ (P.fracBits + 1) then qt + 1 else qt
  if 2 ^ P.fracBits ≤ S' then
    let E := qt' + P.fracBits + P.bias
    if (expMax P : Int) ≤ E then infPat P s else pack P s E.toNat (S' - 2 ^ P.fracBits)
  else pack P s 0 S'

/-- `RoundRNE(P, s, v)` of a magnitude v ≥ 0 (R19). -/
def roundRNE (P : Prec) (s : Bool) (v : ℚ) : Pat P :=
  if v = 0 then zeroPat P s
  else if (2 - pow2 (-(P.fracBits + 1))) * pow2 P.emax ≤ v then infPat P s
  else
    let qt := quantumExp P v
    assemble P s (roundTiesEven (v / pow2 qt)) qt

/-- RoundRNE of a nonzero exact result, with its own sign (R20 clause 5). -/
def roundVal (P : Prec) (v : ℚ) : Pat P := roundRNE P (decide (v < 0)) |v|

/-! ### The IEEE operations (R20): the first clause that applies decides -/

/-- `fadd(a, b)` (R20). -/
def fadd (a b : Pat P) : Pat P :=
  if isNaN a then quiet a
  else if isNaN b then quiet b
  else if isInf a && isInf b && (sgn a != sgn b) then cNaN P
  else if isInf a then a
  else if isInf b then b
  else if val a + val b = 0 then zeroPat P (isZero a && isZero b && sgn a && sgn b)
  else roundVal P (val a + val b)

/-- `fsub(a, b) = fadd(a, neg(b))` (R20), with clause 1 of R20 read on the operands a and b: a NaN operand is quieted as
it stands, not with the sign of b flipped, so a NaN made inside the block stays cNaN as R17 says. DEDUCED (assumption
log 28). -/
def fsub (a b : Pat P) : Pat P :=
  if isNaN a then quiet a
  else if isNaN b then quiet b
  else fadd a (neg b)

/-- `fmul(a, b)` (R20). -/
def fmul (a b : Pat P) : Pat P :=
  let xs := sgn a != sgn b
  if isNaN a then quiet a
  else if isNaN b then quiet b
  else if (isZero a && isInf b) || (isInf a && isZero b) then cNaN P
  else if isInf a || isInf b then infPat P xs
  else if isZero a || isZero b then zeroPat P xs
  else roundRNE P xs |val a * val b|

/-- `fdiv(a, b)` (R20). -/
def fdiv (a b : Pat P) : Pat P :=
  let xs := sgn a != sgn b
  if isNaN a then quiet a
  else if isNaN b then quiet b
  else if (isZero a && isZero b) || (isInf a && isInf b) then cNaN P
  else if isInf a then infPat P xs
  else if isInf b then zeroPat P xs
  else if isZero b then infPat P xs
  else if isZero a then zeroPat P xs
  else roundRNE P xs |val a / val b|

/-- `ffma(a, b, c)`: a·b + c rounded once (R20). -/
def ffma (a b c : Pat P) : Pat P :=
  let xs := sgn a != sgn b
  if isNaN a then quiet a
  else if isNaN b then quiet b
  else if isNaN c then quiet c
  else if (isZero a && isInf b) || (isInf a && isZero b) then cNaN P
  else if (isInf a || isInf b) && isInf c && (sgn c != xs) then cNaN P
  else if isInf a || isInf b then infPat P xs
  else if isInf c then c
  else if val a * val b + val c = 0 then zeroPat P ((isZero a || isZero b) && xs && isZero c && sgn c)
  else roundVal P (val a * val b + val c)

/-! ### The step of a pattern (R24) -/

/-- `ulp(P, t)` of a finite or infinite pattern (R24): 2^(max(e, emin) - FW), with e = emin for a zero and e = emax for
an infinity. -/
def ulp (t : Pat P) : ℚ :=
  if isInf t then pow2 (P.emax - P.fracBits)
  else if isZero t then pow2 (P.emin - P.fracBits)
  else pow2 (quantumExp P (magnitude t))

end Sys2Proof.Machine
end

