-- ==== Sys2Proof/Machine/Operands.lean ====
section
/-! DEFINITION. Operands and results of one lane: how a lane slot is read as a pattern or an integer and how a result is
written back (spec/00_scope.md R23, R25, 30_encoding.md R92), and the lane counts (R90). -/

namespace Sys2Proof.Machine

open Sys2Proof

/-- N, the number of lanes a command computes (30_encoding.md R90, R92). -/
def laneCount : LaneCount → Nat
  | .x1 => 1
  | .x2 => 2
  | .x4 => 4
  | .x8 => 8
  | .x16 => 16

/-- `opP(v)`: the operand of precision P in a lane slot; bits [63:32] are ignored for binary32 (00_scope.md R25). -/
def opP (P : Prec) (v : Word) : Pat P := v.setWidth _

/-- `zext_64(r)`: a result of precision P in a lane slot (00_scope.md R25). -/
def zext64 {P : Prec} (r : Pat P) : Word := r.setWidth 64

/-- `sint64(v)`: a lane read as a signed integer (00_scope.md R23). -/
def sint64 (v : Word) : Int := v.toInt

/-- `trunc_64(n)`: a signed integer written to a lane, in two's complement (00_scope.md R23). -/
def trunc64 (n : Int) : Word := BitVec.ofInt 64 n

/-- Byte j of a 64-bit word, bits [8j+7:8j], for a host bus that names bytes (20_memory.md R68). -/
def busByte (v : Word) (j : Fin 8) : BitVec 8 := v.extractLsb' (8 * j) 8

/-- What a command reads in one lane: XA[i], XB[i], XN[i], XS[i] (10_state.md R34). -/
structure LaneIn where
  a : Word
  b : Word
  n : Word
  s : Bool
  deriving DecidableEq, Repr

/-- What a command writes in one lane: YF[i], YN[i], YS[i], YM[i] (10_state.md R34). An output a command's rule does not
name is 0 (44_lane_dispatch.md R263). -/
structure LaneOut where
  yf : Word := 0
  yn : Word := 0
  ys : Bool := false
  ym : Word := 0
  deriving DecidableEq, Repr

/-- The result of a command that only names YF: a pattern of precision P, the other outputs 0. -/
def LaneOut.float {P : Prec} (r : Pat P) : LaneOut := { yf := zext64 r }

end Sys2Proof.Machine
end

