-- ==== Sys2Proof/Machine/Rom.lean ====
section
/-! DEFINITION. The coefficient ROM and the constant ROM (spec/10_state.md R40) and the thresholds, read from a
configuration so that each is in the range the spec gives it. A configuration in range is read as it stands; a value out
of range, which no block has, is replaced by one in range. -/

namespace Sys2Proof.Machine

open Sys2Proof

variable {P : Prec}

/-- A coefficient as the ROM holds it: "every coefficient is a finite pattern" (42_poly_evaluator.md R192). -/
def finiteCoeff (x : Pat P) : Pat P := if isFinite x then x else zeroPat P false

/-- The form of a table: SIN is ODD, COS is EVEN, the others are OPEN (42_poly_evaluator.md R192). -/
def romForm (c : Cfg) (t : TableId) (P : Prec) : Form :=
  match t with
  | .sin => .odd
  | .cos => .even
  | .asin | .acos | .atan | .exp2 | .log2 => (c.coeff t P).form

/-- `Rom.coeff(t, P)` (00_scope.md R11, 10_state.md R40, 42_poly_evaluator.md R192). -/
def romTable (c : Cfg) (t : TableId) (P : Prec) : Table P where
  form := romForm c t P
  c0 := finiteCoeff (c.coeff t P).c0
  cs := (c.coeff t P).cs.map finiteCoeff
  q0 := finiteCoeff (c.coeff t P).q0
  qs := (c.coeff t P).qs.map finiteCoeff

/-- K_PI (00_scope.md R26, 46_inverse_trig.md R317). -/
def kPi : (P : Prec) → Pat P
  | .b32 => 0x40490FDB#32
  | .b64 => 0x400921FB54442D18#64

/-- K_PI_2 (00_scope.md R26, 46_inverse_trig.md R317). -/
def kPiHalf : (P : Prec) → Pat P
  | .b32 => 0x3FC90FDB#32
  | .b64 => 0x3FF921FB54442D18#64

/-- The default of K_LOG2E (00_scope.md R26). -/
def kLog2eDefault : (P : Prec) → Pat P
  | .b32 => 0x3FB8AA3B#32
  | .b64 => 0x3FF71547652B82FE#64

/-- The default of K_LOG2_10 (00_scope.md R26). -/
def kLog2TenDefault : (P : Prec) → Pat P
  | .b32 => 0x40549A78#32
  | .b64 => 0x400A934F0979A371#64

/-- The default of K_LN2 (00_scope.md R26). -/
def kLn2Default : (P : Prec) → Pat P
  | .b32 => 0x3F317218#32
  | .b64 => 0x3FE62E42FEFA39EF#64

/-- The default of K_LOG10_2 (00_scope.md R26). -/
def kLog10TwoDefault : (P : Prec) → Pat P
  | .b32 => 0x3E9A209B#32
  | .b64 => 0x3FD34413509F79FF#64

/-- A scaling constant as the ROM holds it: any finite positive pattern (47_exponential.md R342, 48_logarithmic.md
R373). -/
def finitePositive (x fallback : Pat P) : Pat P := if isFinite x && !isZero x && !sgn x then x else fallback

/-- K_LOG2E[P] (47_exponential.md R342). -/
def romLog2e (c : Cfg) (P : Prec) : Pat P := finitePositive (c.kLog2e P) (kLog2eDefault P)
/-- K_LOG2_10[P] (47_exponential.md R343). -/
def romLog2Ten (c : Cfg) (P : Prec) : Pat P := finitePositive (c.kLog2Ten P) (kLog2TenDefault P)
/-- K_LN2[P] (48_logarithmic.md R373). -/
def romLn2 (c : Cfg) (P : Prec) : Pat P := finitePositive (c.kLn2 P) (kLn2Default P)
/-- K_LOG10_2[P] (48_logarithmic.md R374). -/
def romLog10Two (c : Cfg) (P : Prec) : Pat P := finitePositive (c.kLog10Two P) (kLog10TwoDefault P)

/-- TRIG_RR_MAX[P], at least 100 (41_range_reducer.md R164). -/
def trigRrMax (c : Cfg) (P : Prec) : ℚ := max 100 (c.trigRrMax P)

/-- ASIN_SPLIT[P], in (0, 1] (46_inverse_trig.md R311). -/
def asinSplit (c : Cfg) (P : Prec) : ℚ := if 0 < c.asinSplit P ∧ c.asinSplit P ≤ 1 then c.asinSplit P else 1

/-- BASE, aligned to 4096 (20_memory.md R60). -/
def baseAddr (c : Cfg) : Nat := 4096 * c.basePage

end Sys2Proof.Machine
end

