-- ==== Sys2Proof/Machine/Ops.lean ====
section
/-! DEFINITION. The shared operations: the lane dispatcher (spec/44_lane_dispatch.md R260), the interface window
(20_memory.md R60-R67) and reset (70_reset_and_hazards.md R460, R461). The block has no data memory (20_memory.md R60), no
exception and no trap return (60_exceptions.md R430, R435, R436), so there is no operation for those. -/

namespace Sys2Proof.Machine

open Sys2Proof

/-! ### The lane dispatcher -/

/-- Lane i of the input files (10_state.md R32). -/
def laneIn (s : State) (i : Fin 16) : LaneIn := ⟨s.xa[i], s.xb[i], s.xn[i], s.xs[i]⟩

/-- Lane i of the output files (10_state.md R33). -/
def outLane (s : State) (i : Fin 16) : LaneOut := ⟨s.yf[i], s.yn[i], s.ys[i], s.ym[i]⟩

/-- Lane i of the result: `Lane_op` for i < N, all 0 from lane N on (44_lane_dispatch.md R260, R261, R263). -/
def laneOut (n : LaneCount) (f : LaneIn → LaneOut) (s : State) (i : Fin 16) : LaneOut :=
  if i.val < laneCount n then f (laneIn s i) else {}

/-- `Dispatch`: every legal command writes all 16 lanes of the four output files, and nothing else
(44_lane_dispatch.md R260, R263). -/
def dispatch (n : LaneCount) (f : LaneIn → LaneOut) (s : State) : State :=
  { s with
    yf := Vector.ofFn fun i => (laneOut n f s i).yf
    yn := Vector.ofFn fun i => (laneOut n f s i).yn
    ys := Vector.ofFn fun i => (laneOut n f s i).ys
    ym := Vector.ofFn fun i => (laneOut n f s i).ym }

/-! ### The interface window -/

/-- The registers of the window (20_memory.md R61). -/
inductive Reg
  | cmd
  | status
  | xa (i : Fin 16)
  | xb (i : Fin 16)
  | xn (i : Fin 16)
  | xs (i : Fin 16)
  | yf (i : Fin 16)
  | yn (i : Fin 16)
  | ys (i : Fin 16)
  | ym (i : Fin 16)
  /-- The reserved word at offset 8·k. -/
  | reserved (k : Nat)
  deriving DecidableEq, Repr

/-- The register whose offset is 8·k (20_memory.md R61): 0x000 CMD, 0x008 STATUS, then a lane file every 0x80 bytes from
0x100 on. -/
def regOfIndex (k : Nat) : Reg :=
  let i : Fin 16 := ⟨k % 16, Nat.mod_lt _ (by decide)⟩
  match k / 16 with
  | 0 => if k = 0 then .cmd else if k = 1 then .status else .reserved k
  | 2 => .xa i
  | 3 => .xb i
  | 4 => .xn i
  | 5 => .xs i
  | 6 => .yf i
  | 7 => .yn i
  | 8 => .ys i
  | 9 => .ym i
  | _ => .reserved k

/-- The offset of a register (20_memory.md R61). -/
def regOffset : Reg → Nat
  | .cmd => 0x000
  | .status => 0x008
  | .xa i => 0x100 + 8 * i
  | .xb i => 0x180 + 8 * i
  | .xn i => 0x200 + 8 * i
  | .xs i => 0x280 + 8 * i
  | .yf i => 0x300 + 8 * i
  | .yn i => 0x380 + 8 * i
  | .ys i => 0x400 + 8 * i
  | .ym i => 0x480 + 8 * i
  | .reserved k => 8 * k

/-- The window decoder: the register an aligned 64-bit access of the window reaches, and none for any other access
(20_memory.md R60, R62, R67). -/
def regAt (off : Int) (size : Nat) : Option Reg :=
  if size = 8 ∧ 0 ≤ off ∧ off < 4096 ∧ off % 8 = 0 then some (regOfIndex (off.toNat / 8)) else none

/-- `off = addr - BASE` for an address of the host's space (20_memory.md R60). -/
def hostOffset (c : Cfg) (addr : Nat) : Int := (addr : Int) - (baseAddr c : Int)

/-- What a host read of a register returns (20_memory.md R64). -/
def readReg (s : State) : Reg → Word
  | .cmd => s.cmd
  | .status => statusWord s.ill
  | .xa i => s.xa[i]
  | .xb i => s.xb[i]
  | .xn i => s.xn[i]
  | .xs i => if s.xs[i] then 1 else 0
  | .yf i => s.yf[i]
  | .yn i => s.yn[i]
  | .ys i => if s.ys[i] then 1 else 0
  | .ym i => s.ym[i]
  | .reserved _ => 0

/-- What a host write does to a register other than CMD: it stores into an input lane (20_memory.md R65), and it is
ignored at STATUS, an output lane or a reserved offset (R66). -/
def writeReg (r : Reg) (v : Word) (s : State) : State :=
  match r with
  | .xa i => { s with xa := s.xa.set i v }
  | .xb i => { s with xb := s.xb.set i v }
  | .xn i => { s with xn := s.xn.set i v }
  | .xs i => { s with xs := s.xs.set i (v.getLsbD 0) }
  | .cmd | .status | .yf _ | .yn _ | .ys _ | .ym _ | .reserved _ => s

/-- A read delivers its value to the host and has no other effect (20_memory.md R64, R69). -/
def deliverRead (v : Word) (s : State) : State := { s with hostReads := s.hostReads ++ [v] }

/-- The next host access has been taken: the host moves to the one after it (10_state.md R31). -/
def nextAccess (rest : List HostEvent) (s : State) : State :=
  { s with hostQueue := rest, hostIndex := s.hostIndex + 1 }

/-! ### Reset -/

/-- A reset sets every register and lane of the block as R460 says, whatever the state; the host's own side goes on
(70_reset_and_hazards.md R461). -/
def resetBlock (rest : List HostEvent) (s : State) : State :=
  { State.reset with hostQueue := rest, hostIndex := s.hostIndex, hostReads := s.hostReads }

end Sys2Proof.Machine
end

