-- ==== Sys2Proof/Machine/Decomposer.lean ====
section
/-! DEFINITION. The float decomposer (spec/40_float_decomposer.md): FD.DECOMP, FD.COMPOSE, FD.NORM, FD.SCALE, each as
the function of one lane and as the command over its lanes. -/

namespace Sys2Proof.Machine

open Sys2Proof

/-- FD.DECOMP of one lane: the raw fields (R131). -/
def laneFdDecomp (P : Prec) (l : LaneIn) : LaneOut :=
  let x := opP P l.a
  { ys := sgn x, yn := BitVec.ofNat 64 (expf x), ym := BitVec.ofNat 64 (frac x) }

/-- FD.COMPOSE of one lane: sign ++ exponent field ++ fraction field, each cut to its width (R133, R134). -/
def laneFdCompose (P : Prec) (l : LaneIn) : LaneOut :=
  let r : Pat P := BitVec.ofBool l.s ++ l.n.setWidth P.expBits ++ l.a.setWidth P.fracBits
  .float r

/-- `bitlen(M) - 1` of the fraction field of a subnormal (R135, 00_scope.md R23). -/
def subnormalTop {P : Prec} (x : Pat P) : Nat := (frac x).log2

/-- The unbiased exponent e of FD.NORM (R135, R136). -/
def normExp {P : Prec} (x : Pat P) : Int :=
  if isNorm x then (expf x : Int) - P.bias
  else if isSub x then (subnormalTop x : Int) + P.emin - P.fracBits
  else 0

/-- The mantissa m of FD.NORM: in [1, 2) for a finite nonzero value, the quieted NaN, +inf or +0 otherwise (R135,
R136). -/
def normMant {P : Prec} (x : Pat P) : Pat P :=
  if isNaN x then quiet x
  else if isInf x then absPat x
  else if isZero x then zeroPat P false
  else if isNorm x then pack P false P.bias (frac x)
  else pack P false P.bias (frac x * 2 ^ (P.fracBits - subnormalTop x) % 2 ^ P.fracBits)

/-- FD.NORM of one lane (R135). -/
def laneFdNorm (P : Prec) (l : LaneIn) : LaneOut :=
  let x := opP P l.a
  { ys := sgn x, yn := trunc64 (normExp x), yf := zext64 (normMant x) }

/-- A shift outside [-4096, 4096] acts as the nearest end of that range: a finite nonzero value of either precision is
past the overflow bound, or below half the smallest subnormal, at the end already. -/
def clampShift (n : Int) : Int := max (-4096) (min 4096 n)

/-- FD.SCALE of a pattern by an integer: RoundRNE(P, sgn(x), |val(x)|·2^n), a NaN quieted, an infinity or a zero kept
(R137). -/
def scalePat {P : Prec} (x : Pat P) (n : Int) : Pat P :=
  if isNaN x then quiet x
  else if isInf x || isZero x then x
  else roundRNE P (sgn x) (|val x| * pow2 (clampShift n))

/-- FD.SCALE of one lane (R137). -/
def laneFdScale (P : Prec) (l : LaneIn) : LaneOut := .float (scalePat (opP P l.a) (sint64 l.n))

/-- FD.DECOMP (R131). -/
def execFdDecomp (p : Prec) (n : LaneCount) (s : State) : Host.Outcome State Fault Refusal :=
  .next (dispatch n (laneFdDecomp p) s)

/-- FD.COMPOSE (R133). -/
def execFdCompose (p : Prec) (n : LaneCount) (s : State) : Host.Outcome State Fault Refusal :=
  .next (dispatch n (laneFdCompose p) s)

/-- FD.NORM (R135). -/
def execFdNorm (p : Prec) (n : LaneCount) (s : State) : Host.Outcome State Fault Refusal :=
  .next (dispatch n (laneFdNorm p) s)

/-- FD.SCALE (R137). -/
def execFdScale (p : Prec) (n : LaneCount) (s : State) : Host.Outcome State Fault Refusal :=
  .next (dispatch n (laneFdScale p) s)

end Sys2Proof.Machine
end

