-- ==== Sys2Proof/Machine/Poly.lean ====
section
/-! DEFINITION. The minimax polynomial evaluator (spec/42_poly_evaluator.md): Horner evaluation of a coefficient table
and PE.EVAL. -/

namespace Sys2Proof.Machine

open Sys2Proof

variable {P : Prec}

/-- A Horner step, fused or not as PE_FMA says (R194). -/
def hornerStep (fma : Bool) (acc t c : Pat P) : Pat P :=
  if fma then ffma acc t c else fadd (fmul acc t) c

/-- `H(c, t)` of the coefficients c_0 and c_1 .. c_d (R193). -/
def horner (fma : Bool) (t : Pat P) (c0 : Pat P) : List (Pat P) → Pat P
  | [] => c0
  | c1 :: cs => hornerStep fma (horner fma t c1 cs) t c0

/-- The value of a table at x, by its form (R195). -/
def evalTable (fma : Bool) (T : Table P) (x : Pat P) : Pat P :=
  match T.form with
  | .plain => horner fma x T.c0 T.cs
  | .even => horner fma (fmul x x) T.c0 T.cs
  | .odd => fmul x (horner fma (fmul x x) T.c0 T.cs)
  | .rational => fdiv (horner fma x T.c0 T.cs) (horner fma x T.q0 T.qs)

/-- `Eval(t, P, x)` (R190, R195). -/
def polyEval (c : Cfg) (t : TableId) (x : Pat P) : Pat P := evalTable c.peFma (romTable c t P) x

/-- PE.EVAL of one lane (R196). -/
def lanePeEval (c : Cfg) (P : Prec) (t : TableId) (l : LaneIn) : LaneOut := .float (polyEval c t (opP P l.a))

/-- PE.EVAL (R196). -/
def execPeEval (p : Prec) (n : LaneCount) (t : TableId) (s : State) : Host.Outcome State Fault Refusal :=
  .next (dispatch n (lanePeEval Config.cfg p t) s)

end Sys2Proof.Machine
end

