-- ==== Sys2Proof/Machine/Reducer.lean ====
section
/-! DEFINITION. The range reducer (spec/41_range_reducer.md): RR.TRIG, RR.EXP2, RR.ATAN, each as the reduction the
function commands share, as the function of one lane and as the command over its lanes. -/

namespace Sys2Proof.Machine

open Sys2Proof

variable {P : Prec}

/-! ### RR.TRIG -/

/-- The first 1280 bits after the binary point of 2/π, 64 bits a word, the most significant word first. -/
def twoOverPiWords : List Nat :=
  [
    0xA2F9836E4E441529, 0xFC2757D1F534DDC0, 0xDB6295993C439041, 0xFE5163ABDEBBC561,
    0xB7246E3A424DD2E0, 0x06492EEA09D1921C, 0xFE1DEB1CB129A73E, 0xE88235F52EBB4484,
    0xE99C7026B45F7E41, 0x3991D639835339F4, 0x9C845F8BBDF9283B, 0x1FF897FFDE05980F,
    0xEF2F118B5A0A6D1F, 0x6D367ECF27CB09B7, 0x4F463F669E5FEA2D, 0x7527BAC7EBE5F17B,
    0x3D0739F78A5292EA, 0x6BFB5FB11F8D5D08, 0x56033046FC7B6BAB, 0xF0CFBC209AF4361D
  ]

/-- 2/π rounded down to 1280 bits after the binary point. For every finite value of either precision the product with it
differs from the exact product by less than 2^-256. -/
def twoOverPi : ℚ := mkRat (twoOverPiWords.foldl (fun acc w => acc * 2 ^ 64 + w) 0) (2 ^ 1280)

/-- k, the integer nearest to the exact real val(x)·2/π (R162). -/
def trigK (x : Pat P) : Int := nearest (val x * twoOverPi)

/-- Whether a finite x lies in the range of exact reduction, |val(x)| ≤ TRIG_RR_MAX[P] (R161, R164). -/
def trigInRange (c : Cfg) (x : Pat P) : Bool := decide (|val x| ≤ trigRrMax c P)

/-- The reduced value of a finite nonzero x: `cfg.reduceTrigVal(P, x)`, which is x itself when k = 0 in range (R163
law (b)); law (a) of R163 is no part of the machine but a premise (Machine/Accuracy.lean), and beyond TRIG_RR_MAX no law
holds (R164). -/
def trigReduced (c : Cfg) (x : Pat P) : Pat P :=
  if trigInRange c x && trigK x == 0 then x else c.reduceTrigVal P x

/-- The selector of a finite nonzero x: k mod 4 in range, `cfg.trigQuadBig(P, x)` beyond (R161, R164). -/
def trigQuadrant (c : Cfg) (x : Pat P) : Fin 4 := if trigInRange c x then mod4 (trigK x) else c.trigQuadBig P x

/-- RR.TRIG of one lane (R161). -/
def laneRrTrig (c : Cfg) (P : Prec) (l : LaneIn) : LaneOut :=
  let x := opP P l.a
  if isNaN x then .float (quiet x)
  else if isInf x then .float (cNaN P)
  else if isZero x then .float x
  else { yf := zext64 (trigReduced c x), yn := BitVec.ofNat 64 (trigQuadrant c x).val }

/-! ### RR.EXP2 -/

/-- n = floor(val(x) + 1/2) in exact arithmetic, of a finite x (R166). -/
def exp2N (x : Pat P) : Int := ⌊val x + 1 / 2⌋

/-- The integer RR.EXP2 delivers: n saturated to 64 bits, the ends for the infinities, 0 for a NaN (R166). -/
def exp2Int (x : Pat P) : Int :=
  if isNaN x then 0
  else if isInf x then (if sgn x then -2 ^ 63 else 2 ^ 63 - 1)
  else sat64 (exp2N x)

/-- The fraction RR.EXP2 delivers: x itself when n = 0, else val(x) - n, +0 when that is 0 (R166, R167). -/
def exp2Frac (x : Pat P) : Pat P :=
  if isNaN x then quiet x
  else if isInf x then zeroPat P false
  else if exp2N x = 0 then x
  else if val x - exp2N x = 0 then zeroPat P false
  else roundVal P (val x - exp2N x)

/-- RR.EXP2 of one lane (R166). -/
def laneRrExp2 (P : Prec) (l : LaneIn) : LaneOut :=
  let x := opP P l.a
  { yn := trunc64 (exp2Int x), yf := zext64 (exp2Frac x) }

/-! ### RR.ATAN -/

/-- The class of RR.ATAN: true, written 1, for |x| > 1 and the infinities (R169). -/
def atanClass (x : Pat P) : Bool := !isNaN x && !(isFinite x && decide (|val x| ≤ 1))

/-- The reduced argument of RR.ATAN: x itself in class 0, 1/x in class 1 (R169). -/
def atanArg (x : Pat P) : Pat P :=
  if isNaN x then quiet x
  else if atanClass x then fdiv (onePat P) x
  else x

/-- RR.ATAN of one lane (R169). -/
def laneRrAtan (P : Prec) (l : LaneIn) : LaneOut :=
  let x := opP P l.a
  { ys := sgn x, yn := if atanClass x then 1 else 0, yf := zext64 (atanArg x) }

/-! ### The commands -/

/-- RR.TRIG (R161). -/
def execRrTrig (p : Prec) (n : LaneCount) (s : State) : Host.Outcome State Fault Refusal :=
  .next (dispatch n (laneRrTrig Config.cfg p) s)

/-- RR.EXP2 (R166). -/
def execRrExp2 (p : Prec) (n : LaneCount) (s : State) : Host.Outcome State Fault Refusal :=
  .next (dispatch n (laneRrExp2 p) s)

/-- RR.ATAN (R169). -/
def execRrAtan (p : Prec) (n : LaneCount) (s : State) : Host.Outcome State Fault Refusal :=
  .next (dispatch n (laneRrAtan p) s)

end Sys2Proof.Machine
end

