-- ==== Sys2Proof/Machine/Special.lean ====
section
/-! DEFINITION. The special-value resolver (spec/43_special_values.md): the table SV every function command consults
first, and SV.RESOLVE. A hit is `some v`, a miss is `none` (R220). -/

namespace Sys2Proof.Machine

open Sys2Proof

variable {P : Prec}

/-- x < 0: a negative value or -inf; a zero is neither > 0 nor < 0 (R230). For an x that is no NaN. -/
def ltZero (x : Pat P) : Bool := sgn x && !isZero x

/-- x > 0: a positive value or +inf (R230). For an x that is no NaN. -/
def gtZero (x : Pat P) : Bool := !sgn x && !isZero x

/-- |x| > 1, the infinities included (R228). For an x that is no NaN. -/
def absGtOne (x : Pat P) : Bool := isInf x || decide (1 < |val x|)

/-- The entries of SIN and TAN (R224-R227). -/
def svOddTrig (x : Pat P) : Option (Pat P) :=
  if isNaN x then some (quiet x)
  else if isInf x then some (cNaN P)
  else if isZero x then some x
  else none

/-- The entries of COS (R224-R227). -/
def svCos (x : Pat P) : Option (Pat P) :=
  if isNaN x then some (quiet x)
  else if isInf x then some (cNaN P)
  else if isZero x then some (onePat P)
  else none

/-- The entries of ASIN (R224, R228). -/
def svAsin (x : Pat P) : Option (Pat P) :=
  if isNaN x then some (quiet x)
  else if absGtOne x then some (cNaN P)
  else if isZero x then some x
  else none

/-- The entries of ACOS (R224, R228): a zero is a miss. -/
def svAcos (x : Pat P) : Option (Pat P) :=
  if isNaN x then some (quiet x)
  else if absGtOne x then some (cNaN P)
  else none

/-- The entries of ATAN (R224, R229). -/
def svAtan (x : Pat P) : Option (Pat P) :=
  if isNaN x then some (quiet x)
  else if isInf x then some (if sgn x then neg (kPiHalf P) else kPiHalf P)
  else if isZero x then some x
  else none

/-- The entries of EXP, EXP2 and EXP10 (R224, R232). -/
def svExp (x : Pat P) : Option (Pat P) :=
  if isNaN x then some (quiet x)
  else if isZero x then some (onePat P)
  else if isInf x then some (if sgn x then zeroPat P false else infPat P false)
  else none

/-- The entries of LOG, LOG2 and LOG10 (R224, R234). -/
def svLog (x : Pat P) : Option (Pat P) :=
  if isNaN x then some (quiet x)
  else if ltZero x then some (cNaN P)
  else if isZero x then some (infPat P true)
  else if isInf x then some (infPat P false)
  else if x = onePat P then some (zeroPat P false)
  else none

/-- The entries of ATAN2(y, x), NaN first and then a to j in their order (R224, R230, R322). -/
def svAtan2 (c : Cfg) (y x : Pat P) : Option (Pat P) :=
  if isNaN y then some (quiet y)
  else if isNaN x then some (quiet x)
  else if isInf y && isInf x then some (cNaN P)
  else if isZero x && gtZero y then some (kPiHalf P)
  else if isZero x && ltZero y then some (neg (kPiHalf P))
  else if isZero x && isZero y then some (zeroPat P (c.atan2ZZSign (sgn y) (sgn x)))
  else if isZero y && gtZero x then some y
  else if isZero y && ltZero x then some (kPi P)
  else if isInf y then some (if sgn y then neg (kPiHalf P) else kPiHalf P)
  else if isInf x && !sgn x then some (zeroPat P (sgn y))
  else if isInf x then some (if sgn y then neg (kPi P) else kPi P)
  else none

/-- `SV(f, P, args)`: the arguments are `a`, or (y, x) = (`a`, `b`) for ATAN2 (R220). -/
def sv (c : Cfg) (f : FnId) (a b : Pat P) : Option (Pat P) :=
  match f with
  | .sin => svOddTrig a
  | .cos => svCos a
  | .tan => svOddTrig a
  | .asin => svAsin a
  | .acos => svAcos a
  | .atan => svAtan a
  | .atan2 => svAtan2 c a b
  | .exp => svExp a
  | .exp2 => svExp a
  | .exp10 => svExp a
  | .log => svLog a
  | .log2 => svLog a
  | .log10 => svLog a

/-- A function command's result: the special value on a hit, the structural value otherwise (R220). -/
def resolve (special : Option (Pat P)) (structural : Pat P) : Pat P :=
  match special with
  | some v => v
  | none => structural

/-- SV.RESOLVE of one lane (R222). -/
def laneSvResolve (c : Cfg) (P : Prec) (f : FnId) (l : LaneIn) : LaneOut :=
  match sv c f (opP P l.a) (opP P l.b) with
  | some v => { yf := zext64 v, yn := 1 }
  | none => {}

/-- SV.RESOLVE (R222). -/
def execSvResolve (p : Prec) (n : LaneCount) (f : FnId) (s : State) : Host.Outcome State Fault Refusal :=
  .next (dispatch n (laneSvResolve Config.cfg p f) s)

end Sys2Proof.Machine
end

