-- ==== Sys2Proof/Machine/Exponential.lean ====
section
/-! DEFINITION. The exponential family (spec/47_exponential.md): EXP2, and EXP and EXP10 through it. -/

namespace Sys2Proof.Machine

open Sys2Proof

variable {P : Prec}

/-- Structural EXP2, of a finite nonzero x: split, evaluate the fraction, scale by the integer (R341). -/
def exp2Struct (c : Cfg) (x : Pat P) : Pat P := scalePat (polyEval c .exp2 (exp2Frac x)) (exp2Int x)

/-- EXP2 of a pattern, special values included (R341). -/
def fnExp2 (c : Cfg) (x : Pat P) : Pat P := resolve (sv c .exp2 x x) (exp2Struct c x)

/-- EXP of a pattern, special values included: EXP2(x·K_LOG2E) (R344). -/
def fnExp (c : Cfg) (x : Pat P) : Pat P := resolve (sv c .exp x x) (fnExp2 c (fmul x (romLog2e c P)))

/-- EXP10 of a pattern, special values included: EXP2(x·K_LOG2_10) (R345). -/
def fnExp10 (c : Cfg) (x : Pat P) : Pat P := resolve (sv c .exp10 x x) (fnExp2 c (fmul x (romLog2Ten c P)))

/-- EXP2 of one lane (R341). -/
def laneExp2 (c : Cfg) (P : Prec) (l : LaneIn) : LaneOut := .float (fnExp2 c (opP P l.a))
/-- EXP of one lane (R344). -/
def laneExp (c : Cfg) (P : Prec) (l : LaneIn) : LaneOut := .float (fnExp c (opP P l.a))
/-- EXP10 of one lane (R345). -/
def laneExp10 (c : Cfg) (P : Prec) (l : LaneIn) : LaneOut := .float (fnExp10 c (opP P l.a))

/-- EXP (R344). -/
def execExp (p : Prec) (n : LaneCount) (s : State) : Host.Outcome State Fault Refusal :=
  .next (dispatch n (laneExp Config.cfg p) s)

/-- EXP2 (R341). -/
def execExp2 (p : Prec) (n : LaneCount) (s : State) : Host.Outcome State Fault Refusal :=
  .next (dispatch n (laneExp2 Config.cfg p) s)

/-- EXP10 (R345). -/
def execExp10 (p : Prec) (n : LaneCount) (s : State) : Host.Outcome State Fault Refusal :=
  .next (dispatch n (laneExp10 Config.cfg p) s)

end Sys2Proof.Machine
end

