-- ==== Sys2Proof/Machine/InvTrig.lean ====
section
/-! DEFINITION. The inverse trigonometric family (spec/46_inverse_trig.md): ASIN, ACOS, ATAN, ATAN2. -/

namespace Sys2Proof.Machine

open Sys2Proof

variable {P : Prec}

/-- Structural ASIN: the table below ASIN_SPLIT, `cfg.asinVal` from there to 1 (R311, R312). -/
def asinStruct (c : Cfg) (x : Pat P) : Pat P :=
  if |val x| < asinSplit c P then polyEval c .asin x else c.asinVal P x

/-- ASIN of a pattern, special values included (R311). -/
def fnAsin (c : Cfg) (x : Pat P) : Pat P := resolve (sv c .asin x x) (asinStruct c x)

/-- Structural ACOS: K_PI_2 - ASIN(x) under IDENTITY, `cfg.acosVal` under TABLE (R314, R315). -/
def acosStruct (c : Cfg) (x : Pat P) : Pat P :=
  match c.acosMode with
  | .identity => fsub (kPiHalf P) (fnAsin c x)
  | .table => c.acosVal P x

/-- ACOS of a pattern, special values included (R314). -/
def fnAcos (c : Cfg) (x : Pat P) : Pat P := resolve (sv c .acos x x) (acosStruct c x)

/-- sign(x)·π/2 (R318). -/
def signedPiHalf (x : Pat P) : Pat P := if sgn x then neg (kPiHalf P) else kPiHalf P

/-- sign(x)·π/2 − E of class 1, one fsub (R318). With an ODD table an exact zero keeps the sign of x, so that ATAN is odd
for every x as R319 says; clause 4 of 00_scope.md R20 would make it +0 for a negative x too. DEDUCED, unsafe (assumption
log 29). -/
def atanReciprocal (c : Cfg) (x E : Pat P) : Pat P :=
  let d := fsub (signedPiHalf x) E
  if isZero d && (romForm c .atan P == .odd) then zeroPat P (sgn x) else d

/-- Structural ATAN, of a finite nonzero x, by the class RR.ATAN gives (R318, R319). -/
def atanStruct (c : Cfg) (x : Pat P) : Pat P :=
  if atanClass x then atanReciprocal c x (polyEval c .atan (atanArg x)) else polyEval c .atan x

/-- ATAN of a pattern, special values included (R318). -/
def fnAtan (c : Cfg) (x : Pat P) : Pat P := resolve (sv c .atan x x) (atanStruct c x)

/-- Structural ATAN2, of finite nonzero y and x (R321). -/
def atan2Struct (c : Cfg) (y x : Pat P) : Pat P :=
  let t := fnAtan c (fdiv y x)
  if !sgn x then t
  else if !sgn y then fadd t (kPi P)
  else fsub t (kPi P)

/-- ATAN2 of two patterns, special values included (R321). -/
def fnAtan2 (c : Cfg) (y x : Pat P) : Pat P := resolve (sv c .atan2 y x) (atan2Struct c y x)

/-- ASIN of one lane (R311). -/
def laneAsin (c : Cfg) (P : Prec) (l : LaneIn) : LaneOut := .float (fnAsin c (opP P l.a))
/-- ACOS of one lane (R314). -/
def laneAcos (c : Cfg) (P : Prec) (l : LaneIn) : LaneOut := .float (fnAcos c (opP P l.a))
/-- ATAN of one lane (R318). -/
def laneAtan (c : Cfg) (P : Prec) (l : LaneIn) : LaneOut := .float (fnAtan c (opP P l.a))
/-- ATAN2 of one lane: y in XA, x in XB (R321). -/
def laneAtan2 (c : Cfg) (P : Prec) (l : LaneIn) : LaneOut := .float (fnAtan2 c (opP P l.a) (opP P l.b))

/-- ASIN (R311). -/
def execAsin (p : Prec) (n : LaneCount) (s : State) : Host.Outcome State Fault Refusal :=
  .next (dispatch n (laneAsin Config.cfg p) s)

/-- ACOS (R314). -/
def execAcos (p : Prec) (n : LaneCount) (s : State) : Host.Outcome State Fault Refusal :=
  .next (dispatch n (laneAcos Config.cfg p) s)

/-- ATAN (R318). -/
def execAtan (p : Prec) (n : LaneCount) (s : State) : Host.Outcome State Fault Refusal :=
  .next (dispatch n (laneAtan Config.cfg p) s)

/-- ATAN2 (R321). -/
def execAtan2 (p : Prec) (n : LaneCount) (s : State) : Host.Outcome State Fault Refusal :=
  .next (dispatch n (laneAtan2 Config.cfg p) s)

end Sys2Proof.Machine
end

