-- ==== Sys2Proof/Machine/Logarithmic.lean ====
section
/-! DEFINITION. The logarithmic family (spec/48_logarithmic.md): LOG2, and LOG and LOG10 through it. -/

namespace Sys2Proof.Machine

open Sys2Proof

variable {P : Prec}

/-- LOG2 of a pattern, special values included; the kernel `cfg.log2Val` is called only for finite x > 0, x ≠ 1 (R371,
R372). -/
def fnLog2 (c : Cfg) (x : Pat P) : Pat P := resolve (sv c .log2 x x) (c.log2Val P x)

/-- LOG of a pattern, special values included: LOG2(x)·K_LN2 (R375). -/
def fnLog (c : Cfg) (x : Pat P) : Pat P := resolve (sv c .log x x) (fmul (fnLog2 c x) (romLn2 c P))

/-- LOG10 of a pattern, special values included: LOG2(x)·K_LOG10_2 (R376). -/
def fnLog10 (c : Cfg) (x : Pat P) : Pat P := resolve (sv c .log10 x x) (fmul (fnLog2 c x) (romLog10Two c P))

/-- LOG2 of one lane (R371). -/
def laneLog2 (c : Cfg) (P : Prec) (l : LaneIn) : LaneOut := .float (fnLog2 c (opP P l.a))
/-- LOG of one lane (R375). -/
def laneLog (c : Cfg) (P : Prec) (l : LaneIn) : LaneOut := .float (fnLog c (opP P l.a))
/-- LOG10 of one lane (R376). -/
def laneLog10 (c : Cfg) (P : Prec) (l : LaneIn) : LaneOut := .float (fnLog10 c (opP P l.a))

/-- LOG (R375). -/
def execLog (p : Prec) (n : LaneCount) (s : State) : Host.Outcome State Fault Refusal :=
  .next (dispatch n (laneLog Config.cfg p) s)

/-- LOG2 (R371). -/
def execLog2 (p : Prec) (n : LaneCount) (s : State) : Host.Outcome State Fault Refusal :=
  .next (dispatch n (laneLog2 Config.cfg p) s)

/-- LOG10 (R376). -/
def execLog10 (p : Prec) (n : LaneCount) (s : State) : Host.Outcome State Fault Refusal :=
  .next (dispatch n (laneLog10 Config.cfg p) s)

end Sys2Proof.Machine
end

