-- ==== Sys2Proof/Machine/Trig.lean ====
section
/-! DEFINITION. The trigonometric family (spec/45_trig.md): SIN, COS, TAN. -/

namespace Sys2Proof.Machine

open Sys2Proof

variable {P : Prec}

/-- S = Eval(SIN, P, rt) of the reduced value (R280). -/
def trigS (c : Cfg) (x : Pat P) : Pat P := polyEval c .sin (trigReduced c x)

/-- C = Eval(COS, P, rt) of the reduced value (R280). -/
def trigC (c : Cfg) (x : Pat P) : Pat P := polyEval c .cos (trigReduced c x)

/-- The SIN column of the quadrant table (R281). -/
def sinOfQuadrant (q : Fin 4) (S C : Pat P) : Pat P :=
  match q with
  | 0 => S
  | 1 => C
  | 2 => neg S
  | 3 => neg C

/-- The COS column of the quadrant table (R281). -/
def cosOfQuadrant (q : Fin 4) (S C : Pat P) : Pat P :=
  match q with
  | 0 => C
  | 1 => neg S
  | 2 => neg C
  | 3 => S

/-- Structural SIN, of a finite nonzero x: in range the table value R281 selects (R282), where the sign flip of a NaN does
not show, because a NaN made of an operand that is none is cNaN (00_scope.md R17, assumption log 28); beyond TRIG_RR_MAX
an unconstrained pattern (R287, 41_range_reducer.md R164). -/
def sinStruct (c : Cfg) (x : Pat P) : Pat P :=
  if trigInRange c x then canonNaN (sinOfQuadrant (trigQuadrant c x) (trigS c x) (trigC c x)) else c.sinBig P x

/-- Structural COS, of a finite nonzero x: in range the table value R281 selects (R283), a NaN as cNaN
(R17, assumption log 28); beyond TRIG_RR_MAX an unconstrained pattern (R287, R164). -/
def cosStruct (c : Cfg) (x : Pat P) : Pat P :=
  if trigInRange c x then canonNaN (cosOfQuadrant (trigQuadrant c x) (trigS c x) (trigC c x)) else c.cosBig P x

/-- SIN of a pattern, special values included (R282). -/
def fnSin (c : Cfg) (x : Pat P) : Pat P := resolve (sv c .sin x x) (sinStruct c x)

/-- COS of a pattern, special values included (R283). -/
def fnCos (c : Cfg) (x : Pat P) : Pat P := resolve (sv c .cos x x) (cosStruct c x)

/-- TAN of a pattern, special values included: one IEEE division of the same two values (R285), beyond TRIG_RR_MAX too
(R286, R287). -/
def fnTan (c : Cfg) (x : Pat P) : Pat P := resolve (sv c .tan x x) (fdiv (sinStruct c x) (cosStruct c x))

/-- SIN of one lane (R282). -/
def laneSin (c : Cfg) (P : Prec) (l : LaneIn) : LaneOut := .float (fnSin c (opP P l.a))
/-- COS of one lane (R283). -/
def laneCos (c : Cfg) (P : Prec) (l : LaneIn) : LaneOut := .float (fnCos c (opP P l.a))
/-- TAN of one lane (R285). -/
def laneTan (c : Cfg) (P : Prec) (l : LaneIn) : LaneOut := .float (fnTan c (opP P l.a))

/-- SIN (R282). -/
def execSin (p : Prec) (n : LaneCount) (s : State) : Host.Outcome State Fault Refusal :=
  .next (dispatch n (laneSin Config.cfg p) s)

/-- COS (R283). -/
def execCos (p : Prec) (n : LaneCount) (s : State) : Host.Outcome State Fault Refusal :=
  .next (dispatch n (laneCos Config.cfg p) s)

/-- TAN (R285). -/
def execTan (p : Prec) (n : LaneCount) (s : State) : Host.Outcome State Fault Refusal :=
  .next (dispatch n (laneTan Config.cfg p) s)

end Sys2Proof.Machine
end

