-- ==== Sys2Proof/Machine/Dispatch.lean ====
section
/-! DEFINITION. The one match over the commands (spec/30_encoding.md R93): each arm calls the command's own meaning. -/

namespace Sys2Proof.Machine

open Sys2Proof

/-- The effect of a legal command on the state: `Dispatch` of the command (20_memory.md R63, 44_lane_dispatch.md R260).
CMD and STATUS.ILL are written by the CMD write that carries the command (Machine/Command.lean). -/
def exec (i : Instr) (s : State) : Host.Outcome State Fault Refusal :=
  match i with
  -- the float decomposer
  | .fdDecomp p n => Sys2Proof.Machine.execFdDecomp p n s
  | .fdCompose p n => Sys2Proof.Machine.execFdCompose p n s
  | .fdNorm p n => Sys2Proof.Machine.execFdNorm p n s
  | .fdScale p n => Sys2Proof.Machine.execFdScale p n s
  -- the range reducer
  | .rrTrig p n => Sys2Proof.Machine.execRrTrig p n s
  | .rrExp2 p n => Sys2Proof.Machine.execRrExp2 p n s
  | .rrAtan p n => Sys2Proof.Machine.execRrAtan p n s
  -- the polynomial evaluator and the special-value resolver
  | .peEval p n t => Sys2Proof.Machine.execPeEval p n t s
  | .svResolve p n f => Sys2Proof.Machine.execSvResolve p n f s
  -- the trigonometric family
  | .sin p n => Sys2Proof.Machine.execSin p n s
  | .cos p n => Sys2Proof.Machine.execCos p n s
  | .tan p n => Sys2Proof.Machine.execTan p n s
  -- the inverse trigonometric family
  | .asin p n => Sys2Proof.Machine.execAsin p n s
  | .acos p n => Sys2Proof.Machine.execAcos p n s
  | .atan p n => Sys2Proof.Machine.execAtan p n s
  | .atan2 p n => Sys2Proof.Machine.execAtan2 p n s
  -- the exponential family
  | .exp p n => Sys2Proof.Machine.execExp p n s
  | .exp2 p n => Sys2Proof.Machine.execExp2 p n s
  | .exp10 p n => Sys2Proof.Machine.execExp10 p n s
  -- the logarithmic family
  | .log p n => Sys2Proof.Machine.execLog p n s
  | .log2 p n => Sys2Proof.Machine.execLog2 p n s
  | .log10 p n => Sys2Proof.Machine.execLog10 p n s

end Sys2Proof.Machine
end

