-- ==== Sys2Proof/Machine/Command.lean ====
section
/-! DEFINITION. What one host event does: the CMD write that runs a transaction (spec/20_memory.md R63), the other
window accesses (R64-R67), and a reset (70_reset_and_hazards.md R461). -/

namespace Sys2Proof.Machine

open Sys2Proof

/-- A host write of CMD with value v: the command is decoded from v and from nothing else (20_memory.md R73); a legal one
clears STATUS.ILL and runs on the input files as they stand, an illegal one sets STATUS.ILL and writes no output
(20_memory.md R63, 30_encoding.md R102). -/
def commandWrite (v : Word) (s : State) : Host.Outcome State Fault Refusal :=
  match decode v with
  | .ok i => exec i (latchCommand v false s)
  | .error _ => .next (latchCommand v true s)

/-- A host write of v to a register of the window (20_memory.md R63, R65, R66). -/
def hostWrite (r : Reg) (v : Word) (s : State) : Host.Outcome State Fault Refusal :=
  match r with
  | .cmd => commandWrite v s
  | .status | .xa _ | .xb _ | .xn _ | .xs _ | .yf _ | .yn _ | .ys _ | .ym _ | .reserved _ => .next (writeReg r v s)

/-- One host event, with the events after it: an aligned 64-bit access of the window takes effect, any other access has
no step (20_memory.md R62, R67), a reset sets the block's state (70_reset_and_hazards.md R461). -/
def hostEvent (ev : HostEvent) (rest : List HostEvent) (s : State) : Host.Outcome State Fault Refusal :=
  match ev with
  | .read off size =>
    match regAt off size with
    | some r => .next (deliverRead (readReg s r) (nextAccess rest s))
    | none => .refused (.badAccess off size)
  | .write off size v =>
    match regAt off size with
    | some r => hostWrite r v (nextAccess rest s)
    | none => .refused (.badAccess off size)
  | .reset => .next (resetBlock rest s)

/-- The host event that writes a command word to CMD (30_encoding.md R107, `run`; R108, `wr CMD`). -/
def commandEvent (v : Word) : HostEvent := .write (regOffset .cmd) 8 v

end Sys2Proof.Machine
end

