-- ==== Sys2Proof/Machine/Step.lean ====
section
/-! DEFINITION. One step of the machine: the next host event takes effect (spec/20_memory.md R70). The block has no
program counter and fetches nothing (10_state.md R31): a command comes to it as the value of a CMD write. -/

namespace Sys2Proof.Machine

open Sys2Proof

/-- One step: the next host event; with none, the block waits and nothing changes (70_reset_and_hazards.md R462). -/
def step (s : State) : Host.Outcome State Fault Refusal :=
  match s.hostQueue with
  | [] => .next s
  | ev :: rest => hostEvent ev rest s

/-- The state whose next host access writes the given command word to CMD, so that the very next step runs it; the host's
other accesses come after it, and nothing else changes. -/
def State.withFetchWord (s : State) (nbits w : Nat) : State :=
  { s with hostQueue := commandEvent (tableWord nbits w) :: s.hostQueue }

end Sys2Proof.Machine
end

