-- ==== Sys2Proof/Machine/Accuracy.lean ====
section
/-! DEFINITION. The requirements on a configuration that the machine never checks: the law of the trig reduction
(spec/41_range_reducer.md R163), and the ULP metric, the sample grids and the accuracy requirements `AccOK(cfg)`
(49_accuracy.md R400-R412). A claim that needs one takes it as a premise (00_scope.md R29, 49_accuracy.md R412). -/

namespace Sys2Proof.Machine

open Sys2Proof

variable {P : Prec}

/-- The result of a function command on patterns, special values included: `a` is x, or (y, x) = (`a`, `b`) for ATAN2
(45_trig.md to 48_logarithmic.md). -/
def fnResult (c : Cfg) (f : FnId) (a b : Pat P) : Pat P :=
  match f with
  | .sin => fnSin c a
  | .cos => fnCos c a
  | .tan => fnTan c a
  | .asin => fnAsin c a
  | .acos => fnAcos c a
  | .atan => fnAtan c a
  | .atan2 => fnAtan2 c a b
  | .exp => fnExp c a
  | .exp2 => fnExp2 c a
  | .exp10 => fnExp10 c a
  | .log => fnLog c a
  | .log2 => fnLog2 c a
  | .log10 => fnLog10 c a

/-! ### The law of the trig reduction -/

/-- r is RoundRNE of a real number at which rounding is locally constant: every rational near enough rounds to r. An
irrational number, as every reduced value with k ≠ 0 is, rounds so, and so does the nonzero value of a finite pattern. -/
def RoundsTo (P : Prec) (v : ℝ) (r : Pat P) : Prop := ∃ δ : ℝ, 0 < δ ∧ ∀ q : ℚ, |(q : ℝ) - v| < δ → roundVal P q = r

/-- Law (a) of 41_range_reducer.md R163: for finite nonzero x in range, rt is finite and lies within one ulp of the exact
reduced value val(x) - k·π/2. -/
def ReduceLaw (c : Cfg) : Prop :=
  ∀ (P : Prec) (x : Pat P), isFinite x = true → isZero x = false → trigInRange c x = true →
    isFinite (trigReduced c x) = true ∧
    ∃ r : Pat P, RoundsTo P ((val x : ℝ) - trigK x * (Real.pi / 2)) r ∧
      |(val (trigReduced c x) : ℝ) - ((val x : ℝ) - trigK x * (Real.pi / 2))| < (ulp r : ℝ)

/-! ### The metric (R400-R402) -/

/-- A reference: a real number, +∞, -∞ or NaN (R400, R402). -/
inductive Ref
  | real (r : ℝ)
  | posInf
  | negInf
  | nan

/-- A value of the metric: a non-negative real, +∞ or NaN (R400). -/
inductive Metric
  | value (r : ℝ)
  | infinite
  | nan

/-- `ULPMetric(P, test, ref) = m` (R400, R401). -/
def UlpMetric (test : Pat P) (ref : Ref) (m : Metric) : Prop :=
  match ref with
  | .nan => m = if isNaN test then .value 0 else .nan
  | .posInf => m = if isNaN test then .nan else if isInf test then (if sgn test then .nan else .value 0) else .infinite
  | .negInf => m = if isNaN test then .nan else if isInf test then (if sgn test then .value 0 else .nan) else .infinite
  | .real r => m = if isNaN test then .nan else if isInf test then .infinite else .value (|(val test : ℝ) - r| / ulp test)

/-- A metric below a bound; NaN and +∞ are below none (R400). -/
def Metric.below : Metric → ℚ → Prop
  | .value r, b => r < b
  | .infinite, _ => False
  | .nan, _ => False

/-- A result passes: `ULPMetric(P, test, ref) < bound` (R400). -/
def Passes (test : Pat P) (ref : Ref) (bound : ℚ) : Prop := ∀ m, UlpMetric test ref m → m.below bound

/-- The reference of a function at real arguments: `a` is x, or (y, x) = (`a`, `b`) for atan2; NaN where the function has
no real value (R402). -/
def RefOf (f : FnId) (a b : ℝ) (r : Ref) : Prop :=
  match f with
  | .sin => r = .real (Real.sin a)
  | .cos => r = .real (Real.cos a)
  | .tan => (Real.cos a ≠ 0 ∧ r = .real (Real.tan a)) ∨ (Real.cos a = 0 ∧ r = .nan)
  | .asin => (|a| ≤ 1 ∧ r = .real (Real.arcsin a)) ∨ (1 < |a| ∧ r = .nan)
  | .acos => (|a| ≤ 1 ∧ r = .real (Real.arccos a)) ∨ (1 < |a| ∧ r = .nan)
  | .atan => r = .real (Real.arctan a)
  | .atan2 => r = .real (Complex.arg ⟨b, a⟩)
  | .exp => r = .real (Real.exp a)
  | .exp2 => r = .real ((2 : ℝ) ^ a)
  | .exp10 => r = .real ((10 : ℝ) ^ a)
  | .log => (0 < a ∧ r = .real (Real.log a)) ∨ (a = 0 ∧ r = .negInf) ∨ (a < 0 ∧ r = .nan)
  | .log2 => (0 < a ∧ r = .real (Real.logb 2 a)) ∨ (a = 0 ∧ r = .negInf) ∨ (a < 0 ∧ r = .nan)
  | .log10 => (0 < a ∧ r = .real (Real.logb 10 a)) ∨ (a = 0 ∧ r = .negInf) ∨ (a < 0 ∧ r = .nan)

/-! ### The sample grids (R409) -/

/-- The grids of R409. -/
inductive GridId
  | g1
  | g2
  | g3
  | g4
  | g5
  | g6
  | g7
  deriving DecidableEq, Repr

/-- The start of a grid (R409). -/
def gridStart : GridId → ℚ
  | .g1 => 0
  | .g2 => -100
  | .g3 => 0
  | .g4 => -1
  | .g5 => -1
  | .g6 => -10
  | .g7 => 0

/-- The step of a grid, the exact decimal fraction (R409). -/
def gridStep : GridId → ℚ
  | .g1 => 5 / 100
  | .g2 => 5 / 10
  | .g3 => 1 / 100
  | .g4 => 5 / 100
  | .g5 => 1 / 10
  | .g6 => 5 / 100
  | .g7 => 5 / 10

/-- A number does not lie past the end of a grid; π in the end point 2π is the real π (R409). -/
def UpToEnd (g : GridId) (t : ℚ) : Prop :=
  match g with
  | .g1 => (t : ℝ) ≤ 2 * Real.pi
  | .g2 => t ≤ 100
  | .g3 => (t : ℝ) ≤ 2 * Real.pi
  | .g4 => t ≤ 1
  | .g5 => t ≤ 1
  | .g6 => t ≤ 10
  | .g7 => t ≤ 100

/-- The i-th point of a grid: RoundRNE of start + i·step, +0 for a zero (R409). -/
def gridPoint (P : Prec) (g : GridId) (i : Nat) : Pat P := roundVal P (gridStart g + i * gridStep g)

/-- RoundRNE of the end of a grid (R410); RoundRNE(2π) is K_PI with its exponent field one higher. -/
def gridEnd (P : Prec) (g : GridId) : Pat P :=
  match g with
  | .g1 => pack P false (expf (kPi P) + 1) (frac (kPi P))
  | .g2 => roundVal P 100
  | .g3 => pack P false (expf (kPi P) + 1) (frac (kPi P))
  | .g4 => roundVal P 1
  | .g5 => roundVal P 1
  | .g6 => roundVal P 10
  | .g7 => roundVal P 100

/-- The patterns at which a requirement over a grid holds: the sample points, and under ACC_EVERYWHERE every pattern
between the ends (R409, R410). -/
def InDomain (c : Cfg) (P : Prec) (g : GridId) (x : Pat P) : Prop :=
  (∃ i : Nat, UpToEnd g (gridStart g + i * gridStep g) ∧ x = gridPoint P g i) ∨
  (c.accEverywhere = true ∧ isFinite x = true ∧ val (gridPoint P g 0) ≤ val x ∧ val x ≤ val (gridEnd P g))

/-! ### The requirements (R403-R408, R411, R412) -/

/-- The value of INV_TRIG_TOL (R405). -/
def invTrigBound (c : Cfg) : ℚ :=
  match c.invTrigTol with
  | .two => 2
  | .twoAndHalf => 5 / 2

/-- A one-operand function meets a bound over a grid, in precision P. A lane's result does not depend on the lane count,
so the requirement is one about patterns (R413). -/
def AccAt (c : Cfg) (P : Prec) (f : FnId) (g : GridId) (bound : ℚ) : Prop :=
  ∀ x : Pat P, InDomain c P g x → ∀ r, RefOf f (val x) 0 r → Passes (fnResult c f x x) r bound

/-- R403: sin and cos. -/
def SinCosAcc (c : Cfg) : Prop :=
  ∀ P, AccAt c P .sin .g1 2 ∧ AccAt c P .sin .g2 2 ∧ AccAt c P .cos .g1 2 ∧ AccAt c P .cos .g2 2

/-- R404: tan, in binary32 only. -/
def TanAcc (c : Cfg) : Prop := AccAt c .b32 .tan .g3 c.tanTolNarrow ∧ AccAt c .b32 .tan .g2 c.tanTolWide

/-- R405: asin, acos, atan. -/
def InvTrigAcc (c : Cfg) : Prop :=
  ∀ P, AccAt c P .asin .g4 (invTrigBound c) ∧ AccAt c P .acos .g4 (invTrigBound c) ∧ AccAt c P .atan .g4 (invTrigBound c)

/-- R406: atan2 over the square grid. -/
def Atan2Acc (c : Cfg) : Prop :=
  ∀ (P : Prec) (y x : Pat P), InDomain c P .g5 y → InDomain c P .g5 x →
    ∀ r, RefOf .atan2 (val y) (val x) r → Passes (fnAtan2 c y x) r (invTrigBound c)

/-- R407: exp, exp2, exp10. -/
def ExpAcc (c : Cfg) : Prop := ∀ P, AccAt c P .exp .g6 2 ∧ AccAt c P .exp2 .g6 3 ∧ AccAt c P .exp10 .g6 3

/-- R408: log, log2, log10. -/
def LogAcc (c : Cfg) : Prop := ∀ P, AccAt c P .log .g7 2 ∧ AccAt c P .log2 .g7 3 ∧ AccAt c P .log10 .g7 3

/-- R411: asin(1.0) ≈ π/2 within the bound (the other concrete cases hold exactly in every configuration). -/
def AsinOneAcc (c : Cfg) : Prop := ∀ P, Passes (fnAsin c (onePat P)) (.real (Real.pi / 2)) (invTrigBound c)

/-- `AccOK(cfg)` (R412). -/
def AccOK (c : Cfg) : Prop :=
  SinCosAcc c ∧ TanAcc c ∧ InvTrigAcc c ∧ Atan2Acc c ∧ ExpAcc c ∧ LogAcc c ∧ AsinOneAcc c

end Sys2Proof.Machine
end

