-- ==== Sys2Proof/Safety.lean ====
section
/-! DEFINITION. What counts as a safe state and a safe run, in the terms the claims use: accesses the block answers
(spec/20_memory.md R62, R67), a STATUS that tells the truth about CMD (10_state.md R36, R37), and output lanes that one
command explains (44_lane_dispatch.md R263, 70_reset_and_hazards.md R466); and values whose only NaN is the canonical one
(00_scope.md R17). -/

namespace Sys2Proof.Machine

open Sys2Proof

/-- The only NaN a value can be is cNaN (00_scope.md R17). -/
def CanonicalNaN {P : Prec} (v : Pat P) : Prop := isNaN v = true → v = cNaN P

/-- An access the block has a step for: an aligned 64-bit access of the window, or a reset (20_memory.md R62). -/
def HostEvent.answered : HostEvent → Bool
  | .read off size => (regAt off size).isSome
  | .write off size _ => (regAt off size).isSome
  | .reset => true

/-- The state's next event, if there is one, is answered. -/
def State.nextAnswered (s : State) : Bool := s.hostQueue.head?.all HostEvent.answered

/-- Two states with the same output files. -/
def SameOutputs (s t : State) : Prop := s.yf = t.yf ∧ s.yn = t.yn ∧ s.ys = t.ys ∧ s.ym = t.ym

/-- Two states with the same input files. -/
def SameInputs (s t : State) : Prop := s.xa = t.xa ∧ s.xb = t.xb ∧ s.xn = t.xn ∧ s.xs = t.xs

/-- The output files hold their reset values (70_reset_and_hazards.md R460). -/
def OutputsAtReset (s : State) : Prop := SameOutputs s State.reset

/-- STATUS.ILL says whether the most recent CMD write held an illegal word; before the first CMD write CMD is 0 and ILL
is 0 (10_state.md R36, R37). -/
def StatusTracksCommand (s : State) : Prop :=
  (s.ill = true → illegal s.cmd = true) ∧ (s.ill = false → illegal s.cmd = false ∨ s.cmd = 0)

/-- The output files are at reset, or one legal command wrote all of them: the most recent one, and it is CMD's when
STATUS.ILL is 0 (44_lane_dispatch.md R263, 30_encoding.md R102, 70_reset_and_hazards.md R466). -/
def OutputsExplained (s : State) : Prop :=
  (OutputsAtReset s ∧ (s.ill = false → s.cmd = 0)) ∨
  ∃ (i : Instr) (before after : State), i.wellFormed = true ∧ exec i before = .next after ∧ SameOutputs s after ∧
    (s.ill = false → decode s.cmd = .ok i)

/-- The invariant every step keeps. -/
def Inv (s : State) : Prop := StatusTracksCommand s ∧ OutputsExplained s

end Sys2Proof.Machine
end

