-- ==== Sys2Proof/Certificates/Slice0/Obligations.lean ====
section
/-! DEFINITION. The statements for the provers: what the numbered rules of spec/ say of the encoding, the interface, the
lanes and each command. First the words they share: `Gives` says that a command answers a next state and what it writes
in a lane. -/

namespace Sys2Proof.Claims

open Sys2Proof Sys2Proof.Machine

/-! ### Shared words -/

/-- The command i completes: in every state, in every lane below its lane count whose input is l, it answers a next state
that holds o in that output lane. -/
def Gives (i : Instr) (l : LaneIn) (o : LaneOut) : Prop :=
  ∀ (s : State) (j : Fin 16), j.val < laneCount i.lanes → laneIn s j = l →
    ∃ t, exec i s = .next t ∧ outLane t j = o

/-- The command i delivers the pattern r in YF and 0 in the other outputs of a lane whose input is l. -/
def GivesFloat (i : Instr) (l : LaneIn) {P : Prec} (r : Pat P) : Prop := Gives i l { yf := zext64 r }

/-- The opcode of a command, from the opcode map (30_encoding.md R93). -/
def opNumber : Instr → Nat
  | .fdDecomp _ _ => 0x01
  | .fdCompose _ _ => 0x02
  | .fdNorm _ _ => 0x03
  | .fdScale _ _ => 0x04
  | .rrTrig _ _ => 0x10
  | .rrExp2 _ _ => 0x11
  | .rrAtan _ _ => 0x12
  | .peEval _ _ _ => 0x20
  | .svResolve _ _ _ => 0x30
  | .sin _ _ => 0x40
  | .cos _ _ => 0x41
  | .tan _ _ => 0x42
  | .asin _ _ => 0x48
  | .acos _ _ => 0x49
  | .atan _ _ => 0x4A
  | .atan2 _ _ => 0x4B
  | .exp _ _ => 0x50
  | .exp2 _ _ => 0x51
  | .exp10 _ _ => 0x52
  | .log _ _ => 0x58
  | .log2 _ _ => 0x59
  | .log10 _ _ => 0x5A

/-- The opcodes the map lists (R93). -/
def listedOpcodes : List Nat :=
  [0x01, 0x02, 0x03, 0x04, 0x10, 0x11, 0x12, 0x20, 0x30, 0x40, 0x41, 0x42, 0x48, 0x49, 0x4A, 0x4B, 0x50, 0x51, 0x52,
   0x58, 0x59, 0x5A]

/-- The selectors of SV.RESOLVE (R96). -/
def listedSelectors : List Nat := [0x40, 0x41, 0x42, 0x48, 0x49, 0x4A, 0x4B, 0x50, 0x51, 0x52, 0x58, 0x59, 0x5A]

/-- The function command of a function (R93, R96). -/
def fnCommand (f : FnId) (P : Prec) (n : LaneCount) : Instr :=
  match f with
  | .sin => .sin P n
  | .cos => .cos P n
  | .tan => .tan P n
  | .asin => .asin P n
  | .acos => .acos P n
  | .atan => .atan P n
  | .atan2 => .atan2 P n
  | .exp => .exp P n
  | .exp2 => .exp2 P n
  | .exp10 => .exp10 P n
  | .log => .log P n
  | .log2 => .log2 P n
  | .log10 => .log10 P n

/-- The host side after one access, when `rest` is what is left of the queue. -/
def accessTaken (rest : List HostEvent) (s : State) : State :=
  { s with hostQueue := rest, hostIndex := s.hostIndex + 1 }

/-- A host read at offset `off` returns w and changes nothing but the host's own side. -/
def ReadReturns (s : State) (off : Int) (w : Word) : Prop :=
  ∀ rest, s.hostQueue = .read off 8 :: rest →
    step s = .next { accessTaken rest s with hostReads := s.hostReads ++ [w] }

/-- A host write of v at offset `off` leaves the block in state t, the host's own side aside. -/
def WriteLeaves (s : State) (off : Int) (v : Word) (t : State) : Prop :=
  ∀ rest, s.hostQueue = .write off 8 v :: rest → step s = .next (accessTaken rest t)

/-- The events the spec gives no step: an access that is not an aligned 64-bit access of the window
(20_memory.md R67). -/
def BadAccess : HostEvent → Prop
  | .read off size => ¬(size = 8 ∧ 0 ≤ off ∧ off < 4096 ∧ off % 8 = 0)
  | .write off size _ => ¬(size = 8 ∧ 0 ≤ off ∧ off < 4096 ∧ off % 8 = 0)
  | .reset => False

/-- The output files a command names: YF, YN, YS, YM (10_state.md R34). -/
def namesYF : Instr → Prop
  | .fdDecomp _ _ => False
  | _ => True

/-- The commands that name YN (R34). -/
def namesYN : Instr → Prop
  | .fdDecomp _ _ | .fdNorm _ _ | .rrTrig _ _ | .rrExp2 _ _ | .rrAtan _ _ | .svResolve _ _ _ => True
  | _ => False

/-- The commands that name YS (R34). -/
def namesYS : Instr → Prop
  | .fdDecomp _ _ | .fdNorm _ _ | .rrAtan _ _ => True
  | _ => False

/-- The commands that name YM (R34). -/
def namesYM : Instr → Prop
  | .fdDecomp _ _ => True
  | _ => False

/-- The commands that read XB (R34, 43_special_values.md R222). -/
def readsXB : Instr → Prop
  | .atan2 _ _ | .svResolve _ _ .atan2 => True
  | _ => False

/-- The commands that read XN (R34). -/
def readsXN : Instr → Prop
  | .fdCompose _ _ | .fdScale _ _ => True
  | _ => False

/-- The commands that read XS (R34). -/
def readsXS : Instr → Prop
  | .fdCompose _ _ => True
  | _ => False

/-- A value greater than 0: a positive number or +inf (43_special_values.md R230). -/
def Positive {P : Prec} (x : Pat P) : Prop :=
  (isInf x = true ∧ sgn x = false) ∨ (isFinite x = true ∧ 0 < val x)

/-- A value less than 0: a negative number or -inf (R230). -/
def Negative {P : Prec} (x : Pat P) : Prop :=
  (isInf x = true ∧ sgn x = true) ∨ (isFinite x = true ∧ val x < 0)

/-- Finite and not a zero. -/
def FiniteNonzero {P : Prec} (x : Pat P) : Prop := isFinite x = true ∧ isZero x = false

/-- SV.RESOLVE of f hits with v at the operands a (and b): YF holds v and YN holds 1 (43_special_values.md R222). -/
def Hits (f : FnId) {P : Prec} (a b v : Pat P) : Prop :=
  ∀ (n : LaneCount) (l : LaneIn), opP P l.a = a → opP P l.b = b →
    Gives (.svResolve P n f) l { yf := zext64 v, yn := 1 }

/-- SV.RESOLVE of f misses at the operands: YF and YN hold 0 (R222). -/
def Misses (f : FnId) {P : Prec} (a b : Pat P) : Prop :=
  ∀ (n : LaneCount) (l : LaneIn), opP P l.a = a → opP P l.b = b → Gives (.svResolve P n f) l {}

/-- The Horner loop of 42_poly_evaluator.md R193 and R194 over the coefficients c_0 .. c_d: the accumulator starts at
c_d and takes c_{d-1} down to c_0. -/
def hornerLoop {P : Prec} (fma : Bool) (t : Pat P) (coeffs : List (Pat P)) : Pat P :=
  match coeffs.reverse with
  | [] => zeroPat P false
  | top :: lower => lower.foldl (fun acc c => if fma then ffma acc t c else fadd (fmul acc t) c) top

/-- The integer algorithm of 40_float_decomposer.md R138, for a finite nonzero x. -/
def scaleInteger {P : Prec} (x : Pat P) (n : Int) : Pat P :=
  let M : Nat := if isNorm x then 2 ^ P.fracBits + frac x else frac x
  let q : Int := if isNorm x then (expf x : Int) - P.bias - P.fracBits else P.emin - P.fracBits
  let q' := q + n
  let e := (M.log2 : Int) + q'
  let qt := max e P.emin - P.fracBits
  let sh := (qt - q').toNat
  let S0 := M / 2 ^ sh
  let rem := M % 2 ^ sh
  let S := if qt ≤ q' then M * 2 ^ (q' - qt).toNat
    else if 2 ^ (sh - 1) < rem ∨ (rem = 2 ^ (sh - 1) ∧ S0 % 2 = 1) then S0 + 1 else S0
  let S' := if S = 2 ^ (P.fracBits + 1) then 2 ^ P.fracBits else S
  let qt' := if S = 2 ^ (P.fracBits + 1) then qt + 1 else qt
  if 2 ^ P.fracBits ≤ S' then
    if (expMax P : Int) ≤ qt' + P.fracBits + P.bias then infPat P (sgn x)
    else pack P (sgn x) (qt' + P.fracBits + P.bias).toNat (S' - 2 ^ P.fracBits)
  else pack P (sgn x) 0 S'

/-- The overflow bound of RoundRNE, (2 - 2^-p)·2^emax with p = FW + 1 (00_scope.md R19). -/
def overflowBound (P : Prec) : ℚ := (2 - (2 : ℚ) ^ (-(P.fracBits + 1 : ℤ))) * (2 : ℚ) ^ P.emax

end Sys2Proof.Claims

open Sys2Proof Sys2Proof.Machine Sys2Proof.Claims

/-! ### The command word -/

/-- The words 30_encoding.md R106 and 44_lane_dispatch.md R267 write out, one word of each family besides, and the
all-zero word of R101. -/
def Obligations.ExampleWordsDecode : Prop :=
  decode 0x0000000000000440 = .ok (.sin .b32 .x4) ∧
  decode 0x0000000000020320 = .ok (.peEval .b64 .x2 .cos) ∧
  decode 0x0000000000000101 = .ok (.fdDecomp .b64 .x1) ∧
  decode 0x0000000000000450 = .ok (.exp .b32 .x4) ∧
  decode 0x0000000000000811 = .ok (.rrExp2 .b32 .x16) ∧
  decode 0x0000000000580130 = .ok (.svResolve .b64 .x1 .log) ∧
  decode 0x000000000000074B = .ok (.atan2 .b64 .x8) ∧
  decode 0x000000000000025A = .ok (.log10 .b32 .x2) ∧
  decode 0x0000000000000000 = .error .opcode

/-- Decoding the word of a well-formed command gives the command back, under either ACOS_MODE, at every precision, lane
count, table and selector (R90, R93, R95, R96, R106). -/
def Obligations.DecodeOfEncode : Prop :=
  ∀ (m : AcosMode) (i : Instr), i.wellFormedIn m = true → decodeIn m (encode i) = .ok i

/-- A word that decodes is the word of the command it decodes to, and that command is well-formed: no bit of a legal word
is ignored (R90, R101, R103). -/
def Obligations.EncodeOfDecode : Prop :=
  ∀ (m : AcosMode) (v : Word) (i : Instr), decodeIn m v = .ok i → encode i = v ∧ i.wellFormedIn m = true

/-- R101: a word is illegal if and only if one of the six clauses holds; both values of P are legal for every OP, and the
all-zero word is illegal. -/
def Obligations.IllegalSixClauses : Prop :=
  (∀ v : Word,
    illegal v = true ↔
      v.toNat % 2 ^ 8 ∉ listedOpcodes ∨
      v.toNat / 2 ^ 9 % 2 ^ 3 ∈ [5, 6, 7] ∨
      (v.toNat / 2 ^ 12 % 2 ^ 4 ≠ 0 ∨ v.toNat / 2 ^ 24 ≠ 0) ∨
      (v.toNat % 2 ^ 8 ≠ 0x20 ∧ v.toNat % 2 ^ 8 ≠ 0x30 ∧ v.toNat / 2 ^ 16 % 2 ^ 8 ≠ 0) ∨
      (v.toNat % 2 ^ 8 = 0x20 ∧ (v.toNat / 2 ^ 16 % 2 ^ 8 ∉ [1, 2, 3, 4, 5, 6, 7] ∨
        (v.toNat / 2 ^ 16 % 2 ^ 8 = 4 ∧ Config.acosMode = .identity))) ∨
      (v.toNat % 2 ^ 8 = 0x30 ∧ v.toNat / 2 ^ 16 % 2 ^ 8 ∉ listedSelectors)) ∧
  (∀ v : Word, illegal (v ^^^ 0x100) = illegal v) ∧
  illegal 0 = true

/-- R93 and R90: the fields of a legal word say which command it is, at which precision and lane count. -/
def Obligations.OpcodeMap : Prop :=
  ∀ (v : Word) (i : Instr), decode v = .ok i →
    v.toNat % 2 ^ 8 = opNumber i ∧
    (i.prec = .b64 ↔ v.toNat / 2 ^ 8 % 2 = 1) ∧
    laneCount i.lanes = 2 ^ (v.toNat / 2 ^ 9 % 2 ^ 3)

/-! ### The step, the window and reset -/

/-- A step runs the decoded command: when the next host access writes a legal word to CMD, the step is `exec` of its
command in the state whose CMD holds the word and whose STATUS.ILL is 0, with the access taken (20_memory.md R63,
R70, R73). -/
def Obligations.StepRunsDecodedCommand : Prop :=
  ∀ (s : State) (v : Word) (rest : List HostEvent) (i : Instr),
    s.hostQueue = .write 0 8 v :: rest → decode v = .ok i →
      step s = exec i { accessTaken rest s with cmd := v, ill := false }

/-- R102: an illegal word sets STATUS.ILL, CMD holds it, no output file is written and nothing else changes. -/
def Obligations.IllegalWordWritesNoOutput : Prop :=
  ∀ (s : State) (v : Word), illegal v = true → WriteLeaves s 0 v { s with cmd := v, ill := true }

/-- The very next step after `withFetchWord` runs the word's command on the state it was given, whatever the host's other
accesses are. -/
def Obligations.FetchWordRunsNext : Prop :=
  ∀ (s : State) (nbits w : Nat) (i : Instr), decodeTableWord nbits w = some i →
    step (s.withFetchWord nbits w) =
      exec i { s with cmd := tableWord nbits w, ill := false, hostIndex := s.hostIndex + 1 }

/-- R460 to R462: every register and lane is 0 after reset, a reset event puts exactly these values back from every
state, and a block to which no access comes waits. The model's own host side (no access made, none to come) is its
choice: assumption log 2. -/
def Obligations.ResetState : Prop :=
  (State.reset.cmd = 0 ∧ State.reset.ill = false ∧
    ∀ i : Fin 16, State.reset.xa[i] = 0 ∧ State.reset.xb[i] = 0 ∧ State.reset.xn[i] = 0 ∧ State.reset.xs[i] = false ∧
      State.reset.yf[i] = 0 ∧ State.reset.yn[i] = 0 ∧ State.reset.ys[i] = false ∧ State.reset.ym[i] = 0) ∧
  (∀ (s : State) (rest : List HostEvent), s.hostQueue = .reset :: rest →
    step s = .next { State.reset with hostQueue := rest, hostIndex := s.hostIndex, hostReads := s.hostReads }) ∧
  (∀ s : State, s.hostQueue = [] → step s = .next s)

/-- R64: what a host read returns at each offset of the window, and that it has no side effect. -/
def Obligations.HostReadReturns : Prop :=
  ∀ s : State,
    ReadReturns s 0x000 s.cmd ∧
    ReadReturns s 0x008 (if s.ill then 1 else 0) ∧
    (∀ i : Fin 16,
      ReadReturns s (0x100 + 8 * i) s.xa[i] ∧
      ReadReturns s (0x180 + 8 * i) s.xb[i] ∧
      ReadReturns s (0x200 + 8 * i) s.xn[i] ∧
      ReadReturns s (0x280 + 8 * i) (if s.xs[i] then 1 else 0) ∧
      ReadReturns s (0x300 + 8 * i) s.yf[i] ∧
      ReadReturns s (0x380 + 8 * i) s.yn[i] ∧
      ReadReturns s (0x400 + 8 * i) (if s.ys[i] then 1 else 0) ∧
      ReadReturns s (0x480 + 8 * i) s.ym[i]) ∧
    (∀ k : Nat, (2 ≤ k ∧ k < 32) ∨ (160 ≤ k ∧ k < 512) → ReadReturns s (8 * k) 0)

/-- R65 and R66: what a host write does at each offset but CMD's. An input lane takes the word (XS its bit 0); STATUS,
the output lanes and the reserved offsets ignore it. -/
def Obligations.HostWriteEffect : Prop :=
  ∀ (s : State) (v : Word),
    (∀ i : Fin 16,
      WriteLeaves s (0x100 + 8 * i) v { s with xa := s.xa.set i v } ∧
      WriteLeaves s (0x180 + 8 * i) v { s with xb := s.xb.set i v } ∧
      WriteLeaves s (0x200 + 8 * i) v { s with xn := s.xn.set i v } ∧
      WriteLeaves s (0x280 + 8 * i) v { s with xs := s.xs.set i (v.getLsbD 0) } ∧
      WriteLeaves s (0x300 + 8 * i) v s ∧
      WriteLeaves s (0x380 + 8 * i) v s ∧
      WriteLeaves s (0x400 + 8 * i) v s ∧
      WriteLeaves s (0x480 + 8 * i) v s) ∧
    WriteLeaves s 0x008 v s ∧
    (∀ k : Nat, (2 ≤ k ∧ k < 32) ∨ (160 ≤ k ∧ k < 512) → WriteLeaves s (8 * k) v s)

/-- R67 and R444: the only stop is a refused access. A step answers a next state unless the next host event is an access
that is not an aligned 64-bit access of the window; then it is refused; it never faults. -/
def Obligations.OnlyBadAccessIsRefused : Prop :=
  ∀ s : State,
    ((∃ t, step s = .next t) ↔ ∀ ev, s.hostQueue.head? = some ev → ¬BadAccess ev) ∧
    ((∃ r, step s = .refused r) ↔ ∃ ev, s.hostQueue.head? = some ev ∧ BadAccess ev) ∧
    (∀ f, step s ≠ .fault f)

/-- R60 and R62: at any aligned BASE, an 8-byte access by host address reaches the window exactly from BASE to BASE +
4095 at a multiple of 8, and then the register there has offset address - BASE. -/
def Obligations.WindowAtBase : Prop :=
  ∀ (c : Cfg) (addr : Nat),
    ((regAt (hostOffset c addr) 8).isSome = true ↔
      baseAddr c ≤ addr ∧ addr < baseAddr c + 4096 ∧ addr % 8 = 0) ∧
    (∀ r, regAt (hostOffset c addr) 8 = some r → baseAddr c + regOffset r = addr)

/-- The invariant of Safety.lean holds after reset. -/
def Obligations.InvAtReset : Prop := Inv State.reset

/-- Every step keeps the invariant, from every state that has it: STATUS.ILL tells the truth about CMD (R36, R37), and
one legal command explains all 64 output lanes (R102, R263, R466). -/
def Obligations.InvKeptByStep : Prop := ∀ s t : State, Inv s → step s = .next t → Inv t

/-- Writing CMD twice with the same word leaves the same outputs, inputs, CMD and STATUS as writing it once (R69). -/
def Obligations.CmdWriteIdempotent : Prop :=
  ∀ (s : State) (v : Word) (rest : List HostEvent),
    s.hostQueue = .write 0 8 v :: .write 0 8 v :: rest →
      ∃ t u, step s = .next t ∧ step t = .next u ∧ SameOutputs t u ∧ SameInputs t u ∧ t.cmd = u.cmd ∧ t.ill = u.ill

/-! ### Every command over the lanes -/

/-- The frame of all 22 commands: the input files, CMD, STATUS and the host side are unchanged, and so is what the host
reads at every offset of the window that is no output lane (R32, R33, R39). -/
def Obligations.CommandFrame : Prop :=
  ∀ (i : Instr) (s t : State), exec i s = .next t →
    SameInputs s t ∧ t.cmd = s.cmd ∧ t.ill = s.ill ∧ t.hostQueue = s.hostQueue ∧ t.hostIndex = s.hostIndex ∧
    t.hostReads = s.hostReads ∧
    ∀ r : Reg, (∀ j, r ≠ .yf j ∧ r ≠ .yn j ∧ r ≠ .ys j ∧ r ≠ .ym j) → readReg t r = readReg s r

/-- R263: every command writes every output lane. Lanes from the lane count on are 0, an output file the command does
not name (R34) is 0 in every lane, and the 64 output lanes depend on the command and the inputs alone. -/
def Obligations.UnnamedOutputsAreZero : Prop :=
  ∀ (i : Instr) (s : State), ∃ t, exec i s = .next t ∧
    (∀ j : Fin 16, laneCount i.lanes ≤ j.val → t.yf[j] = 0 ∧ t.yn[j] = 0 ∧ t.ys[j] = false ∧ t.ym[j] = 0) ∧
    (∀ j : Fin 16, (¬namesYF i → t.yf[j] = 0) ∧ (¬namesYN i → t.yn[j] = 0) ∧ (¬namesYS i → t.ys[j] = false) ∧
      (¬namesYM i → t.ym[j] = 0)) ∧
    (∀ s' t' : State, SameInputs s s' → exec i s' = .next t' → SameOutputs t t')

/-- R262 and R266: a lane's result depends on that lane's input alone, whatever the lane, the lane count and the other
lanes. -/
def Obligations.ResultsAreLanewise : Prop :=
  ∀ (i : Instr) (n m : LaneCount) (s s' t t' : State) (j k : Fin 16),
    exec (i.withLanes n) s = .next t → exec (i.withLanes m) s' = .next t' →
    j.val < laneCount n → k.val < laneCount m → laneIn s j = laneIn s' k → outLane t j = outLane t' k

/-- The reads column of R34 with R25: XB, XN and XS matter only to the commands that read them, and a binary32 command
ignores bits 63:32 of a float lane. -/
def Obligations.UnreadOperandsIgnored : Prop :=
  ∀ (i : Instr) (s s' t t' : State) (j : Fin 16),
    exec i s = .next t → exec i s' = .next t' →
    opP i.prec s.xa[j] = opP i.prec s'.xa[j] →
    (readsXB i → opP i.prec s.xb[j] = opP i.prec s'.xb[j]) →
    (readsXN i → s.xn[j] = s'.xn[j]) →
    (readsXS i → s.xs[j] = s'.xs[j]) →
    outLane t j = outLane t' j

/-- R28: bits 63:32 of every YF lane written by a binary32 command are zero. -/
def Obligations.UpperHalfZero : Prop :=
  ∀ (i : Instr) (s t : State), i.prec = .b32 → exec i s = .next t → ∀ j : Fin 16, (t.yf[j]).toNat < 2 ^ 32

/-! ### The float decomposer -/

/-- R131: FD.DECOMP delivers the sign bit, the biased exponent field and the fraction field as they stand. -/
def Obligations.FdDecompFields : Prop :=
  ∀ (n : LaneCount) (l : LaneIn),
    Gives (.fdDecomp .b32 n) l
      { ys := l.a.getLsbD 31, yn := BitVec.ofNat 64 (l.a.toNat / 2 ^ 23 % 2 ^ 8),
        ym := BitVec.ofNat 64 (l.a.toNat % 2 ^ 23) } ∧
    Gives (.fdDecomp .b64 n) l
      { ys := l.a.getLsbD 63, yn := BitVec.ofNat 64 (l.a.toNat / 2 ^ 52 % 2 ^ 11),
        ym := BitVec.ofNat 64 (l.a.toNat % 2 ^ 52) }

/-- R133 and R134: FD.COMPOSE assembles the pattern from the low bits of XN and XA; bits above a field are cut. -/
def Obligations.FdComposeFields : Prop :=
  ∀ (n : LaneCount) (l : LaneIn),
    Gives (.fdCompose .b32 n) l
      { yf := BitVec.ofNat 64 ((if l.s then 2 ^ 31 else 0) + l.n.toNat % 2 ^ 8 * 2 ^ 23 + l.a.toNat % 2 ^ 23) } ∧
    Gives (.fdCompose .b64 n) l
      { yf := BitVec.ofNat 64 ((if l.s then 2 ^ 63 else 0) + l.n.toNat % 2 ^ 11 * 2 ^ 52 + l.a.toNat % 2 ^ 52) }

/-- R139: composing the fields FD.DECOMP delivered returns the pattern bit for bit. -/
def Obligations.DecomposeComposeRoundTrip : Prop :=
  ∀ (P : Prec) (n m : LaneCount) (l : LaneIn),
    ∃ d, Gives (.fdDecomp P n) l d ∧
      ∀ b : Word, GivesFloat (.fdCompose P m) ⟨d.ym, b, d.yn, d.ys⟩ (opP P l.a)

/-- R135 and R136: what FD.NORM delivers, class by class. -/
def Obligations.FdNormFields : Prop :=
  ∀ (P : Prec) (n : LaneCount) (l : LaneIn) (x : Pat P), opP P l.a = x →
    (isNaN x = true → Gives (.fdNorm P n) l { ys := sgn x, yf := zext64 (quiet x) }) ∧
    (isInf x = true → Gives (.fdNorm P n) l { ys := sgn x, yf := zext64 (infPat P false) }) ∧
    (isZero x = true → Gives (.fdNorm P n) l { ys := sgn x }) ∧
    (isNorm x = true → Gives (.fdNorm P n) l
      { ys := sgn x, yn := BitVec.ofInt 64 ((expf x : Int) - P.bias), yf := zext64 (pack P false P.bias (frac x)) }) ∧
    (isSub x = true → ∀ L : Nat, 2 ^ L ≤ frac x → frac x < 2 ^ (L + 1) → Gives (.fdNorm P n) l
      { ys := sgn x, yn := BitVec.ofInt 64 ((L : Int) + P.emin - P.fracBits),
        yf := zext64 (pack P false P.bias (frac x * 2 ^ (P.fracBits - L) % 2 ^ P.fracBits)) })

/-- R140: for every finite nonzero x, val(x) = (-1)^YS · val(YF) · 2^YN exactly, with 1 ≤ val(YF) < 2. -/
def Obligations.FdNormExact : Prop :=
  ∀ (P : Prec) (n : LaneCount) (l : LaneIn), FiniteNonzero (opP P l.a) →
    ∃ o, Gives (.fdNorm P n) l o ∧
      1 ≤ val (opP P o.yf) ∧ val (opP P o.yf) < 2 ∧
      val (opP P l.a) = (if o.ys then -1 else 1) * val (opP P o.yf) * (2 : ℚ) ^ (sint64 o.yn)

/-- R137: FD.SCALE quiets a NaN, keeps an infinity or a zero, and otherwise rounds |val(x)|·2^n once, for every 64-bit
n. -/
def Obligations.FdScaleRounds : Prop :=
  ∀ (P : Prec) (n : LaneCount) (l : LaneIn) (x : Pat P), opP P l.a = x →
    (isNaN x = true → GivesFloat (.fdScale P n) l (quiet x)) ∧
    (isInf x = true ∨ isZero x = true → GivesFloat (.fdScale P n) l x) ∧
    (FiniteNonzero x → GivesFloat (.fdScale P n) l (roundRNE P (sgn x) (|val x| * (2 : ℚ) ^ (sint64 l.n))))

/-- R138: the integer algorithm gives FD.SCALE's result for every finite nonzero x and every 64-bit n. -/
def Obligations.FdScaleIntegerAlgorithm : Prop :=
  ∀ (P : Prec) (n : LaneCount) (l : LaneIn), FiniteNonzero (opP P l.a) →
    GivesFloat (.fdScale P n) l (scaleInteger (opP P l.a) (sint64 l.n))

/-- R141: on a normal x whose shifted exponent stays in 1 .. 2^EW - 2, FD.SCALE changes only the exponent field. -/
def Obligations.FdScaleShiftsExponent : Prop :=
  ∀ (P : Prec) (n : LaneCount) (l : LaneIn) (x : Pat P), opP P l.a = x → isNorm x = true →
    1 ≤ (expf x : Int) + sint64 l.n → (expf x : Int) + sint64 l.n ≤ 2 ^ P.expBits - 2 →
      GivesFloat (.fdScale P n) l (pack P (sgn x) ((expf x : Int) + sint64 l.n).toNat (frac x))

/-- R142: n = 0 returns x, or quiet(x) for a NaN; scaling by n and then by -n returns x when neither step overflowed or
rounded. -/
def Obligations.FdScaleZeroAndBack : Prop :=
  (∀ (P : Prec) (n : LaneCount) (l : LaneIn), l.n = 0 →
    GivesFloat (.fdScale P n) l (if isNaN (opP P l.a) then quiet (opP P l.a) else opP P l.a)) ∧
  (∀ (P : Prec) (n m : LaneCount) (l : LaneIn) (x : Pat P), opP P l.a = x → isNaN x = false →
    ∃ o, Gives (.fdScale P n) l o ∧
      ((isFinite x = true → isFinite (opP P o.yf) = true ∧ val (opP P o.yf) = val x * (2 : ℚ) ^ (sint64 l.n)) →
        ∀ l' : LaneIn, l'.a = o.yf → sint64 l'.n = -sint64 l.n → GivesFloat (.fdScale P m) l' x))

/-! ### Rounding and the IEEE operations -/

/-- R19: RoundRNE is round to nearest, ties to even, with gradual underflow. Below the overflow bound the result is finite
with the sign asked for, no finite pattern is nearer, and where another value is as near the result's fraction is even;
from the bound on it is the infinity. -/
def Obligations.RoundNearestEven : Prop :=
  ∀ (P : Prec) (s : Bool) (v : ℚ), 0 ≤ v →
    (v < overflowBound P →
      isFinite (roundRNE P s v) = true ∧ sgn (roundRNE P s v) = s ∧
      ∀ y : Pat P, isFinite y = true →
        |magnitude (roundRNE P s v) - v| ≤ |magnitude y - v| ∧
        (|magnitude (roundRNE P s v) - v| = |magnitude y - v| → magnitude y ≠ magnitude (roundRNE P s v) →
          frac (roundRNE P s v) % 2 = 0)) ∧
    (overflowBound P ≤ v → roundRNE P s v = infPat P s)

/-- R17 and clause 1 of R20: a NaN operand gives quiet() of the first NaN operand, and a NaN made from operands that are
not NaNs is the canonical one: by every operation, by PE.EVAL, by FD.SCALE, and by all 13 functions wherever the free
values of the configuration they deliver (asinVal, acosVal, log2Val, and SIN and COS beyond TRIG_RR_MAX, which no rule
constrains) are no NaN or cNaN. That fsub quiets a NaN second operand as it stands is the model's reading of R20
(assumption log 28). -/
def Obligations.NaNOfOperations : Prop :=
  ((cNaN .b32).toNat = 0x7FC00000 ∧ (cNaN .b64).toNat = 0x7FF8000000000000) ∧
  (∀ (P : Prec) (a b c : Pat P),
    (isNaN a = true → fadd a b = quiet a ∧ fsub a b = quiet a ∧ fmul a b = quiet a ∧ fdiv a b = quiet a ∧
      ffma a b c = quiet a) ∧
    (isNaN a = false → isNaN b = true → fadd a b = quiet b ∧ fsub a b = quiet b ∧ fmul a b = quiet b ∧
      fdiv a b = quiet b ∧ ffma a b c = quiet b) ∧
    (isNaN a = false → isNaN b = false → isNaN c = true → ffma a b c = quiet c) ∧
    (isNaN a = false → isNaN b = false →
      fsub a b = fadd a (neg b) ∧
      CanonicalNaN (fadd a b) ∧ CanonicalNaN (fsub a b) ∧ CanonicalNaN (fmul a b) ∧ CanonicalNaN (fdiv a b) ∧
      (isNaN c = false → CanonicalNaN (ffma a b c)))) ∧
  (∀ (c : Cfg) (P : Prec) (t : TableId) (x : Pat P) (k : ℤ), isNaN x = false →
    CanonicalNaN (polyEval c t x) ∧ CanonicalNaN (scalePat x k)) ∧
  (∀ (c : Cfg) (f : FnId) (P : Prec) (a b : Pat P), isNaN a = false → (f = .atan2 → isNaN b = false) →
    CanonicalNaN (c.asinVal P a) → CanonicalNaN (c.acosVal P a) → CanonicalNaN (c.log2Val P a) →
    CanonicalNaN (c.sinBig P a) → CanonicalNaN (c.cosBig P a) → CanonicalNaN (fnResult c f a b))

/-- R414: a correctly rounded reference has a metric of at most 1/2. For every rational number below the overflow bound
against its rounding, a zero and a tie included; for every real number that rounds to a finite pattern; and 0 for an
infinite reference against its infinity. -/
def Obligations.CorrectRoundingMetric : Prop :=
  ∀ P : Prec,
    (∀ v : ℚ, |v| < overflowBound P → ∃ m : ℝ, UlpMetric (roundVal P v) (.real v) (.value m) ∧ 0 ≤ m ∧ m ≤ 1 / 2) ∧
    (∀ (v : ℝ) (r : Pat P), RoundsTo P v r → isFinite r = true →
      ∃ m : ℝ, UlpMetric r (.real v) (.value m) ∧ 0 ≤ m ∧ m ≤ 1 / 2) ∧
    UlpMetric (infPat P false) .posInf (.value 0) ∧ UlpMetric (infPat P true) .negInf (.value 0)

/-! ### The range reducer -/

/-- R161 and R162: RR.TRIG's special operands; and in range the selector is k mod 4 for the integer k nearest to the
exact real val(x)·2/π, which no tie disturbs, with x itself as the reduced value when k = 0 (R163 law (b)); beyond
TRIG_RR_MAX the two configuration values (R164). -/
def Obligations.RrTrigQuadrant : Prop :=
  ∀ (P : Prec) (n : LaneCount) (l : LaneIn) (x : Pat P), opP P l.a = x →
    (isNaN x = true → GivesFloat (.rrTrig P n) l (quiet x)) ∧
    (isInf x = true → GivesFloat (.rrTrig P n) l (cNaN P)) ∧
    (isZero x = true → GivesFloat (.rrTrig P n) l x) ∧
    (FiniteNonzero x →
      if |val x| ≤ trigRrMax Config.cfg P then
        ∃ k : ℤ, |(val x : ℝ) * (2 / Real.pi) - k| < 1 / 2 ∧
          Gives (.rrTrig P n) l
            { yf := zext64 (if k = 0 then x else Config.reduceTrigVal P x), yn := BitVec.ofInt 64 (k % 4) }
      else
        Gives (.rrTrig P n) l
          { yf := zext64 (Config.reduceTrigVal P x), yn := BitVec.ofNat 64 (Config.trigQuadBig P x).val })

/-- R166: what RR.EXP2 delivers; n is the floor of val(x) + 1/2, saturated to 64 bits. -/
def Obligations.RrExp2Split : Prop :=
  ∀ (P : Prec) (c : LaneCount) (l : LaneIn) (x : Pat P), opP P l.a = x →
    (isNaN x = true → GivesFloat (.rrExp2 P c) l (quiet x)) ∧
    (isInf x = true → sgn x = false → Gives (.rrExp2 P c) l { yn := 0x7FFFFFFFFFFFFFFF }) ∧
    (isInf x = true → sgn x = true → Gives (.rrExp2 P c) l { yn := 0x8000000000000000 }) ∧
    (isFinite x = true → ∀ n : ℤ, (n : ℚ) ≤ val x + 1 / 2 → val x + 1 / 2 < n + 1 →
      Gives (.rrExp2 P c) l
        { yn := BitVec.ofInt 64 (min (max n (-2 ^ 63)) (2 ^ 63 - 1)),
          yf := if n = 0 then zext64 x else if val x = n then 0 else zext64 (roundVal P (val x - n)) })

/-- R167: the fraction RR.EXP2 delivers is exact: val(x) = n + val(YF) whenever n was not saturated, with YF in
[-1/2, 1/2). -/
def Obligations.RrExp2FractionExact : Prop :=
  ∀ (P : Prec) (c : LaneCount) (l : LaneIn), isFinite (opP P l.a) = true →
    ∃ o, Gives (.rrExp2 P c) l o ∧ isFinite (opP P o.yf) = true ∧
      -1 / 2 ≤ val (opP P o.yf) ∧ val (opP P o.yf) < 1 / 2 ∧
      (-2 ^ 63 ≤ val (opP P l.a) + 1 / 2 → val (opP P l.a) + 1 / 2 < 2 ^ 63 →
        val (opP P l.a) = sint64 o.yn + val (opP P o.yf))

/-- R169: RR.ATAN's sign, class and argument. -/
def Obligations.RrAtanClass : Prop :=
  ((onePat .b32).toNat = 0x3F800000 ∧ (onePat .b64).toNat = 0x3FF0000000000000) ∧
  ∀ (P : Prec) (n : LaneCount) (l : LaneIn) (x : Pat P), opP P l.a = x →
    (isNaN x = true → Gives (.rrAtan P n) l { ys := sgn x, yf := zext64 (quiet x) }) ∧
    (isFinite x = true → |val x| ≤ 1 → Gives (.rrAtan P n) l { ys := sgn x, yf := zext64 x }) ∧
    (isInf x = true ∨ (isFinite x = true ∧ 1 < |val x|) →
      Gives (.rrAtan P n) l { ys := sgn x, yn := 1, yf := zext64 (fdiv (onePat P) x) })

/-- R170: in class 1 of a finite x the reciprocal lies strictly inside (-1, 1), is not zero and has the sign of x; it is
zero only for the infinities. -/
def Obligations.RrAtanReciprocalInside : Prop :=
  ∀ (P : Prec) (n : LaneCount) (l : LaneIn) (x : Pat P), opP P l.a = x →
    (isFinite x = true → 1 < |val x| →
      ∃ o, Gives (.rrAtan P n) l o ∧ o.yn = 1 ∧ isFinite (opP P o.yf) = true ∧ |val (opP P o.yf)| < 1 ∧
        val (opP P o.yf) ≠ 0 ∧ sgn (opP P o.yf) = o.ys) ∧
    (isInf x = true →
      ∃ o, Gives (.rrAtan P n) l o ∧ o.yn = 1 ∧ isZero (opP P o.yf) = true ∧ sgn (opP P o.yf) = o.ys)

/-! ### The polynomial evaluator -/

/-- R193 to R196: PE.EVAL of a table, by its form, with the Horner loop of R193 fused or not as PE_FMA says; and the ROM
of R192: finite coefficients, SIN of form ODD, COS of form EVEN. -/
def Obligations.PeEvalHorner : Prop :=
  (∀ (c : Cfg) (P : Prec), (romTable c .sin P).form = .odd ∧ (romTable c .cos P).form = .even ∧
    ∀ (t : TableId) (a : Pat P), (a = (romTable c t P).c0 ∨ a ∈ (romTable c t P).cs ∨ a = (romTable c t P).q0 ∨
      a ∈ (romTable c t P).qs) → isFinite a = true) ∧
  ∀ (P : Prec) (n : LaneCount) (t : TableId) (l : LaneIn) (x : Pat P) (T : Table P),
    opP P l.a = x → T = romTable Config.cfg t P →
    GivesFloat (.peEval P n t) l
      (match T.form with
        | .plain => hornerLoop Config.peFma x (T.c0 :: T.cs)
        | .even => hornerLoop Config.peFma (fmul x x) (T.c0 :: T.cs)
        | .odd => fmul x (hornerLoop Config.peFma (fmul x x) (T.c0 :: T.cs))
        | .rational => fdiv (hornerLoop Config.peFma x (T.c0 :: T.cs)) (hornerLoop Config.peFma x (T.q0 :: T.qs)))

/-- R197 where no NaN results: an EVEN table gives the same value at x and neg(x), an ODD table the negated value. R197
says it of every non-NaN x; the negated result of an ODD table at a value that is a NaN is not the NaN the evaluation at
neg(x) gives, so the ODD clause asks that the value is no NaN (NOTES.md, the rules that fail in a corner). -/
def Obligations.TableParity : Prop :=
  ∀ (P : Prec) (fma : Bool) (T : Table P) (x : Pat P), isNaN x = false →
    (T.form = .even → evalTable fma T (neg x) = evalTable fma T x) ∧
    (T.form = .odd → isNaN (evalTable fma T x) = false → evalTable fma T (neg x) = neg (evalTable fma T x))

/-- R198: the value of a table at a zero argument. -/
def Obligations.TableAtZero : Prop :=
  ∀ (P : Prec) (fma : Bool) (T : Table P) (z : Pat P), isZero z = true →
    isFinite T.c0 = true → (∀ a ∈ T.cs, isFinite a = true) →
    (T.form = .even → isZero T.c0 = false → evalTable fma T z = T.c0) ∧
    (T.form = .odd → 0 < val T.c0 → evalTable fma T z = z) ∧
    (T.form = .plain → isZero T.c0 = false → evalTable fma T z = T.c0)

/-- R199: a NaN argument gives its quieted NaN wherever the value of the table depends on the argument, and the constant
where it does not. -/
def Obligations.TableAtNaN : Prop :=
  ∀ (P : Prec) (fma : Bool) (T : Table P) (x : Pat P), isNaN x = true →
    isFinite T.c0 = true → (∀ a ∈ T.cs, isFinite a = true) → isFinite T.q0 = true → (∀ a ∈ T.qs, isFinite a = true) →
    (T.form = .odd → evalTable fma T x = quiet x) ∧
    (T.form = .plain ∨ T.form = .even → T.cs ≠ [] → evalTable fma T x = quiet x) ∧
    (T.form = .plain ∨ T.form = .even → T.cs = [] → evalTable fma T x = T.c0) ∧
    (T.form = .rational → T.cs ≠ [] ∨ T.qs ≠ [] → evalTable fma T x = quiet x) ∧
    (T.form = .rational → T.cs = [] → T.qs = [] → evalTable fma T x = fdiv T.c0 T.q0)

/-! ### Special values -/

/-- R222 with the tables R225, R228, R229, R232 and R234: what SV.RESOLVE delivers for each function of one operand. -/
def Obligations.SvOneOperandTables : Prop :=
  ∀ (P : Prec) (x b : Pat P),
    (isNaN x = true → ∀ f : FnId, f ≠ .atan2 → Hits f x b (quiet x)) ∧
    (isInf x = true →
      Hits .sin x b (cNaN P) ∧ Hits .cos x b (cNaN P) ∧ Hits .tan x b (cNaN P) ∧
      Hits .asin x b (cNaN P) ∧ Hits .acos x b (cNaN P) ∧
      Hits .atan x b (if sgn x then neg (kPiHalf P) else kPiHalf P) ∧
      Hits .exp x b (if sgn x then zeroPat P false else infPat P false) ∧
      Hits .exp2 x b (if sgn x then zeroPat P false else infPat P false) ∧
      Hits .exp10 x b (if sgn x then zeroPat P false else infPat P false)) ∧
    (isZero x = true →
      Hits .sin x b x ∧ Hits .cos x b (onePat P) ∧ Hits .tan x b x ∧ Hits .asin x b x ∧ Misses .acos x b ∧
      Hits .atan x b x ∧ Hits .exp x b (onePat P) ∧ Hits .exp2 x b (onePat P) ∧ Hits .exp10 x b (onePat P) ∧
      Hits .log x b (infPat P true) ∧ Hits .log2 x b (infPat P true) ∧ Hits .log10 x b (infPat P true)) ∧
    (FiniteNonzero x →
      Misses .sin x b ∧ Misses .cos x b ∧ Misses .tan x b ∧ Misses .atan x b ∧ Misses .exp x b ∧ Misses .exp2 x b ∧
      Misses .exp10 x b ∧
      (1 < |val x| → Hits .asin x b (cNaN P) ∧ Hits .acos x b (cNaN P)) ∧
      (|val x| ≤ 1 → Misses .asin x b ∧ Misses .acos x b)) ∧
    (Negative x → Hits .log x b (cNaN P) ∧ Hits .log2 x b (cNaN P) ∧ Hits .log10 x b (cNaN P)) ∧
    (isInf x = true → sgn x = false →
      Hits .log x b (infPat P false) ∧ Hits .log2 x b (infPat P false) ∧ Hits .log10 x b (infPat P false)) ∧
    (isFinite x = true → val x = 1 →
      Hits .log x b (zeroPat P false) ∧ Hits .log2 x b (zeroPat P false) ∧ Hits .log10 x b (zeroPat P false)) ∧
    (isFinite x = true → 0 < val x → val x ≠ 1 → Misses .log x b ∧ Misses .log2 x b ∧ Misses .log10 x b)

/-- R230 with R224: what SV.RESOLVE delivers for ATAN2, NaN operands first and then the entries a to j. -/
def Obligations.SvAtan2Table : Prop :=
  ∀ (P : Prec) (y x : Pat P),
    (isNaN y = true → Hits .atan2 y x (quiet y)) ∧
    (isNaN y = false → isNaN x = true → Hits .atan2 y x (quiet x)) ∧
    (isInf y = true → isInf x = true → Hits .atan2 y x (cNaN P)) ∧
    (isZero x = true → Positive y → Hits .atan2 y x (kPiHalf P)) ∧
    (isZero x = true → Negative y → Hits .atan2 y x (neg (kPiHalf P))) ∧
    (isZero x = true → isZero y = true → Hits .atan2 y x (zeroPat P (Config.atan2ZZSign (sgn y) (sgn x)))) ∧
    (isZero y = true → Positive x → Hits .atan2 y x y) ∧
    (isZero y = true → Negative x → Hits .atan2 y x (kPi P)) ∧
    (isInf y = true → FiniteNonzero x → Hits .atan2 y x (if sgn y then neg (kPiHalf P) else kPiHalf P)) ∧
    (FiniteNonzero y → isInf x = true → sgn x = false → Hits .atan2 y x (zeroPat P (sgn y))) ∧
    (FiniteNonzero y → isInf x = true → sgn x = true → Hits .atan2 y x (if sgn y then neg (kPi P) else kPi P)) ∧
    (FiniteNonzero y → FiniteNonzero x → Misses .atan2 y x)

/-- R236: every function command returns the first NaN operand quieted, a quiet NaN that keeps the sign and the rest of
the payload. -/
def Obligations.NaNOperandQuieted : Prop :=
  ∀ (f : FnId) (P : Prec) (n : LaneCount) (l : LaneIn) (x : Pat P),
    (opP P l.a = x → isNaN x = true → GivesFloat (fnCommand f P n) l (quiet x)) ∧
    (f = .atan2 → isNaN (opP P l.a) = false → opP P l.b = x → isNaN x = true →
      GivesFloat (fnCommand f P n) l (quiet x)) ∧
    (isNaN x = true → isQNaN (quiet x) = true ∧ sgn (quiet x) = sgn x ∧
      ∀ k, k < P.fracBits - 1 → (quiet x).getLsbD k = x.getLsbD k)

/-- R220: where SV.RESOLVE of a function hits, the function command delivers the value it hit with. -/
def Obligations.HitIsTheResult : Prop :=
  ∀ (f : FnId) (P : Prec) (n m : LaneCount) (l : LaneIn),
    ∃ o, Gives (.svResolve P m f) l o ∧ (o.yn = 1 → Gives (fnCommand f P n) l { yf := o.yf })

/-! ### The trigonometric family -/

/-- R280 to R283: SIN and COS select, by the selector RR.TRIG delivers for the same operand, among the SIN and COS tables
at the reduced value RR.TRIG delivers and their negations, for every finite nonzero operand in the range of exact
reduction; the special operands as R225 says. A NaN among the selected values is delivered as cNaN (R17), whatever sign
the selection gives it: the model's reading, assumption log 28; at a reduced value as law (a) of R163 bounds it, the tables
give no NaN. Beyond TRIG_RR_MAX the results are unconstrained (R287) and `Obligations.TanIsQuotient` says all there
is to say of them. -/
def Obligations.SinCosSelect : Prop :=
  ∀ (P : Prec) (n m : LaneCount) (l : LaneIn) (x : Pat P), opP P l.a = x →
    (isNaN x = true → GivesFloat (.sin P n) l (quiet x) ∧ GivesFloat (.cos P n) l (quiet x)) ∧
    (isInf x = true → GivesFloat (.sin P n) l (cNaN P) ∧ GivesFloat (.cos P n) l (cNaN P)) ∧
    (isZero x = true → GivesFloat (.sin P n) l x ∧ GivesFloat (.cos P n) l (onePat P)) ∧
    (FiniteNonzero x → |val x| ≤ trigRrMax Config.cfg P → ∃ o, Gives (.rrTrig P m) l o ∧ o.yn.toNat < 4 ∧
      ∀ S C : Pat P, S = polyEval Config.cfg .sin (opP P o.yf) → C = polyEval Config.cfg .cos (opP P o.yf) →
        GivesFloat (.sin P n) l
          (canonNaN (if o.yn = 0 then S else if o.yn = 1 then C else if o.yn = 2 then neg S else neg C)) ∧
        GivesFloat (.cos P n) l
          (canonNaN (if o.yn = 0 then C else if o.yn = 1 then neg S else if o.yn = 2 then neg C else S)))

/-- R286: TAN(x) = fdiv(SIN(x), COS(x)) bit for bit for every pattern x, special operands and operands beyond TRIG_RR_MAX
included: there SIN and COS deliver some pattern each, and only this quotient is known (R287). -/
def Obligations.TanIsQuotient : Prop :=
  ∀ (P : Prec) (n m : LaneCount) (l : LaneIn),
    ∃ s c : Pat P, GivesFloat (.sin P m) l s ∧ GivesFloat (.cos P m) l c ∧ GivesFloat (.tan P n) l (fdiv s c)

/-- R284: for 0 < |val(x)| < π/4 the reduction is x itself with selector 0, and SIN and COS are the tables at x. -/
def Obligations.SmallAngleDirect : Prop :=
  ∀ (P : Prec) (n : LaneCount) (l : LaneIn) (x : Pat P), opP P l.a = x → isFinite x = true →
    0 < |val x| → (|val x| : ℝ) < Real.pi / 4 →
      GivesFloat (.rrTrig P n) l x ∧ GivesFloat (.sin P n) l (polyEval Config.cfg .sin x) ∧
      GivesFloat (.cos P n) l (polyEval Config.cfg .cos x)

/-! ### The inverse trigonometric family -/

/-- R311 and R314: the branches of ASIN and ACOS: a NaN, an operand outside [-1, 1], the table below ASIN_SPLIT and the
configuration value from there to 1; and ACOS by ACOS_MODE, with K_PI_2 exactly at the zeros under IDENTITY. -/
def Obligations.AsinAcosBranches : Prop :=
  ∀ (P : Prec) (n m : LaneCount) (l : LaneIn) (x : Pat P), opP P l.a = x →
    (isNaN x = true → GivesFloat (.asin P n) l (quiet x) ∧ GivesFloat (.acos P n) l (quiet x)) ∧
    (isInf x = true ∨ (isFinite x = true ∧ 1 < |val x|) →
      GivesFloat (.asin P n) l (cNaN P) ∧ GivesFloat (.acos P n) l (cNaN P)) ∧
    (isZero x = true → GivesFloat (.asin P n) l x) ∧
    (FiniteNonzero x → |val x| ≤ 1 → GivesFloat (.asin P n) l
      (if |val x| < asinSplit Config.cfg P then polyEval Config.cfg .asin x else Config.asinVal P x)) ∧
    (isFinite x = true → |val x| ≤ 1 → ∃ a : Pat P, GivesFloat (.asin P m) l a ∧
      GivesFloat (.acos P n) l
        (match Config.acosMode with
          | .identity => fsub (kPiHalf P) a
          | .table => Config.acosVal P x)) ∧
    (isZero x = true → GivesFloat (.acos P n) l
      (match Config.acosMode with
        | .identity => kPiHalf P
        | .table => Config.acosVal P x))

/-- R318: ATAN by the class RR.ATAN delivers for the same operand: the table at x, or sign(x)·K_PI_2 minus the table at
RR.ATAN's argument. Where that difference is an exact zero and the table is ODD, the zero of the sign of x stands in its
place, as R319 asks: the model's reading, assumption log 29. -/
def Obligations.AtanBranches : Prop :=
  ∀ (P : Prec) (n m : LaneCount) (l : LaneIn) (x : Pat P), opP P l.a = x →
    (isNaN x = true → GivesFloat (.atan P n) l (quiet x)) ∧
    (isInf x = true → GivesFloat (.atan P n) l (if sgn x then neg (kPiHalf P) else kPiHalf P)) ∧
    (isZero x = true → GivesFloat (.atan P n) l x) ∧
    (FiniteNonzero x → ∃ o, Gives (.rrAtan P m) l o ∧
      ∀ d : Pat P, d = fsub (if sgn x then neg (kPiHalf P) else kPiHalf P) (polyEval Config.cfg .atan (opP P o.yf)) →
        GivesFloat (.atan P n) l
          (if o.yn = 0 then polyEval Config.cfg .atan x
            else if isZero d = true ∧ (romTable Config.cfg .atan P).form = .odd then zeroPat P (sgn x)
            else d))

/-- R319: with an ATAN table of the ODD form, ATAN(neg(x)) = neg(ATAN(x)) for every non-NaN x, bit for bit. -/
def Obligations.AtanOddWhenTableOdd : Prop :=
  ∀ (c : Cfg) (P : Prec) (x : Pat P), (romTable c .atan P).form = .odd → isNaN x = false →
    fnAtan c (neg x) = neg (fnAtan c x)

/-- R321 and R324: ATAN2 of finite nonzero operands by the quadrant, through ATAN of the rounded quotient; and
ATAN2(y, x) = ATAN(fdiv(y, x)) for every y and every x > 0, the infinities included. -/
def Obligations.Atan2Quadrants : Prop :=
  ∀ (P : Prec) (n m : LaneCount) (l l' : LaneIn) (y x : Pat P), opP P l.a = y → opP P l.b = x →
    opP P l'.a = fdiv y x →
    (FiniteNonzero y → FiniteNonzero x → ∃ t : Pat P, GivesFloat (.atan P m) l' t ∧
      GivesFloat (.atan2 P n) l (if 0 < val x then t else if 0 < val y then fadd t (kPi P) else fsub t (kPi P))) ∧
    (Positive x → ∃ t : Pat P, GivesFloat (.atan P m) l' t ∧ GivesFloat (.atan2 P n) l t)

/-- R317: K_PI and K_PI_2 are the patterns of the table, the roundings of the real π and π/2; they share the fraction
field, the exponent field of K_PI is one more, and fsub(K_PI, K_PI_2) = K_PI_2. -/
def Obligations.PiConstants : Prop :=
  ((kPi .b32).toNat = 0x40490FDB ∧ (kPiHalf .b32).toNat = 0x3FC90FDB ∧ (kPi .b64).toNat = 0x400921FB54442D18 ∧
    (kPiHalf .b64).toNat = 0x3FF921FB54442D18) ∧
  ∀ P : Prec, RoundsTo P Real.pi (kPi P) ∧ RoundsTo P (Real.pi / 2) (kPiHalf P) ∧
    frac (kPi P) = frac (kPiHalf P) ∧ expf (kPi P) = expf (kPiHalf P) + 1 ∧ val (kPi P) = 2 * val (kPiHalf P) ∧
    fsub (kPi P) (kPiHalf P) = kPiHalf P

/-! ### The exponential family -/

/-- R348 and R341: EXP2 of a finite nonzero x is RR.EXP2, PE.EVAL of the EXP2 table and FD.SCALE run one after the other,
bit for bit; the special operands as R232 says. -/
def Obligations.Exp2ThreeCommands : Prop :=
  ∀ (P : Prec) (n m : LaneCount) (l : LaneIn) (x : Pat P), opP P l.a = x →
    (isNaN x = true → GivesFloat (.exp2 P n) l (quiet x)) ∧
    (isZero x = true → GivesFloat (.exp2 P n) l (onePat P)) ∧
    (isInf x = true → GivesFloat (.exp2 P n) l (if sgn x then zeroPat P false else infPat P false)) ∧
    (FiniteNonzero x → ∃ o₁ o₂ o₃ : LaneOut, Gives (.rrExp2 P m) l o₁ ∧
      (∀ b k s, Gives (.peEval P m .exp2) ⟨o₁.yf, b, k, s⟩ o₂) ∧
      (∀ b s, Gives (.fdScale P m) ⟨o₂.yf, b, o₁.yn, s⟩ o₃) ∧
      Gives (.exp2 P n) l { yf := o₃.yf })

/-- R349: EXP(x) = EXP2(fmul(x, K_LOG2E)) and EXP10(x) = EXP2(fmul(x, K_LOG2_10)) for every pattern x, special operands
included. -/
def Obligations.ExpIsScaledExp2 : Prop :=
  ∀ (P : Prec) (n m : LaneCount) (l l₁ l₂ : LaneIn),
    opP P l₁.a = fmul (opP P l.a) (romLog2e Config.cfg P) → opP P l₂.a = fmul (opP P l.a) (romLog2Ten Config.cfg P) →
    (∃ r : Pat P, GivesFloat (.exp2 P m) l₁ r ∧ GivesFloat (.exp P n) l r) ∧
    (∃ r : Pat P, GivesFloat (.exp2 P m) l₂ r ∧ GivesFloat (.exp10 P n) l r)

/-- R346: EXP2 of a nonzero integer of magnitude below 2^63 scales the table's value at +0; where that is 1.0, the result
is 2^x rounded once. -/
def Obligations.Exp2OfInteger : Prop :=
  ∀ (c : Cfg) (P : Prec) (x : Pat P) (k : ℤ), isFinite x = true → val x = k → k ≠ 0 → |k| < 2 ^ 63 →
    exp2Int x = k ∧ exp2Frac x = zeroPat P false ∧
    fnExp2 c x = scalePat (polyEval c .exp2 (zeroPat P false)) k ∧
    (polyEval c .exp2 (zeroPat P false) = onePat P →
      fnExp2 c x = roundRNE P false ((2 : ℚ) ^ k) ∧
      (P.emin - P.fracBits ≤ k → k ≤ P.emax → isFinite (fnExp2 c x) = true ∧ val (fnExp2 c x) = (2 : ℚ) ^ k) ∧
      (P.emax < k → fnExp2 c x = infPat P false))

/-- R350: where the EXP2 table is non-negative on [-1/2, 1/2), EXP2, EXP and EXP10 of an operand that is no NaN are never
negative. Non-negative in the strict sense, by the sign bit, gives results of sign bit 0; non-negative by value, which a
table value of -0 is, gives results that are not below 0. -/
def Obligations.ExpNeverNegative : Prop :=
  ∀ (c : Cfg) (P : Prec),
    ((∀ f : Pat P, isFinite f = true → -1 / 2 ≤ val f → val f < 1 / 2 → sgn (polyEval c .exp2 f) = false) →
      ∀ x : Pat P, isNaN x = false →
        sgn (fnExp2 c x) = false ∧ sgn (fnExp c x) = false ∧ sgn (fnExp10 c x) = false) ∧
    ((∀ f : Pat P, isFinite f = true → -1 / 2 ≤ val f → val f < 1 / 2 → ¬Negative (polyEval c .exp2 f)) →
      ∀ x : Pat P, isNaN x = false →
        ¬Negative (fnExp2 c x) ∧ ¬Negative (fnExp c x) ∧ ¬Negative (fnExp10 c x))

/-! ### The logarithmic family -/

/-- R371, R377 and R378: LOG2's special operands and, for finite x > 0 other than 1, the configuration value;
LOG(x) = fmul(LOG2(x), K_LN2) and LOG10(x) = fmul(LOG2(x), K_LOG10_2) for every pattern x, with the sign of LOG2(x) where
that is no NaN. -/
def Obligations.LogIsScaledLog2 : Prop :=
  ∀ (P : Prec) (n m : LaneCount) (l : LaneIn) (x : Pat P), opP P l.a = x →
    (isNaN x = true → GivesFloat (.log2 P n) l (quiet x)) ∧
    (Negative x → GivesFloat (.log2 P n) l (cNaN P)) ∧
    (isZero x = true → GivesFloat (.log2 P n) l (infPat P true)) ∧
    (isInf x = true → sgn x = false → GivesFloat (.log2 P n) l (infPat P false)) ∧
    (x = onePat P → GivesFloat (.log2 P n) l (zeroPat P false)) ∧
    (isFinite x = true → 0 < val x → x ≠ onePat P → GivesFloat (.log2 P n) l (Config.log2Val P x)) ∧
    ∃ r : Pat P, GivesFloat (.log2 P m) l r ∧
      GivesFloat (.log P n) l (fmul r (romLn2 Config.cfg P)) ∧
      GivesFloat (.log10 P n) l (fmul r (romLog10Two Config.cfg P)) ∧
      (isNaN r = false → sgn (fmul r (romLn2 Config.cfg P)) = sgn r ∧ sgn (fmul r (romLog10Two Config.cfg P)) = sgn r)

/-! ### The accuracy requirements -/

/-- R409: the number of points of each grid, and the point +0 on every grid. -/
def Obligations.GridPoints : Prop :=
  (∀ i : Nat,
    (UpToEnd .g1 (gridStart .g1 + i * gridStep .g1) ↔ i < 126) ∧
    (UpToEnd .g2 (gridStart .g2 + i * gridStep .g2) ↔ i < 401) ∧
    (UpToEnd .g3 (gridStart .g3 + i * gridStep .g3) ↔ i < 629) ∧
    (UpToEnd .g4 (gridStart .g4 + i * gridStep .g4) ↔ i < 41) ∧
    (UpToEnd .g5 (gridStart .g5 + i * gridStep .g5) ↔ i < 21) ∧
    (UpToEnd .g6 (gridStart .g6 + i * gridStep .g6) ↔ i < 401) ∧
    (UpToEnd .g7 (gridStart .g7 + i * gridStep .g7) ↔ i < 201)) ∧
  ∀ (P : Prec) (g : GridId), ∃ i : Nat, UpToEnd g (gridStart g + i * gridStep g) ∧ gridPoint P g i = zeroPat P false
end

