-- ==== Sys2Proof/Laws/State.lean ====
section
/-! SUPPORT. What each update of the state does to each field: one lemma per field per update, so that no proof unfolds
a record update. -/

namespace Sys2Proof.Machine

open Sys2Proof

/-! ### latchCommand -/

@[simp] theorem latchCommand_cmd (v : Word) (b : Bool) (s : State) : (latchCommand v b s).cmd = v := rfl
@[simp] theorem latchCommand_ill (v : Word) (b : Bool) (s : State) : (latchCommand v b s).ill = b := rfl
@[simp] theorem latchCommand_xa (v : Word) (b : Bool) (s : State) : (latchCommand v b s).xa = s.xa := rfl
@[simp] theorem latchCommand_xb (v : Word) (b : Bool) (s : State) : (latchCommand v b s).xb = s.xb := rfl
@[simp] theorem latchCommand_xn (v : Word) (b : Bool) (s : State) : (latchCommand v b s).xn = s.xn := rfl
@[simp] theorem latchCommand_xs (v : Word) (b : Bool) (s : State) : (latchCommand v b s).xs = s.xs := rfl
@[simp] theorem latchCommand_yf (v : Word) (b : Bool) (s : State) : (latchCommand v b s).yf = s.yf := rfl
@[simp] theorem latchCommand_yn (v : Word) (b : Bool) (s : State) : (latchCommand v b s).yn = s.yn := rfl
@[simp] theorem latchCommand_ys (v : Word) (b : Bool) (s : State) : (latchCommand v b s).ys = s.ys := rfl
@[simp] theorem latchCommand_ym (v : Word) (b : Bool) (s : State) : (latchCommand v b s).ym = s.ym := rfl
@[simp] theorem latchCommand_hostQueue (v : Word) (b : Bool) (s : State) : (latchCommand v b s).hostQueue = s.hostQueue := rfl
@[simp] theorem latchCommand_hostIndex (v : Word) (b : Bool) (s : State) : (latchCommand v b s).hostIndex = s.hostIndex := rfl
@[simp] theorem latchCommand_hostReads (v : Word) (b : Bool) (s : State) : (latchCommand v b s).hostReads = s.hostReads := rfl

/-! ### dispatch -/

@[simp] theorem dispatch_cmd (n : LaneCount) (f : LaneIn → LaneOut) (s : State) : (dispatch n f s).cmd = s.cmd := rfl
@[simp] theorem dispatch_ill (n : LaneCount) (f : LaneIn → LaneOut) (s : State) : (dispatch n f s).ill = s.ill := rfl
@[simp] theorem dispatch_xa (n : LaneCount) (f : LaneIn → LaneOut) (s : State) : (dispatch n f s).xa = s.xa := rfl
@[simp] theorem dispatch_xb (n : LaneCount) (f : LaneIn → LaneOut) (s : State) : (dispatch n f s).xb = s.xb := rfl
@[simp] theorem dispatch_xn (n : LaneCount) (f : LaneIn → LaneOut) (s : State) : (dispatch n f s).xn = s.xn := rfl
@[simp] theorem dispatch_xs (n : LaneCount) (f : LaneIn → LaneOut) (s : State) : (dispatch n f s).xs = s.xs := rfl
@[simp] theorem dispatch_yf (n : LaneCount) (f : LaneIn → LaneOut) (s : State) : (dispatch n f s).yf = Vector.ofFn fun i => (laneOut n f s i).yf := rfl
@[simp] theorem dispatch_yn (n : LaneCount) (f : LaneIn → LaneOut) (s : State) : (dispatch n f s).yn = Vector.ofFn fun i => (laneOut n f s i).yn := rfl
@[simp] theorem dispatch_ys (n : LaneCount) (f : LaneIn → LaneOut) (s : State) : (dispatch n f s).ys = Vector.ofFn fun i => (laneOut n f s i).ys := rfl
@[simp] theorem dispatch_ym (n : LaneCount) (f : LaneIn → LaneOut) (s : State) : (dispatch n f s).ym = Vector.ofFn fun i => (laneOut n f s i).ym := rfl
@[simp] theorem dispatch_hostQueue (n : LaneCount) (f : LaneIn → LaneOut) (s : State) : (dispatch n f s).hostQueue = s.hostQueue := rfl
@[simp] theorem dispatch_hostIndex (n : LaneCount) (f : LaneIn → LaneOut) (s : State) : (dispatch n f s).hostIndex = s.hostIndex := rfl
@[simp] theorem dispatch_hostReads (n : LaneCount) (f : LaneIn → LaneOut) (s : State) : (dispatch n f s).hostReads = s.hostReads := rfl

/-! ### deliverRead -/

@[simp] theorem deliverRead_cmd (v : Word) (s : State) : (deliverRead v s).cmd = s.cmd := rfl
@[simp] theorem deliverRead_ill (v : Word) (s : State) : (deliverRead v s).ill = s.ill := rfl
@[simp] theorem deliverRead_xa (v : Word) (s : State) : (deliverRead v s).xa = s.xa := rfl
@[simp] theorem deliverRead_xb (v : Word) (s : State) : (deliverRead v s).xb = s.xb := rfl
@[simp] theorem deliverRead_xn (v : Word) (s : State) : (deliverRead v s).xn = s.xn := rfl
@[simp] theorem deliverRead_xs (v : Word) (s : State) : (deliverRead v s).xs = s.xs := rfl
@[simp] theorem deliverRead_yf (v : Word) (s : State) : (deliverRead v s).yf = s.yf := rfl
@[simp] theorem deliverRead_yn (v : Word) (s : State) : (deliverRead v s).yn = s.yn := rfl
@[simp] theorem deliverRead_ys (v : Word) (s : State) : (deliverRead v s).ys = s.ys := rfl
@[simp] theorem deliverRead_ym (v : Word) (s : State) : (deliverRead v s).ym = s.ym := rfl
@[simp] theorem deliverRead_hostQueue (v : Word) (s : State) : (deliverRead v s).hostQueue = s.hostQueue := rfl
@[simp] theorem deliverRead_hostIndex (v : Word) (s : State) : (deliverRead v s).hostIndex = s.hostIndex := rfl
@[simp] theorem deliverRead_hostReads (v : Word) (s : State) : (deliverRead v s).hostReads = s.hostReads ++ [v] := rfl

/-! ### nextAccess -/

@[simp] theorem nextAccess_cmd (rest : List HostEvent) (s : State) : (nextAccess rest s).cmd = s.cmd := rfl
@[simp] theorem nextAccess_ill (rest : List HostEvent) (s : State) : (nextAccess rest s).ill = s.ill := rfl
@[simp] theorem nextAccess_xa (rest : List HostEvent) (s : State) : (nextAccess rest s).xa = s.xa := rfl
@[simp] theorem nextAccess_xb (rest : List HostEvent) (s : State) : (nextAccess rest s).xb = s.xb := rfl
@[simp] theorem nextAccess_xn (rest : List HostEvent) (s : State) : (nextAccess rest s).xn = s.xn := rfl
@[simp] theorem nextAccess_xs (rest : List HostEvent) (s : State) : (nextAccess rest s).xs = s.xs := rfl
@[simp] theorem nextAccess_yf (rest : List HostEvent) (s : State) : (nextAccess rest s).yf = s.yf := rfl
@[simp] theorem nextAccess_yn (rest : List HostEvent) (s : State) : (nextAccess rest s).yn = s.yn := rfl
@[simp] theorem nextAccess_ys (rest : List HostEvent) (s : State) : (nextAccess rest s).ys = s.ys := rfl
@[simp] theorem nextAccess_ym (rest : List HostEvent) (s : State) : (nextAccess rest s).ym = s.ym := rfl
@[simp] theorem nextAccess_hostQueue (rest : List HostEvent) (s : State) : (nextAccess rest s).hostQueue = rest := rfl
@[simp] theorem nextAccess_hostIndex (rest : List HostEvent) (s : State) : (nextAccess rest s).hostIndex = s.hostIndex + 1 := rfl
@[simp] theorem nextAccess_hostReads (rest : List HostEvent) (s : State) : (nextAccess rest s).hostReads = s.hostReads := rfl

/-! ### resetBlock -/

@[simp] theorem resetBlock_cmd (rest : List HostEvent) (s : State) : (resetBlock rest s).cmd = State.reset.cmd := rfl
@[simp] theorem resetBlock_ill (rest : List HostEvent) (s : State) : (resetBlock rest s).ill = State.reset.ill := rfl
@[simp] theorem resetBlock_xa (rest : List HostEvent) (s : State) : (resetBlock rest s).xa = State.reset.xa := rfl
@[simp] theorem resetBlock_xb (rest : List HostEvent) (s : State) : (resetBlock rest s).xb = State.reset.xb := rfl
@[simp] theorem resetBlock_xn (rest : List HostEvent) (s : State) : (resetBlock rest s).xn = State.reset.xn := rfl
@[simp] theorem resetBlock_xs (rest : List HostEvent) (s : State) : (resetBlock rest s).xs = State.reset.xs := rfl
@[simp] theorem resetBlock_yf (rest : List HostEvent) (s : State) : (resetBlock rest s).yf = State.reset.yf := rfl
@[simp] theorem resetBlock_yn (rest : List HostEvent) (s : State) : (resetBlock rest s).yn = State.reset.yn := rfl
@[simp] theorem resetBlock_ys (rest : List HostEvent) (s : State) : (resetBlock rest s).ys = State.reset.ys := rfl
@[simp] theorem resetBlock_ym (rest : List HostEvent) (s : State) : (resetBlock rest s).ym = State.reset.ym := rfl
@[simp] theorem resetBlock_hostQueue (rest : List HostEvent) (s : State) : (resetBlock rest s).hostQueue = rest := rfl
@[simp] theorem resetBlock_hostIndex (rest : List HostEvent) (s : State) : (resetBlock rest s).hostIndex = s.hostIndex := rfl
@[simp] theorem resetBlock_hostReads (rest : List HostEvent) (s : State) : (resetBlock rest s).hostReads = s.hostReads := rfl

/-! ### withFetchWord -/

@[simp] theorem withFetchWord_cmd (nbits w : Nat) (s : State) : (s.withFetchWord nbits w).cmd = s.cmd := rfl
@[simp] theorem withFetchWord_ill (nbits w : Nat) (s : State) : (s.withFetchWord nbits w).ill = s.ill := rfl
@[simp] theorem withFetchWord_xa (nbits w : Nat) (s : State) : (s.withFetchWord nbits w).xa = s.xa := rfl
@[simp] theorem withFetchWord_xb (nbits w : Nat) (s : State) : (s.withFetchWord nbits w).xb = s.xb := rfl
@[simp] theorem withFetchWord_xn (nbits w : Nat) (s : State) : (s.withFetchWord nbits w).xn = s.xn := rfl
@[simp] theorem withFetchWord_xs (nbits w : Nat) (s : State) : (s.withFetchWord nbits w).xs = s.xs := rfl
@[simp] theorem withFetchWord_yf (nbits w : Nat) (s : State) : (s.withFetchWord nbits w).yf = s.yf := rfl
@[simp] theorem withFetchWord_yn (nbits w : Nat) (s : State) : (s.withFetchWord nbits w).yn = s.yn := rfl
@[simp] theorem withFetchWord_ys (nbits w : Nat) (s : State) : (s.withFetchWord nbits w).ys = s.ys := rfl
@[simp] theorem withFetchWord_ym (nbits w : Nat) (s : State) : (s.withFetchWord nbits w).ym = s.ym := rfl
@[simp] theorem withFetchWord_hostQueue (nbits w : Nat) (s : State) : (s.withFetchWord nbits w).hostQueue = commandEvent (tableWord nbits w) :: s.hostQueue := rfl
@[simp] theorem withFetchWord_hostIndex (nbits w : Nat) (s : State) : (s.withFetchWord nbits w).hostIndex = s.hostIndex := rfl
@[simp] theorem withFetchWord_hostReads (nbits w : Nat) (s : State) : (s.withFetchWord nbits w).hostReads = s.hostReads := rfl

/-! ### writeReg -/

@[simp] theorem writeReg_cmd (r : Reg) (v : Word) (s : State) : (writeReg r v s).cmd = s.cmd := by cases r <;> rfl
@[simp] theorem writeReg_ill (r : Reg) (v : Word) (s : State) : (writeReg r v s).ill = s.ill := by cases r <;> rfl
@[simp] theorem writeReg_yf (r : Reg) (v : Word) (s : State) : (writeReg r v s).yf = s.yf := by cases r <;> rfl
@[simp] theorem writeReg_yn (r : Reg) (v : Word) (s : State) : (writeReg r v s).yn = s.yn := by cases r <;> rfl
@[simp] theorem writeReg_ys (r : Reg) (v : Word) (s : State) : (writeReg r v s).ys = s.ys := by cases r <;> rfl
@[simp] theorem writeReg_ym (r : Reg) (v : Word) (s : State) : (writeReg r v s).ym = s.ym := by cases r <;> rfl
@[simp] theorem writeReg_hostQueue (r : Reg) (v : Word) (s : State) : (writeReg r v s).hostQueue = s.hostQueue := by cases r <;> rfl
@[simp] theorem writeReg_hostIndex (r : Reg) (v : Word) (s : State) : (writeReg r v s).hostIndex = s.hostIndex := by cases r <;> rfl
@[simp] theorem writeReg_hostReads (r : Reg) (v : Word) (s : State) : (writeReg r v s).hostReads = s.hostReads := by cases r <;> rfl
@[simp] theorem writeReg_xa_xa (i : Fin 16) (v : Word) (s : State) : (writeReg (.xa i) v s).xa = s.xa.set i v := rfl
@[simp] theorem writeReg_xa_xb (i : Fin 16) (v : Word) (s : State) : (writeReg (.xa i) v s).xb = s.xb := rfl
@[simp] theorem writeReg_xa_xn (i : Fin 16) (v : Word) (s : State) : (writeReg (.xa i) v s).xn = s.xn := rfl
@[simp] theorem writeReg_xa_xs (i : Fin 16) (v : Word) (s : State) : (writeReg (.xa i) v s).xs = s.xs := rfl
@[simp] theorem writeReg_xb_xa (i : Fin 16) (v : Word) (s : State) : (writeReg (.xb i) v s).xa = s.xa := rfl
@[simp] theorem writeReg_xb_xb (i : Fin 16) (v : Word) (s : State) : (writeReg (.xb i) v s).xb = s.xb.set i v := rfl
@[simp] theorem writeReg_xb_xn (i : Fin 16) (v : Word) (s : State) : (writeReg (.xb i) v s).xn = s.xn := rfl
@[simp] theorem writeReg_xb_xs (i : Fin 16) (v : Word) (s : State) : (writeReg (.xb i) v s).xs = s.xs := rfl
@[simp] theorem writeReg_xn_xa (i : Fin 16) (v : Word) (s : State) : (writeReg (.xn i) v s).xa = s.xa := rfl
@[simp] theorem writeReg_xn_xb (i : Fin 16) (v : Word) (s : State) : (writeReg (.xn i) v s).xb = s.xb := rfl
@[simp] theorem writeReg_xn_xn (i : Fin 16) (v : Word) (s : State) : (writeReg (.xn i) v s).xn = s.xn.set i v := rfl
@[simp] theorem writeReg_xn_xs (i : Fin 16) (v : Word) (s : State) : (writeReg (.xn i) v s).xs = s.xs := rfl
@[simp] theorem writeReg_xs_xa (i : Fin 16) (v : Word) (s : State) : (writeReg (.xs i) v s).xa = s.xa := rfl
@[simp] theorem writeReg_xs_xb (i : Fin 16) (v : Word) (s : State) : (writeReg (.xs i) v s).xb = s.xb := rfl
@[simp] theorem writeReg_xs_xn (i : Fin 16) (v : Word) (s : State) : (writeReg (.xs i) v s).xn = s.xn := rfl
@[simp] theorem writeReg_xs_xs (i : Fin 16) (v : Word) (s : State) : (writeReg (.xs i) v s).xs = s.xs.set i (v.getLsbD 0) := rfl
@[simp] theorem writeReg_cmd_same (v : Word) (s : State) : writeReg .cmd v s = s := rfl
@[simp] theorem writeReg_status_same (v : Word) (s : State) : writeReg .status v s = s := rfl
@[simp] theorem writeReg_yf_same (i : Fin 16) (v : Word) (s : State) : writeReg (.yf i) v s = s := rfl
@[simp] theorem writeReg_yn_same (i : Fin 16) (v : Word) (s : State) : writeReg (.yn i) v s = s := rfl
@[simp] theorem writeReg_ys_same (i : Fin 16) (v : Word) (s : State) : writeReg (.ys i) v s = s := rfl
@[simp] theorem writeReg_ym_same (i : Fin 16) (v : Word) (s : State) : writeReg (.ym i) v s = s := rfl
@[simp] theorem writeReg_reserved_same (k : Nat) (v : Word) (s : State) : writeReg (.reserved k) v s = s := rfl

/-! ### reset -/

@[simp] theorem reset_cmd : State.reset.cmd = 0 := rfl
@[simp] theorem reset_ill : State.reset.ill = false := rfl
@[simp] theorem reset_xa : State.reset.xa = Vector.replicate 16 0 := rfl
@[simp] theorem reset_xb : State.reset.xb = Vector.replicate 16 0 := rfl
@[simp] theorem reset_xn : State.reset.xn = Vector.replicate 16 0 := rfl
@[simp] theorem reset_xs : State.reset.xs = Vector.replicate 16 false := rfl
@[simp] theorem reset_yf : State.reset.yf = Vector.replicate 16 0 := rfl
@[simp] theorem reset_yn : State.reset.yn = Vector.replicate 16 0 := rfl
@[simp] theorem reset_ys : State.reset.ys = Vector.replicate 16 false := rfl
@[simp] theorem reset_ym : State.reset.ym = Vector.replicate 16 0 := rfl
@[simp] theorem reset_hostQueue : State.reset.hostQueue = [] := rfl
@[simp] theorem reset_hostIndex : State.reset.hostIndex = 0 := rfl
@[simp] theorem reset_hostReads : State.reset.hostReads = [] := rfl

end Sys2Proof.Machine
end

