-- ==== Sys2Proof/Laws/Ops.lean ====
section
/-! SUPPORT. What the shared operations do, said once: the lanes of a dispatch (spec/44_lane_dispatch.md R260-R263), the
registers of the window (20_memory.md R61-R66), and all that `exec` and one step can do (20_memory.md R70). -/

namespace Sys2Proof.Machine

open Sys2Proof

/-! ### Lanes -/

@[simp] theorem outLane_dispatch (n : LaneCount) (f : LaneIn → LaneOut) (s : State) (i : Fin 16) :
    outLane (dispatch n f s) i = laneOut n f s i := by
  simp [outLane]

@[simp] theorem laneIn_dispatch (n : LaneCount) (f : LaneIn → LaneOut) (s : State) (i : Fin 16) :
    laneIn (dispatch n f s) i = laneIn s i := rfl

@[simp] theorem laneIn_latchCommand (v : Word) (b : Bool) (s : State) (i : Fin 16) :
    laneIn (latchCommand v b s) i = laneIn s i := rfl

@[simp] theorem laneIn_nextAccess (rest : List HostEvent) (s : State) (i : Fin 16) :
    laneIn (nextAccess rest s) i = laneIn s i := rfl

@[simp] theorem laneIn_deliverRead (v : Word) (s : State) (i : Fin 16) : laneIn (deliverRead v s) i = laneIn s i := rfl

theorem laneOut_of_lt {n : LaneCount} {f : LaneIn → LaneOut} {s : State} {i : Fin 16} (h : i.val < laneCount n) :
    laneOut n f s i = f (laneIn s i) := by
  simp [laneOut, h]

theorem laneOut_of_le {n : LaneCount} {f : LaneIn → LaneOut} {s : State} {i : Fin 16} (h : laneCount n ≤ i.val) :
    laneOut n f s i = {} := by
  simp [laneOut, Nat.not_lt.2 h]

theorem laneCount_le (n : LaneCount) : laneCount n ≤ 16 := by cases n <;> decide

theorem laneCount_pos (n : LaneCount) : 0 < laneCount n := by cases n <;> decide

/-- The output files are their 16 lanes. -/
theorem sameOutputs_iff {s t : State} : SameOutputs s t ↔ ∀ i : Fin 16, outLane s i = outLane t i := by
  constructor
  · rintro ⟨h1, h2, h3, h4⟩ i
    simp [outLane, h1, h2, h3, h4]
  · intro h
    refine ⟨Vector.ext fun i hi => ?_, Vector.ext fun i hi => ?_, Vector.ext fun i hi => ?_, Vector.ext fun i hi => ?_⟩
    · exact congrArg LaneOut.yf (h ⟨i, hi⟩)
    · exact congrArg LaneOut.yn (h ⟨i, hi⟩)
    · exact congrArg LaneOut.ys (h ⟨i, hi⟩)
    · exact congrArg LaneOut.ym (h ⟨i, hi⟩)

/-! ### Commands -/

/-- `Lane_op` of a command (44_lane_dispatch.md R260). -/
def laneOf : Instr → LaneIn → LaneOut
  | .fdDecomp p _ => laneFdDecomp p
  | .fdCompose p _ => laneFdCompose p
  | .fdNorm p _ => laneFdNorm p
  | .fdScale p _ => laneFdScale p
  | .rrTrig p _ => laneRrTrig Config.cfg p
  | .rrExp2 p _ => laneRrExp2 p
  | .rrAtan p _ => laneRrAtan p
  | .peEval p _ t => lanePeEval Config.cfg p t
  | .svResolve p _ f => laneSvResolve Config.cfg p f
  | .sin p _ => laneSin Config.cfg p
  | .cos p _ => laneCos Config.cfg p
  | .tan p _ => laneTan Config.cfg p
  | .asin p _ => laneAsin Config.cfg p
  | .acos p _ => laneAcos Config.cfg p
  | .atan p _ => laneAtan Config.cfg p
  | .atan2 p _ => laneAtan2 Config.cfg p
  | .exp p _ => laneExp Config.cfg p
  | .exp2 p _ => laneExp2 Config.cfg p
  | .exp10 p _ => laneExp10 Config.cfg p
  | .log p _ => laneLog Config.cfg p
  | .log2 p _ => laneLog2 Config.cfg p
  | .log10 p _ => laneLog10 Config.cfg p

/-- All that a command does: its lane function, dispatched over its lanes. -/
theorem exec_eq_dispatch (i : Instr) (s : State) : exec i s = .next (dispatch i.lanes (laneOf i) s) := by
  cases i <;> rfl

/-- A command answers a next state, whose lanes are its lane function's. -/
theorem exec_lanes (i : Instr) (s : State) :
    ∃ t, exec i s = .next t ∧ ∀ j : Fin 16, outLane t j = laneOut i.lanes (laneOf i) s j :=
  ⟨_, exec_eq_dispatch i s, fun j => outLane_dispatch _ _ _ j⟩

theorem laneOf_withLanes (i : Instr) (n : LaneCount) : laneOf (i.withLanes n) = laneOf i := by cases i <;> rfl

@[simp] theorem lanes_withLanes (i : Instr) (n : LaneCount) : (i.withLanes n).lanes = n := by cases i <;> rfl

/-! ### The window -/

/-- The registers an offset can name: a lane register, CMD, STATUS or a reserved word inside the window
(20_memory.md R61). -/
theorem regOfIndex_regOffset {k : Nat} (hk : k < 512) : regOffset (regOfIndex k) = 8 * k := by
  have h := Nat.div_add_mod k 16
  have hm := Nat.mod_lt k (by decide : 0 < 16)
  have hd : k / 16 < 32 := by omega
  unfold regOfIndex
  generalize hq : k / 16 = q at *
  split
  · split
    · subst k; rfl
    · split
      · subst k; rfl
      · rfl
  all_goals first
    | rfl
    | (simp only [regOffset]; omega)

/-- The access of a register at its own offset reaches it (20_memory.md R61, R62). -/
theorem regAt_regOffset_cmd : regAt (regOffset .cmd) 8 = some .cmd := by decide

theorem regAt_regOffset_status : regAt (regOffset .status) 8 = some .status := by decide

theorem regAt_regOffset_lane (i : Fin 16) :
    regAt (regOffset (.xa i)) 8 = some (.xa i) ∧ regAt (regOffset (.xb i)) 8 = some (.xb i) ∧
    regAt (regOffset (.xn i)) 8 = some (.xn i) ∧ regAt (regOffset (.xs i)) 8 = some (.xs i) ∧
    regAt (regOffset (.yf i)) 8 = some (.yf i) ∧ regAt (regOffset (.yn i)) 8 = some (.yn i) ∧
    regAt (regOffset (.ys i)) 8 = some (.ys i) ∧ regAt (regOffset (.ym i)) 8 = some (.ym i) := by
  revert i; decide

/-- An access is answered exactly when it is an aligned 64-bit access of the window (20_memory.md R62, R67). -/
theorem regAt_isSome (off : Int) (size : Nat) :
    (regAt off size).isSome = true ↔ size = 8 ∧ 0 ≤ off ∧ off < 4096 ∧ off % 8 = 0 := by
  unfold regAt; split <;> simp_all

theorem regAt_eq_some {off : Int} {size : Nat} {r : Reg} (h : regAt off size = some r) :
    size = 8 ∧ 0 ≤ off ∧ off < 4096 ∧ off % 8 = 0 ∧ r = regOfIndex (off.toNat / 8) ∧ (regOffset r : Int) = off := by
  unfold regAt at h
  split at h
  · rename_i hc
    obtain ⟨h1, h2, h3, h4⟩ := hc
    cases h
    refine ⟨h1, h2, h3, h4, rfl, ?_⟩
    rw [regOfIndex_regOffset (by omega)]
    omega
  · cases h

/-- An input lane register. -/
def Reg.isInput : Reg → Bool
  | .xa _ | .xb _ | .xn _ | .xs _ => true
  | .cmd | .status | .yf _ | .yn _ | .ys _ | .ym _ | .reserved _ => false

/-- What a register holds of a written word: bit 0 of an XS lane, all 64 bits of another input lane. -/
def Reg.stores : Reg → Word → Word
  | .xs _, v => if v.getLsbD 0 then 1 else 0
  | .xa _, v | .xb _, v | .xn _, v => v
  | .cmd, v | .status, v | .yf _, v | .yn _, v | .ys _, v | .ym _, v | .reserved _, v => v

/-- A read after a write of an input lane gives what the lane stores of the written word (20_memory.md R64, R65). -/
theorem readReg_writeReg_self {r : Reg} (hr : r.isInput = true) (v : Word) (s : State) :
    readReg (writeReg r v s) r = r.stores v := by
  cases r <;> simp_all [Reg.isInput, Reg.stores, readReg]

/-- A write leaves every other register as it was (20_memory.md R65, R66). -/
theorem readReg_writeReg_ne {r r' : Reg} (hne : r' ≠ r) (v : Word) (s : State) :
    readReg (writeReg r v s) r' = readReg s r' := by
  cases r <;> cases r' <;> first
    | rfl
    | (rename_i i j
       have hij : i.val ≠ j.val := fun h => hne (by rw [Fin.ext h])
       simp [readReg, hij])

/-! ### One step -/

/-- All that a host event can do. -/
theorem hostEvent_cases {ev : HostEvent} {rest : List HostEvent} {s t : State} (h : hostEvent ev rest s = .next t) :
    (ev = .reset ∧ t = resetBlock rest s) ∨
    (∃ off size r, ev = .read off size ∧ regAt off size = some r ∧
      t = deliverRead (readReg s r) (nextAccess rest s)) ∨
    (∃ off size r v, ev = .write off size v ∧ regAt off size = some r ∧ r ≠ .cmd ∧
      t = writeReg r v (nextAccess rest s)) ∨
    (∃ off size v i, ev = .write off size v ∧ regAt off size = some .cmd ∧ decode v = .ok i ∧
      t = dispatch i.lanes (laneOf i) (latchCommand v false (nextAccess rest s))) ∨
    (∃ off size v e, ev = .write off size v ∧ regAt off size = some .cmd ∧ decode v = .error e ∧
      t = latchCommand v true (nextAccess rest s)) := by
  cases ev with
  | reset =>
    left
    simp only [hostEvent, Host.Outcome.next.injEq] at h
    exact ⟨rfl, h.symm⟩
  | read off size =>
    right; left
    simp only [hostEvent] at h
    split at h
    · rename_i r hr
      simp only [Host.Outcome.next.injEq] at h
      exact ⟨off, size, r, rfl, hr, h.symm⟩
    · cases h
  | write off size v =>
    right; right
    simp only [hostEvent] at h
    split at h
    · rename_i r hr
      by_cases hc : r = .cmd
      · subst hc
        right
        simp only [hostWrite, commandWrite] at h
        split at h
        · rename_i i hi
          rw [exec_eq_dispatch, Host.Outcome.next.injEq] at h
          exact .inl ⟨off, size, v, i, rfl, hr, hi, h.symm⟩
        · rename_i e he
          rw [Host.Outcome.next.injEq] at h
          exact .inr ⟨off, size, v, e, rfl, hr, he, h.symm⟩
      · left
        refine ⟨off, size, r, v, rfl, hr, hc, ?_⟩
        cases r <;> simp_all [hostWrite]
    · cases h

/-- All that one step can do. -/
theorem step_cases {s t : State} (h : step s = .next t) :
    (s.hostQueue = [] ∧ t = s) ∨ ∃ ev rest, s.hostQueue = ev :: rest ∧ hostEvent ev rest s = .next t := by
  unfold step at h
  split at h
  · left
    simp only [Host.Outcome.next.injEq] at h
    exact ⟨‹_›, h.symm⟩
  · right
    exact ⟨_, _, ‹_›, h⟩

/-- The step on a queue whose first event is `ev`. -/
theorem step_of_queue {s : State} {ev : HostEvent} {rest : List HostEvent} (h : s.hostQueue = ev :: rest) :
    step s = hostEvent ev rest s := by
  simp [step, h]

end Sys2Proof.Machine
end

