-- ==== Sys2Proof/Laws/Claims.lean ====
section
/-! SUPPORT. The shared words of the statements, opened once: a command gives a lane exactly what its lane function
computes, and a window access is the step of its register. -/

namespace Sys2Proof.Claims

open Sys2Proof Sys2Proof.Machine

/-- A state whose every input lane is l. -/
def uniform (l : LaneIn) : State :=
  { State.reset with xa := Vector.replicate 16 l.a, xb := Vector.replicate 16 l.b, xn := Vector.replicate 16 l.n,
                     xs := Vector.replicate 16 l.s }

@[simp] theorem laneIn_uniform (l : LaneIn) (j : Fin 16) : laneIn (uniform l) j = l := by
  simp [laneIn, uniform]

/-- A command gives a lane what its lane function computes, and nothing else. -/
theorem gives_iff {i : Instr} {l : LaneIn} {o : LaneOut} : Gives i l o ↔ laneOf i l = o := by
  constructor
  · intro h
    obtain ⟨t, ht, ho⟩ := h (uniform l) 0 (laneCount_pos _) (laneIn_uniform l 0)
    rw [exec_eq_dispatch, Host.Outcome.next.injEq] at ht
    rw [← ho, ← ht, outLane_dispatch, laneOut_of_lt (laneCount_pos _), laneIn_uniform]
  · rintro rfl s j hj rfl
    exact ⟨_, exec_eq_dispatch i s, by rw [outLane_dispatch, laneOut_of_lt hj]⟩

theorem givesFloat_iff {i : Instr} {l : LaneIn} {P : Prec} {r : Pat P} :
    GivesFloat i l r ↔ laneOf i l = LaneOut.float r := gives_iff

/-- The lane function always gives. -/
theorem gives_laneOf (i : Instr) (l : LaneIn) : Gives i l (laneOf i l) := gives_iff.2 rfl

/-- A pattern read back from the slot it was written to. -/
@[simp] theorem opP_zext64 {P : Prec} (r : Pat P) : opP P (zext64 r) = r := by
  have h : 1 + P.expBits + P.fracBits ≤ 64 := by cases P <;> decide
  apply BitVec.eq_of_toNat_eq
  have hlt : r.toNat < 2 ^ 64 := r.isLt.trans_le (Nat.pow_le_pow_right (by decide) h)
  simp only [opP, zext64, BitVec.toNat_setWidth]
  rw [Nat.mod_eq_of_lt hlt, Nat.mod_eq_of_lt r.isLt]

/-- The slot of a pattern determines it. -/
theorem zext64_inj {P : Prec} {r r' : Pat P} : zext64 r = zext64 r' ↔ r = r' :=
  ⟨fun h => by rw [← opP_zext64 r, h, opP_zext64], fun h => by rw [h]⟩

/-- A read of the register at an offset. -/
theorem readReturns_of_regAt {s : State} {off : Int} {r : Reg} (h : regAt off 8 = some r) :
    ReadReturns s off (readReg s r) := by
  intro rest hq
  simp [step_of_queue hq, hostEvent, h, deliverRead, nextAccess, accessTaken]

/-- A write of a register other than CMD at an offset. -/
theorem writeLeaves_of_regAt {s : State} {off : Int} {v : Word} {r : Reg} (h : regAt off 8 = some r) (hr : r ≠ .cmd) :
    WriteLeaves s off v (writeReg r v s) := by
  intro rest hq
  simp only [step_of_queue hq, hostEvent, h]
  cases r <;> first
    | exact absurd rfl hr
    | rfl

end Sys2Proof.Claims
end

