-- ==== Sys2Proof/Laws/Encode.lean ====
section
/-! SUPPORT. The fields of a command word (spec/30_encoding.md R90): what each field of `cmdWord` reads, and that a word
is its six fields. -/

namespace Sys2Proof

/-- A command word as a number: its fields at their places (R90). -/
theorem toNat_cmdWord (op : BitVec 8) (p : Prec) (n : LaneCount) (aux : BitVec 8) :
    (cmdWord op p n aux).toNat =
      op.toNat + 2 ^ 8 * (precCode p).toNat + 2 ^ 9 * (laneCode n).toNat + 2 ^ 16 * aux.toNat := by
  have h1 := op.isLt
  have h2 := aux.isLt
  have h3 : (precCode p).toNat < 2 := (precCode p).isLt
  have h4 : (laneCode n).toNat < 8 := (laneCode n).isLt
  simp only [cmdWord, BitVec.toNat_append, BitVec.toNat_ofNat]
  rw [← Nat.shiftLeft_add_eq_or_of_lt h1, ← Nat.shiftLeft_add_eq_or_of_lt (i := 1) (by omega),
    ← Nat.shiftLeft_add_eq_or_of_lt (i := 3) (by omega), ← Nat.shiftLeft_add_eq_or_of_lt (i := 4) (by decide),
    ← Nat.shiftLeft_add_eq_or_of_lt h2]
  simp only [Nat.shiftLeft_eq]
  omega

@[simp] theorem opField_cmdWord (op : BitVec 8) (p : Prec) (n : LaneCount) (aux : BitVec 8) :
    opField (cmdWord op p n aux) = op := by
  apply BitVec.eq_of_toNat_eq
  have h1 := op.isLt
  rw [opField, BitVec.extractLsb'_toNat, toNat_cmdWord, Nat.shiftRight_eq_div_pow]
  omega

@[simp] theorem auxField_cmdWord (op : BitVec 8) (p : Prec) (n : LaneCount) (aux : BitVec 8) :
    auxField (cmdWord op p n aux) = aux := by
  apply BitVec.eq_of_toNat_eq
  have h1 := op.isLt
  have h2 := aux.isLt
  have h3 : (precCode p).toNat < 2 := (precCode p).isLt
  have h4 : (laneCode n).toNat < 8 := (laneCode n).isLt
  rw [auxField, BitVec.extractLsb'_toNat, toNat_cmdWord, Nat.shiftRight_eq_div_pow]
  omega

@[simp] theorem wcField_cmdWord (op : BitVec 8) (p : Prec) (n : LaneCount) (aux : BitVec 8) :
    wcField (cmdWord op p n aux) = laneCode n := by
  apply BitVec.eq_of_toNat_eq
  have h1 := op.isLt
  have h3 : (precCode p).toNat < 2 := (precCode p).isLt
  have h4 : (laneCode n).toNat < 8 := (laneCode n).isLt
  rw [wcField, BitVec.extractLsb'_toNat, toNat_cmdWord, Nat.shiftRight_eq_div_pow]
  omega

@[simp] theorem reservedLow_cmdWord (op : BitVec 8) (p : Prec) (n : LaneCount) (aux : BitVec 8) :
    reservedLow (cmdWord op p n aux) = 0 := by
  apply BitVec.eq_of_toNat_eq
  have h1 := op.isLt
  have h3 : (precCode p).toNat < 2 := (precCode p).isLt
  have h4 : (laneCode n).toNat < 8 := (laneCode n).isLt
  rw [reservedLow, BitVec.extractLsb'_toNat, toNat_cmdWord, Nat.shiftRight_eq_div_pow]
  simp only [BitVec.ofNat_eq_ofNat, BitVec.toNat_ofNat]
  omega

@[simp] theorem reservedHigh_cmdWord (op : BitVec 8) (p : Prec) (n : LaneCount) (aux : BitVec 8) :
    reservedHigh (cmdWord op p n aux) = 0 := by
  apply BitVec.eq_of_toNat_eq
  have h1 := op.isLt
  have h2 := aux.isLt
  have h3 : (precCode p).toNat < 2 := (precCode p).isLt
  have h4 : (laneCode n).toNat < 8 := (laneCode n).isLt
  rw [reservedHigh, BitVec.extractLsb'_toNat, toNat_cmdWord, Nat.shiftRight_eq_div_pow]
  simp only [BitVec.ofNat_eq_ofNat, BitVec.toNat_ofNat]
  omega

@[simp] theorem precField_cmdWord (op : BitVec 8) (p : Prec) (n : LaneCount) (aux : BitVec 8) :
    precField (cmdWord op p n aux) = p := by
  have h1 := op.isLt
  rw [precField, BitVec.getLsbD, toNat_cmdWord, Nat.testBit_eq_decide_div_mod_eq]
  have hp : (precCode .b32).toNat = 0 ∧ (precCode .b64).toNat = 1 := by decide
  cases p
  · rw [if_neg]
    rw [hp.1, decide_eq_true_eq]
    omega
  · rw [if_pos]
    rw [hp.2, decide_eq_true_eq]
    omega

@[simp] theorem laneOfCode_laneCode (n : LaneCount) : laneOfCode (laneCode n) = some n := by cases n <;> rfl

@[simp] theorem tableOfCode_tableCode (t : TableId) : tableOfCode (tableCode t) = some t := by cases t <;> rfl

@[simp] theorem fnOfCode_fnCode (f : FnId) : fnOfCode (fnCode f) = some f := by cases f <;> rfl

/-- A word is its six fields (R90). -/
theorem word_eq_fields (v : Word) :
    v.toNat = (opField v).toNat + 2 ^ 8 * (precCode (precField v)).toNat + 2 ^ 9 * (wcField v).toNat +
      2 ^ 12 * (reservedLow v).toNat + 2 ^ 16 * (auxField v).toNat + 2 ^ 24 * (reservedHigh v).toNat := by
  have hb : (precCode (precField v)).toNat = v.toNat / 2 ^ 8 % 2 := by
    rw [precField, BitVec.getLsbD, Nat.testBit_eq_decide_div_mod_eq]
    rcases Nat.mod_two_eq_zero_or_one (v.toNat / 2 ^ 8) with h | h <;> rw [h] <;> rfl
  rw [hb]
  simp only [opField, wcField, reservedLow, auxField, reservedHigh, BitVec.extractLsb'_toNat,
    Nat.shiftRight_eq_div_pow]
  have := v.isLt
  omega

/-! ### What the field decoders can answer -/

theorem laneCode_of_laneOfCode {wc : BitVec 3} {n : LaneCount} (h : laneOfCode wc = some n) : laneCode n = wc := by
  revert n; revert wc; decide

theorem tableCode_of_tableOfCode {aux : BitVec 8} {t : TableId} (h : tableOfCode aux = some t) :
    tableCode t = aux := by
  have : ∀ b : BitVec 8, ∀ u ∈ tableOfCode b, tableCode u = b := by decide
  exact this aux t h

theorem fnCode_of_fnOfCode {aux : BitVec 8} {f : FnId} (h : fnOfCode aux = some f) : fnCode f = aux := by
  have : ∀ b : BitVec 8, ∀ u ∈ fnOfCode b, fnCode u = b := by decide
  exact this aux f h

end Sys2Proof
end

