-- ==== Sys2Proof/Laws/Float.lean ====
section
/-! SUPPORT. Fields, classes and exact values of a pattern (spec/00_scope.md R13-R18): a pattern is its three
fields, and what `neg`, `abs`, `quiet` and `pack` do to them. -/

namespace Sys2Proof.Machine

open Sys2Proof

variable {P : Prec}

theorem pow2_eq_zpow (q : Int) : pow2 q = (2 : ℚ) ^ q := by
  cases q with
  | ofNat n => simp [pow2]
  | negSucc n => simp [pow2, zpow_negSucc, Rat.mkRat_eq_div]

theorem frac_eq_mod (x : Pat P) : frac x = x.toNat % 2 ^ P.fracBits := by simp [frac]

theorem expf_eq_div_mod (x : Pat P) : expf x = x.toNat / 2 ^ P.fracBits % 2 ^ P.expBits := by
  simp [expf, Nat.shiftRight_eq_div_pow]

theorem toNat_lt_double (x : Pat P) : x.toNat < 2 ^ (P.expBits + P.fracBits) * 2 := by
  have h := x.isLt
  have e : 2 ^ (1 + P.expBits + P.fracBits) = 2 ^ (P.expBits + P.fracBits) * 2 := by
    rw [← pow_succ]; congr 1; omega
  omega

theorem sgn_eq_decide (x : Pat P) : sgn x = decide (2 ^ (P.expBits + P.fracBits) ≤ x.toNat) := by
  have h := toNat_lt_double x
  rw [sgn, BitVec.getLsbD, Nat.testBit_eq_decide_div_mod_eq, decide_eq_decide]
  have hlt : x.toNat / 2 ^ (P.expBits + P.fracBits) < 2 := Nat.div_lt_of_lt_mul h
  have hle := Nat.le_div_iff_mul_le (x := 1) (y := x.toNat) (Nat.two_pow_pos (P.expBits + P.fracBits))
  rw [Nat.one_mul] at hle
  rw [← hle]
  generalize x.toNat / 2 ^ (P.expBits + P.fracBits) = q at hlt
  omega

/-- A pattern is its three fields, as a number. -/
theorem toNat_eq_fields (x : Pat P) :
    x.toNat = (sgn x).toNat * 2 ^ (P.expBits + P.fracBits) + expf x * 2 ^ P.fracBits + frac x := by
  have h := toNat_lt_double x
  rw [frac_eq_mod, expf_eq_div_mod, sgn_eq_decide]
  have e1 := Nat.div_add_mod x.toNat (2 ^ P.fracBits)
  have e2 := Nat.div_add_mod (x.toNat / 2 ^ P.fracBits) (2 ^ P.expBits)
  have e3 : x.toNat / 2 ^ P.fracBits / 2 ^ P.expBits = x.toNat / 2 ^ (P.expBits + P.fracBits) := by
    rw [Nat.div_div_eq_div_mul, ← pow_add, Nat.add_comm P.fracBits]
  have e4 : x.toNat / 2 ^ (P.expBits + P.fracBits) = (decide (2 ^ (P.expBits + P.fracBits) ≤ x.toNat)).toNat := by
    by_cases hd : 2 ^ (P.expBits + P.fracBits) ≤ x.toNat
    · simp only [hd, decide_true, Bool.toNat_true]
      exact Nat.div_eq_of_lt_le (by omega) (by omega)
    · simp only [hd, decide_false, Bool.toNat_false]
      exact Nat.div_eq_of_lt (by omega)
  rw [e3, e4] at e2
  rw [pow_add]
  rw [pow_add] at e2
  generalize (decide (2 ^ P.expBits * 2 ^ P.fracBits ≤ x.toNat)).toNat = b at *
  generalize x.toNat / 2 ^ P.fracBits % 2 ^ P.expBits = e at *
  generalize x.toNat % 2 ^ P.fracBits = f at *
  rw [← e1, ← e2]; ring

theorem pat_ext {x y : Pat P} (hs : sgn x = sgn y) (he : expf x = expf y) (hf : frac x = frac y) : x = y := by
  apply BitVec.eq_of_toNat_eq
  rw [toNat_eq_fields x, toNat_eq_fields y, hs, he, hf]

theorem expf_lt (x : Pat P) : expf x < 2 ^ P.expBits := BitVec.isLt _

theorem frac_lt (x : Pat P) : frac x < 2 ^ P.fracBits := BitVec.isLt _

theorem toNat_pack (s : Bool) (E F : Nat) :
    (pack P s E F).toNat =
      s.toNat * 2 ^ (P.expBits + P.fracBits) + E % 2 ^ P.expBits * 2 ^ P.fracBits + F % 2 ^ P.fracBits := by
  have hE := Nat.mod_lt E (Nat.two_pow_pos P.expBits)
  have hF := Nat.mod_lt F (Nat.two_pow_pos P.fracBits)
  simp only [pack, BitVec.toNat_append, BitVec.toNat_ofNat, BitVec.toNat_ofBool]
  rw [← Nat.shiftLeft_add_eq_or_of_lt hE, ← Nat.shiftLeft_add_eq_or_of_lt hF]
  simp only [Nat.shiftLeft_eq, pow_add]
  ring

@[simp] theorem frac_pack (s : Bool) (E F : Nat) : frac (pack P s E F) = F % 2 ^ P.fracBits := by
  rw [frac_eq_mod, toNat_pack, pow_add, ← mul_assoc, ← Nat.add_mul, Nat.add_comm, Nat.add_mul_mod_self_right, Nat.mod_mod]

@[simp] theorem expf_pack (s : Bool) (E F : Nat) : expf (pack P s E F) = E % 2 ^ P.expBits := by
  rw [expf_eq_div_mod, toNat_pack, pow_add, ← mul_assoc, ← Nat.add_mul, Nat.add_comm,
    Nat.add_mul_div_right _ _ (Nat.two_pow_pos _), Nat.div_eq_of_lt (Nat.mod_lt _ (Nat.two_pow_pos _)), Nat.zero_add,
    Nat.add_comm, Nat.add_mul_mod_self_right, Nat.mod_mod]

@[simp] theorem sgn_pack (s : Bool) (E F : Nat) : sgn (pack P s E F) = s := by
  rw [sgn_eq_decide, toNat_pack]
  have hE := Nat.mod_lt E (Nat.two_pow_pos P.expBits)
  have hF := Nat.mod_lt F (Nat.two_pow_pos P.fracBits)
  have : E % 2 ^ P.expBits * 2 ^ P.fracBits + F % 2 ^ P.fracBits < 2 ^ (P.expBits + P.fracBits) := by
    rw [pow_add]; nlinarith [Nat.mul_le_mul_right (2 ^ P.fracBits) (Nat.succ_le_of_lt hE)]
  cases s <;> simp <;> omega

@[simp] theorem pack_fields (x : Pat P) : pack P (sgn x) (expf x) (frac x) = x :=
  pat_ext (by simp) (by simp [Nat.mod_eq_of_lt (expf_lt x)]) (by simp [Nat.mod_eq_of_lt (frac_lt x)])

theorem getLsbD_bitMask (k i : Nat) (hk : k < 1 + P.expBits + P.fracBits) :
    ((1 : Pat P) <<< k).getLsbD i = decide (i = k) := by
  simp only [BitVec.getLsbD_shiftLeft]
  by_cases h : i = k
  · subst h; simp; omega
  · simp [h]; intros; omega

theorem expf_congr {x y : Pat P} (h : ∀ i, P.fracBits ≤ i → i < P.expBits + P.fracBits → x.getLsbD i = y.getLsbD i) :
    expf x = expf y := by
  unfold expf
  congr 1
  apply BitVec.eq_of_getLsbD_eq
  intro i hi
  simpa [BitVec.getLsbD_extractLsb', hi] using h (P.fracBits + i) (by omega) (by omega)

theorem frac_congr {x y : Pat P} (h : ∀ i, i < P.fracBits → x.getLsbD i = y.getLsbD i) : frac x = frac y := by
  unfold frac
  congr 1
  apply BitVec.eq_of_getLsbD_eq
  intro i hi
  simpa [BitVec.getLsbD_extractLsb', hi] using h i hi

@[simp] theorem sgn_neg (x : Pat P) : sgn (neg x) = !sgn x := by
  simp only [sgn, neg, BitVec.getLsbD_xor]
  rw [getLsbD_bitMask _ _ (by omega)]
  simp

@[simp] theorem expf_neg (x : Pat P) : expf (neg x) = expf x := by
  apply expf_congr
  intro i h1 h2
  rw [neg, BitVec.getLsbD_xor, getLsbD_bitMask _ _ (by omega)]
  simp [show i ≠ P.expBits + P.fracBits by omega]

@[simp] theorem frac_neg (x : Pat P) : frac (neg x) = frac x := by
  apply frac_congr
  intro i h1
  rw [neg, BitVec.getLsbD_xor, getLsbD_bitMask _ _ (by omega)]
  simp [show i ≠ P.expBits + P.fracBits by omega]

@[simp] theorem sgn_absPat (x : Pat P) : sgn (absPat x) = false := by
  simp only [sgn, absPat, BitVec.getLsbD_and, BitVec.getLsbD_not]
  rw [getLsbD_bitMask _ _ (by omega)]
  simp

@[simp] theorem expf_absPat (x : Pat P) : expf (absPat x) = expf x := by
  apply expf_congr
  intro i h1 h2
  simp only [absPat, BitVec.getLsbD_and, BitVec.getLsbD_not]
  rw [getLsbD_bitMask _ _ (by omega)]
  simp [show i ≠ P.expBits + P.fracBits by omega]
  intros; omega

@[simp] theorem frac_absPat (x : Pat P) : frac (absPat x) = frac x := by
  apply frac_congr
  intro i h1
  simp only [absPat, BitVec.getLsbD_and, BitVec.getLsbD_not]
  rw [getLsbD_bitMask _ _ (by omega)]
  simp [show i ≠ P.expBits + P.fracBits by omega]
  intros; omega

theorem fracBits_pos (P : Prec) : 0 < P.fracBits := by cases P <;> decide

theorem expBits_pos (P : Prec) : 0 < P.expBits := by cases P <;> decide

@[simp] theorem sgn_quiet (x : Pat P) : sgn (quiet x) = sgn x := by
  have := expBits_pos P
  simp only [sgn, quiet, BitVec.getLsbD_or]
  rw [getLsbD_bitMask _ _ (by omega)]
  simp; omega

@[simp] theorem expf_quiet (x : Pat P) : expf (quiet x) = expf x := by
  have := fracBits_pos P
  apply expf_congr
  intro i h1 h2
  rw [quiet, BitVec.getLsbD_or, getLsbD_bitMask _ _ (by omega)]
  simp; omega

theorem frac_quiet (x : Pat P) : frac (quiet x) = frac x ||| 2 ^ (P.fracBits - 1) := by
  have h0 := fracBits_pos P
  unfold frac
  rw [show 2 ^ (P.fracBits - 1) = (BitVec.twoPow P.fracBits (P.fracBits - 1)).toNat by
    rw [BitVec.toNat_twoPow, Nat.mod_eq_of_lt (Nat.pow_lt_pow_right (by decide) (by omega))], ← BitVec.toNat_or]
  congr 1
  apply BitVec.eq_of_getLsbD_eq
  intro i hi
  simp only [BitVec.getLsbD_extractLsb', hi, decide_true, Bool.true_and, BitVec.getLsbD_or, BitVec.getLsbD_twoPow, quiet, Nat.zero_add]
  rw [getLsbD_bitMask _ _ (by omega), show decide (P.fracBits - 1 = i) = decide (i = P.fracBits - 1) from decide_eq_decide.2 eq_comm]
  simp [show P.fracBits - 1 < P.fracBits by omega]

theorem frac_quiet_ne_zero (x : Pat P) : frac (quiet x) ≠ 0 := by
  rw [frac_quiet]
  intro h
  have := (Nat.or_eq_zero_iff.1 h).2
  simp at this

@[simp] theorem quiet_quiet (x : Pat P) : quiet (quiet x) = quiet x := by
  simp [quiet, BitVec.or_assoc]

@[simp] theorem neg_neg_pat (x : Pat P) : neg (neg x) = x := by
  simp [neg]

@[simp] theorem isNaN_quiet (x : Pat P) (h : isNaN x = true) : isNaN (quiet x) = true := by
  simp_all [isNaN, frac_quiet_ne_zero]

@[simp] theorem isNaN_neg (x : Pat P) : isNaN (neg x) = isNaN x := by simp [isNaN]

@[simp] theorem isInf_neg (x : Pat P) : isInf (neg x) = isInf x := by simp [isInf]

@[simp] theorem isZero_neg (x : Pat P) : isZero (neg x) = isZero x := by simp [isZero]

@[simp] theorem isSub_neg (x : Pat P) : isSub (neg x) = isSub x := by simp [isSub]

@[simp] theorem isNorm_neg (x : Pat P) : isNorm (neg x) = isNorm x := by simp [isNorm]

@[simp] theorem isFinite_neg (x : Pat P) : isFinite (neg x) = isFinite x := by simp [isFinite]

@[simp] theorem magnitude_neg (x : Pat P) : magnitude (neg x) = magnitude x := by simp [magnitude]

@[simp] theorem val_neg (x : Pat P) : val (neg x) = -val x := by
  cases h : sgn x <;> simp [val, h]

theorem pow2_pos (q : Int) : 0 < pow2 q := by rw [pow2_eq_zpow]; positivity

theorem magnitude_nonneg (x : Pat P) : 0 ≤ magnitude x := by
  unfold magnitude; split <;> exact mul_nonneg (by positivity) (pow2_pos _).le

theorem abs_val (x : Pat P) : |val x| = magnitude x := by
  unfold val; split <;> simp [abs_of_nonneg (magnitude_nonneg x)]

/-! ### Classes (R14) -/

theorem expMax_eq (P : Prec) : expMax P + 1 = 2 ^ P.expBits := by cases P <;> decide

theorem expf_le_expMax (x : Pat P) : expf x ≤ expMax P := by
  have := expf_lt x; have := expMax_eq P; omega

theorem expMax_pos (P : Prec) : 1 < expMax P := by cases P <;> decide

theorem isFinite_iff (x : Pat P) : isFinite x = true ↔ expf x < expMax P := by
  have := expMax_pos P
  have := expf_le_expMax x
  by_cases h0 : expf x = 0 <;> by_cases hf : frac x = 0 <;> simp [isFinite, isZero, isSub, isNorm, h0, hf] <;> omega

theorem isNaN_iff (x : Pat P) : isNaN x = true ↔ expf x = expMax P ∧ frac x ≠ 0 := by simp [isNaN]

theorem isInf_iff (x : Pat P) : isInf x = true ↔ expf x = expMax P ∧ frac x = 0 := by simp [isInf]

theorem isZero_iff (x : Pat P) : isZero x = true ↔ expf x = 0 ∧ frac x = 0 := by simp [isZero]

theorem isSub_iff (x : Pat P) : isSub x = true ↔ expf x = 0 ∧ frac x ≠ 0 := by simp [isSub]

theorem isNorm_iff (x : Pat P) : isNorm x = true ↔ 0 < expf x ∧ expf x < expMax P := by simp [isNorm]

/-- Every pattern is exactly one of NaN, infinite, zero, subnormal and normal. -/
theorem class_cases (x : Pat P) :
    (isNaN x = true ∧ isInf x = false ∧ isZero x = false ∧ isSub x = false ∧ isNorm x = false ∧ isFinite x = false) ∨
    (isNaN x = false ∧ isInf x = true ∧ isZero x = false ∧ isSub x = false ∧ isNorm x = false ∧ isFinite x = false) ∨
    (isNaN x = false ∧ isInf x = false ∧ isZero x = true ∧ isSub x = false ∧ isNorm x = false ∧ isFinite x = true) ∨
    (isNaN x = false ∧ isInf x = false ∧ isZero x = false ∧ isSub x = true ∧ isNorm x = false ∧ isFinite x = true) ∨
    (isNaN x = false ∧ isInf x = false ∧ isZero x = false ∧ isSub x = false ∧ isNorm x = true ∧ isFinite x = true) := by
  have h1 := expMax_pos P
  have h2 := expf_le_expMax x
  have h3 : expf x = 0 ∨ expf x = expMax P ∨ (0 < expf x ∧ expf x < expMax P) := by omega
  rcases h3 with h | h | h <;> by_cases hf : frac x = 0
  all_goals simp [isNaN, isInf, isZero, isSub, isNorm, isFinite, h, hf]
  all_goals omega

theorem eq_zeroPat {x : Pat P} (h : isZero x = true) : x = zeroPat P (sgn x) := by
  rw [isZero_iff] at h
  exact pat_ext (by simp [zeroPat]) (by simp [zeroPat, h.1]) (by simp [zeroPat, h.2])

theorem eq_infPat {x : Pat P} (h : isInf x = true) : x = infPat P (sgn x) := by
  rw [isInf_iff] at h
  have := expMax_eq P
  exact pat_ext (by simp [infPat]) (by simp [infPat, h.1, Nat.mod_eq_of_lt (by omega : expMax P < 2 ^ P.expBits)])
    (by simp [infPat, h.2])

theorem magnitude_eq_zero_iff {x : Pat P} : magnitude x = 0 ↔ isZero x = true := by
  rw [isZero_iff]
  unfold magnitude
  have hp := fun q => (pow2_pos q).ne'
  split
  · rename_i h; simp [h, hp]
  · rename_i h
    simp [h, hp]
    positivity

theorem val_eq_zero_iff {x : Pat P} : val x = 0 ↔ isZero x = true := by
  rw [← magnitude_eq_zero_iff]; unfold val; split <;> simp

end Sys2Proof.Machine
end

