-- ==== Sys2Proof/Laws/Round.lean ====
section
/-! SUPPORT. RoundRNE (spec/00_scope.md R19): the binade of a number, rounding to an integer, and what `assemble`
and `roundRNE` give. -/

namespace Sys2Proof.Machine

open Sys2Proof

variable {P : Prec}

theorem floorLog2_spec {v : ℚ} (hv : 0 < v) : pow2 (floorLog2 v) ≤ v ∧ v < pow2 (floorLog2 v + 1) := by
  have hn : 0 < v.num := Rat.num_pos.2 hv
  have hn0 : v.num.natAbs ≠ 0 := by omega
  have hd0 : v.den ≠ 0 := v.den_nz
  have key : floorLog2 v = if pow2 ((v.num.natAbs.log2 : ℤ) - v.den.log2) ≤ v then (v.num.natAbs.log2 : ℤ) - v.den.log2
      else (v.num.natAbs.log2 : ℤ) - v.den.log2 - 1 := rfl
  have a1 := Nat.log2_self_le hn0
  have a2 := Nat.lt_log2_self (n := v.num.natAbs)
  have b1 := Nat.log2_self_le hd0
  have b2 := Nat.lt_log2_self (n := v.den)
  have hv' : v = (v.num.natAbs : ℚ) / v.den := by
    conv_lhs => rw [← Rat.num_div_den v]
    congr 1
    have : ((v.num.natAbs : ℤ) : ℚ) = (v.num : ℚ) := by rw [Int.natAbs_of_nonneg hn.le]
    rw [← this]; simp
  generalize v.num.natAbs = n at *
  generalize v.den = d at *
  set a := n.log2
  set b := d.log2
  have hd : (0:ℚ) < d := by positivity
  have A1 : (2:ℚ) ^ a ≤ n := by exact_mod_cast a1
  have A2 : (n:ℚ) < 2 ^ (a + 1) := by exact_mod_cast a2
  have B1 : (2:ℚ) ^ b ≤ d := by exact_mod_cast b1
  have B2 : (d:ℚ) < 2 ^ (b + 1) := by exact_mod_cast b2
  have up : v < pow2 ((a : ℤ) - b + 1) := by
    rw [pow2_eq_zpow, hv', div_lt_iff₀ hd]
    calc (n:ℚ) < 2 ^ (a+1) := A2
      _ = (2:ℚ) ^ ((a : ℤ) - b + 1) * 2 ^ b := by
        rw [← zpow_natCast, ← zpow_natCast, ← zpow_add₀ (by norm_num)]; congr 1; push_cast; ring
      _ ≤ _ := by gcongr
  have lo : pow2 ((a : ℤ) - b - 1) ≤ v := by
    rw [pow2_eq_zpow, hv', le_div_iff₀ hd]
    calc (2:ℚ) ^ ((a : ℤ) - b - 1) * d ≤ (2:ℚ) ^ ((a : ℤ) - b - 1) * 2 ^ (b + 1) := by gcongr
      _ = 2 ^ a := by
        rw [← zpow_natCast, ← zpow_natCast, ← zpow_add₀ (by norm_num)]; congr 1; push_cast; ring
      _ ≤ _ := A1
  rw [key]
  split
  · exact ⟨by assumption, up⟩
  · rename_i h; exact ⟨lo, by simpa using h⟩

theorem floorLog2_unique {v : ℚ} (hv : 0 < v) {e : ℤ} (h1 : pow2 e ≤ v) (h2 : v < pow2 (e + 1)) : floorLog2 v = e := by
  obtain ⟨k1, k2⟩ := floorLog2_spec hv
  rw [pow2_eq_zpow] at *
  have a := (zpow_lt_zpow_iff_right₀ (by norm_num : (1:ℚ) < 2)).1 (lt_of_le_of_lt h1 k2)
  have b := (zpow_lt_zpow_iff_right₀ (by norm_num : (1:ℚ) < 2)).1 (lt_of_le_of_lt k1 h2)
  omega

theorem roundTiesEven_cases {m : ℚ} (hm : 0 ≤ m) :
    ∃ S : ℕ, (S : ℚ) ≤ m ∧ m < S + 1 ∧
      ((m < S + 1/2 ∧ roundTiesEven m = S) ∨ (m = S + 1/2 ∧ S % 2 = 0 ∧ roundTiesEven m = S) ∨
       (m = S + 1/2 ∧ S % 2 = 1 ∧ roundTiesEven m = S + 1) ∨ (S + 1/2 < m ∧ roundTiesEven m = S + 1)) := by
  have hf : 0 ≤ ⌊m⌋ := Int.floor_nonneg.2 hm
  have hc : ((⌊m⌋.toNat : ℕ) : ℚ) = (⌊m⌋ : ℚ) := by
    have : ((⌊m⌋.toNat : ℤ)) = ⌊m⌋ := Int.toNat_of_nonneg hf
    exact_mod_cast congrArg (fun z : ℤ => (z : ℚ)) this
  refine ⟨⌊m⌋.toNat, by rw [hc]; exact Int.floor_le m, by rw [hc]; exact Int.lt_floor_add_one m, ?_⟩
  have h2 : ⌊m⌋.toNat % 2 = 0 ∨ ⌊m⌋.toNat % 2 = 1 := by omega
  unfold roundTiesEven
  simp only
  generalize ⌊m⌋.toNat = S at *
  rcases lt_trichotomy (m - S) (1/2) with h | h | h
  · left; refine ⟨by linarith, if_neg ?_⟩
    rintro (h' | h')
    · linarith
    · linarith [h'.1]
  · rcases h2 with h2 | h2
    · right; left; exact ⟨by linarith, h2, by rw [if_neg]; rintro (h' | h'); linarith; omega⟩
    · right; right; left; exact ⟨by linarith, h2, by rw [if_pos]; exact Or.inr ⟨h, h2⟩⟩
  · right; right; right; exact ⟨by linarith, by rw [if_pos]; exact Or.inl h⟩

theorem roundTiesEven_natCast (n : ℕ) : roundTiesEven (n : ℚ) = n := by
  simp [roundTiesEven]

/-- Rounding to an integer is off by at most one half. -/
theorem abs_roundTiesEven_sub_le {m : ℚ} (hm : 0 ≤ m) : |(roundTiesEven m : ℚ) - m| ≤ 1 / 2 := by
  obtain ⟨S, h1, h2, h | h | h | h⟩ := roundTiesEven_cases hm
  · rw [h.2, abs_le]; constructor <;> linarith [h.1]
  · rw [h.2.2, abs_le]; constructor <;> linarith [h.1]
  · rw [h.2.2, abs_le]; push_cast; constructor <;> linarith [h.1]
  · rw [h.2, abs_le]; push_cast; constructor <;> linarith [h.1]

/-- On a tie the rounded integer is even. -/
theorem roundTiesEven_even_of_tie {m : ℚ} (hm : 0 ≤ m) (h : |(roundTiesEven m : ℚ) - m| = 1 / 2) :
    roundTiesEven m % 2 = 0 := by
  obtain ⟨S, h1, h2, k | k | k | k⟩ := roundTiesEven_cases hm
  · rw [k.2, abs_of_nonpos (by linarith)] at h; linarith [k.1]
  · omega
  · omega
  · rw [k.2] at h; push_cast at h; rw [abs_of_nonneg (by linarith)] at h; linarith [k.1]

theorem roundTiesEven_mono {m m' : ℚ} (hm : 0 ≤ m) (h : m ≤ m') : roundTiesEven m ≤ roundTiesEven m' := by
  obtain ⟨S, a1, a2, a⟩ := roundTiesEven_cases hm
  obtain ⟨S', b1, b2, b⟩ := roundTiesEven_cases (hm.trans h)
  have hSS : S ≤ S' := by
    have : (S : ℚ) < S' + 1 := by linarith
    have : S < S' + 1 := by exact_mod_cast this
    omega
  rcases Nat.lt_or_ge S S' with hlt | hge
  · rcases a with a | a | a | a <;> rcases b with b | b | b | b <;> omega
  · obtain rfl : S = S' := by omega
    rcases a with a | a | a | a <;> rcases b with b | b | b | b
    all_goals first | omega | (exfalso; linarith [a.1, b.1]) 

theorem magnitude_pack_sub (s : Bool) {F : ℕ} (hF : F < 2 ^ P.fracBits) :
    magnitude (pack P s 0 F) = F * pow2 (P.emin - P.fracBits) := by
  simp [magnitude, Nat.mod_eq_of_lt hF]

theorem magnitude_pack_norm (s : Bool) {E F : ℕ} (hE : 0 < E) (hE' : E < 2 ^ P.expBits) (hF : F < 2 ^ P.fracBits) :
    magnitude (pack P s E F) = ((2 ^ P.fracBits + F : ℕ) : ℚ) * pow2 ((E : ℤ) - P.bias - P.fracBits) := by
  simp [magnitude, Nat.mod_eq_of_lt hF, Nat.mod_eq_of_lt hE', hE.ne']

@[simp] theorem sgn_infPat (s : Bool) : sgn (infPat P s) = s := by simp [infPat]

@[simp] theorem sgn_zeroPat (s : Bool) : sgn (zeroPat P s) = s := by simp [zeroPat]

@[simp] theorem isInf_infPat (s : Bool) : isInf (infPat P s) = true := by
  have := expMax_eq P
  simp [isInf_iff, infPat, Nat.mod_eq_of_lt (by omega : expMax P < 2 ^ P.expBits)]

@[simp] theorem isZero_zeroPat (s : Bool) : isZero (zeroPat P s) = true := by simp [isZero_iff, zeroPat]

@[simp] theorem sgn_assemble (s : Bool) (S : ℕ) (qt : ℤ) : sgn (assemble P s S qt) = s := by
  unfold assemble; simp only; split_ifs <;> simp

@[simp] theorem sgn_roundRNE (s : Bool) (v : ℚ) : sgn (roundRNE P s v) = s := by
  unfold roundRNE; simp only; split_ifs <;> simp

theorem emin_bias (P : Prec) : P.emin + P.bias = 1 := by cases P <;> decide

theorem emax_bias (P : Prec) : P.emax + P.bias + 1 = expMax P := by cases P <;> decide

/-- What `assemble` can do: for a significand up to one binade's width, at a quantum exponent that is the least one when
the significand is below the normal range, the result is finite with value S·2^qt, unless that value is past the range. -/
theorem assemble_spec (s : Bool) {S : ℕ} {qt : ℤ} (hS : S ≤ 2 ^ (P.fracBits + 1)) (hq : P.emin - P.fracBits ≤ qt)
    (hsub : S < 2 ^ P.fracBits → qt = P.emin - P.fracBits) (hmax : S * pow2 qt < pow2 (P.emax + 1)) :
    isFinite (assemble P s S qt) = true ∧ magnitude (assemble P s S qt) = S * pow2 qt := by
  have hb := emin_bias P
  have hbm := emax_bias P
  have he := expMax_eq P
  have hm := expMax_pos P
  -- the significand and the quantum after the carry
  have core : ∀ (S' : ℕ) (qt' : ℤ), S' < 2 ^ (P.fracBits + 1) → 2 ^ P.fracBits ≤ S' → P.emin - P.fracBits ≤ qt' →
      (S' : ℚ) * pow2 qt' < pow2 (P.emax + 1) →
      isFinite (if (expMax P : ℤ) ≤ qt' + P.fracBits + P.bias then infPat P s
        else pack P s (qt' + P.fracBits + P.bias).toNat (S' - 2 ^ P.fracBits)) = true ∧
      magnitude (if (expMax P : ℤ) ≤ qt' + P.fracBits + P.bias then infPat P s
        else pack P s (qt' + P.fracBits + P.bias).toNat (S' - 2 ^ P.fracBits)) = S' * pow2 qt' := by
    intro S' qt' h1 h2 h3 h4
    have hlt : qt' + P.fracBits < P.emax + 1 := by
      have : pow2 (qt' + P.fracBits) < pow2 (P.emax + 1) := by
        refine lt_of_le_of_lt ?_ h4
        have : ((2 ^ P.fracBits : ℕ) : ℚ) ≤ S' := by exact_mod_cast h2
        rw [pow2_eq_zpow, pow2_eq_zpow, zpow_add₀ (by norm_num), mul_comm]
        push_cast at this
        rw [zpow_natCast]
        gcongr
      rw [pow2_eq_zpow, pow2_eq_zpow] at this
      exact (zpow_lt_zpow_iff_right₀ (by norm_num : (1:ℚ) < 2)).1 this
    rw [if_neg (by omega)]
    have hE0 : 0 < (qt' + P.fracBits + P.bias).toNat := by omega
    have hE1 : (qt' + P.fracBits + P.bias).toNat < expMax P := by omega
    have hF : S' - 2 ^ P.fracBits < 2 ^ P.fracBits := by rw [pow_succ] at h1; omega
    constructor
    · rw [isFinite_iff, expf_pack, Nat.mod_eq_of_lt (by omega)]; exact hE1
    · rw [magnitude_pack_norm s hE0 (by omega) hF]
      have : 2 ^ P.fracBits + (S' - 2 ^ P.fracBits) = S' := by omega
      rw [this]; congr 2; omega
  unfold assemble
  simp only
  by_cases hc : S = 2 ^ (P.fracBits + 1)
  · have hv : ((2 ^ P.fracBits : ℕ) : ℚ) * pow2 (qt + 1) = S * pow2 qt := by
      rw [hc, pow2_eq_zpow, pow2_eq_zpow, zpow_add₀ (by norm_num), pow_succ]; push_cast; ring
    simp only [hc, if_true, le_refl]
    rw [← hc, ← hv]
    exact core _ _ (Nat.pow_lt_pow_right (by decide) (by omega)) le_rfl (by omega) (by rw [hv]; exact hmax)
  · simp only [hc, if_false]
    by_cases hn : 2 ^ P.fracBits ≤ S
    · rw [if_pos hn]
      exact core S qt (by omega) hn hq hmax
    · rw [if_neg hn]
      constructor
      · rw [isFinite_iff, expf_pack]; simp; omega
      · rw [magnitude_pack_sub s (by omega), hsub (by omega)]

/-- RoundRNE of a positive number below the overflow bound: finite, and its magnitude is the quotient by the quantum,
rounded to an integer with ties to even, times the quantum (R19). -/
theorem roundRNE_spec (s : Bool) {v : ℚ} (hv : 0 < v) (hov : v < (2 - pow2 (-(P.fracBits + 1))) * pow2 P.emax) :
    isFinite (roundRNE P s v) = true ∧
    magnitude (roundRNE P s v) = roundTiesEven (v / pow2 (quantumExp P v)) * pow2 (quantumExp P v) := by
  obtain ⟨l1, l2⟩ := floorLog2_spec hv
  have hq0 := pow2_pos (quantumExp P v)
  have hm0 : 0 ≤ v / pow2 (quantumExp P v) := (div_pos hv hq0).le
  have hqe : quantumExp P v + P.fracBits = max (floorLog2 v) P.emin := by unfold quantumExp; omega
  have two : (2:ℚ) ≠ 0 := by norm_num
  have hup : v / pow2 (quantumExp P v) < 2 ^ (P.fracBits + 1) := by
    rw [div_lt_iff₀ hq0]
    refine lt_of_lt_of_le l2 ?_
    rw [pow2_eq_zpow, pow2_eq_zpow, ← zpow_natCast, ← zpow_add₀ two]
    exact zpow_le_zpow_right₀ (by norm_num) (by push_cast; omega)
  have hle : roundTiesEven (v / pow2 (quantumExp P v)) ≤ 2 ^ (P.fracBits + 1) := by
    have := roundTiesEven_mono hm0 (m' := ((2 ^ (P.fracBits + 1) : ℕ) : ℚ)) (by push_cast; exact hup.le)
    rwa [roundTiesEven_natCast] at this
  have hemax : floorLog2 v ≤ P.emax := by
    have h2 : v < pow2 (P.emax + 1) := by
      refine hov.trans_le ?_
      have := pow2_pos (-(P.fracBits + 1 : ℤ))
      have h3 := pow2_pos P.emax
      have : pow2 (P.emax + 1) = 2 * pow2 P.emax := by rw [pow2_eq_zpow, pow2_eq_zpow, zpow_add₀ two]; ring
      rw [this]; nlinarith
    have := lt_of_le_of_lt l1 h2
    rw [pow2_eq_zpow, pow2_eq_zpow] at this
    have := (zpow_lt_zpow_iff_right₀ (by norm_num : (1:ℚ) < 2)).1 this
    omega
  have heminmax : P.emin ≤ P.emax := by cases P <;> decide
  have hmax : (roundTiesEven (v / pow2 (quantumExp P v)) : ℚ) * pow2 (quantumExp P v) < pow2 (P.emax + 1) := by
    by_cases hqe' : quantumExp P v + P.fracBits = P.emax
    · -- the top binade: the overflow bound keeps the rounded significand below the carry
      have hm : v / pow2 (quantumExp P v) < 2 ^ (P.fracBits + 1) - 1 / 2 := by
        rw [div_lt_iff₀ hq0]
        refine hov.trans_le (le_of_eq ?_)
        rw [← hqe']
        simp only [pow2_eq_zpow]
        rw [zpow_add₀ two, zpow_neg, zpow_add₀ two, zpow_natCast, pow_succ]
        field_simp
      have hlt : roundTiesEven (v / pow2 (quantumExp P v)) < 2 ^ (P.fracBits + 1) := by
        by_contra hge
        have heq : roundTiesEven (v / pow2 (quantumExp P v)) = 2 ^ (P.fracBits + 1) := by omega
        have := abs_roundTiesEven_sub_le hm0
        rw [heq, abs_le] at this
        push_cast at this
        linarith [this.2]
      have e2 : pow2 (P.emax + 1) = 2 ^ (P.fracBits + 1) * pow2 (quantumExp P v) := by
        rw [← hqe', pow2_eq_zpow, pow2_eq_zpow, ← zpow_natCast, ← zpow_add₀ two]; congr 1; push_cast; ring
      rw [e2]
      have : (roundTiesEven (v / pow2 (quantumExp P v)) : ℚ) < 2 ^ (P.fracBits + 1) := by exact_mod_cast hlt
      gcongr
    · have : (roundTiesEven (v / pow2 (quantumExp P v)) : ℚ) ≤ 2 ^ (P.fracBits + 1) := by exact_mod_cast hle
      calc _ ≤ (2:ℚ) ^ (P.fracBits + 1) * pow2 (quantumExp P v) := by gcongr
        _ < _ := by
          rw [pow2_eq_zpow, pow2_eq_zpow, ← zpow_natCast, ← zpow_add₀ two]
          apply zpow_lt_zpow_right₀ (by norm_num)
          push_cast; omega
  have hsub : roundTiesEven (v / pow2 (quantumExp P v)) < 2 ^ P.fracBits → quantumExp P v = P.emin - P.fracBits := by
    intro hlt
    by_contra hne
    have hgt : P.emin < floorLog2 v := by unfold quantumExp at hne; omega
    have hge : ((2 ^ P.fracBits : ℕ) : ℚ) ≤ v / pow2 (quantumExp P v) := by
      rw [le_div_iff₀ hq0]
      refine le_trans (le_of_eq ?_) l1
      have : floorLog2 v = P.fracBits + quantumExp P v := by unfold quantumExp; omega
      rw [this, pow2_eq_zpow, pow2_eq_zpow, zpow_add₀ two]; push_cast; rw [zpow_natCast]
    have := roundTiesEven_mono (by positivity) hge
    rw [roundTiesEven_natCast] at this
    omega
  unfold roundRNE
  rw [if_neg hv.ne', if_neg (not_le.2 hov)]
  exact assemble_spec s hle (by unfold quantumExp; omega) hsub hmax

end Sys2Proof.Machine
end

