-- ==== Sys2Proof/Laws/NaN.lean ====
section
/-! SUPPORT. Which NaN a value can be (spec/00_scope.md R17): no operation, no table and no scaling turns operands that
are cNaN or no NaN into another NaN. -/

namespace Sys2Proof.Machine

open Sys2Proof

variable {P : Prec}

@[simp] theorem quiet_cNaN (P : Prec) : quiet (cNaN P) = cNaN P := by cases P <;> decide

@[simp] theorem isNaN_cNaN (P : Prec) : isNaN (cNaN P) = true := by cases P <;> decide

@[simp] theorem isNaN_infPat (s : Bool) : isNaN (infPat P s) = false := by simp [isNaN, infPat]

@[simp] theorem isNaN_zeroPat (s : Bool) : isNaN (zeroPat P s) = false := by simp [isNaN, zeroPat]

/-- A pattern whose exponent field lies below the all-ones field is no NaN. -/
theorem isNaN_pack {s : Bool} {E F : ℕ} (h : E < expMax P) : isNaN (pack P s E F) = false := by
  have he := expMax_eq P
  rw [isNaN, expf_pack, Nat.mod_eq_of_lt (by omega), Bool.and_eq_false_iff, beq_eq_false_iff_ne]
  exact .inl h.ne

/-- `assemble` makes no NaN. -/
@[simp] theorem isNaN_assemble (s : Bool) (S : ℕ) (qt : ℤ) : isNaN (assemble P s S qt) = false := by
  have hp := expMax_pos P
  unfold assemble
  simp only
  generalize (if S = 2 ^ (P.fracBits + 1) then 2 ^ P.fracBits else S) = S'
  generalize (if S = 2 ^ (P.fracBits + 1) then qt + 1 else qt) = q
  by_cases hS : 2 ^ P.fracBits ≤ S'
  · rw [if_pos hS]
    by_cases hE : (expMax P : ℤ) ≤ q + P.fracBits + P.bias
    · rw [if_pos hE]; exact isNaN_infPat s
    · rw [if_neg hE]; exact isNaN_pack (by omega)
  · rw [if_neg hS]; exact isNaN_pack (by omega)

/-- RoundRNE makes no NaN (R19). -/
@[simp] theorem isNaN_roundRNE (s : Bool) (v : ℚ) : isNaN (roundRNE P s v) = false := by
  unfold roundRNE; simp only; split_ifs <;> simp

@[simp] theorem isNaN_roundVal (v : ℚ) : isNaN (roundVal P v) = false := by simp [roundVal]

theorem CanonicalNaN.of_not {v : Pat P} (h : isNaN v = false) : CanonicalNaN v := by simp [CanonicalNaN, h]

/-- A NaN that is canonical is its own quieting. -/
theorem CanonicalNaN.quiet {v : Pat P} (h : CanonicalNaN v) (hn : isNaN v = true) : CanonicalNaN (Machine.quiet v) := by
  rw [h hn, quiet_cNaN]; exact fun _ => rfl

@[simp] theorem canonicalNaN_cNaN (P : Prec) : CanonicalNaN (cNaN P) := fun _ => rfl

theorem canonicalNaN_canonNaN (v : Pat P) : CanonicalNaN (canonNaN v) := by
  unfold CanonicalNaN canonNaN; split <;> simp_all

/-- A value that is canonical already is left as it stands. -/
theorem CanonicalNaN.canonNaN_eq {v : Pat P} (h : CanonicalNaN v) : canonNaN v = v := by
  unfold canonNaN; split
  · exact (h (by assumption)).symm
  · rfl

theorem CanonicalNaN.fadd {a b : Pat P} (ha : CanonicalNaN a) (hb : CanonicalNaN b) : CanonicalNaN (fadd a b) := by
  unfold Machine.fadd
  split_ifs <;> first
    | exact ha.quiet (by assumption)
    | exact hb.quiet (by assumption)
    | exact canonicalNaN_cNaN P
    | assumption
    | exact .of_not (by simp)

theorem CanonicalNaN.fsub {a b : Pat P} (ha : CanonicalNaN a) (hb : CanonicalNaN b) : CanonicalNaN (fsub a b) := by
  unfold Machine.fsub
  split_ifs
  · exact ha.quiet (by assumption)
  · exact hb.quiet (by assumption)
  · exact ha.fadd (.of_not (by simp_all))

theorem CanonicalNaN.fmul {a b : Pat P} (ha : CanonicalNaN a) (hb : CanonicalNaN b) : CanonicalNaN (fmul a b) := by
  unfold Machine.fmul
  simp only
  split_ifs <;> first
    | exact ha.quiet (by assumption)
    | exact hb.quiet (by assumption)
    | exact canonicalNaN_cNaN P
    | exact .of_not (by simp)

theorem CanonicalNaN.fdiv {a b : Pat P} (ha : CanonicalNaN a) (hb : CanonicalNaN b) : CanonicalNaN (fdiv a b) := by
  unfold Machine.fdiv
  simp only
  split_ifs <;> first
    | exact ha.quiet (by assumption)
    | exact hb.quiet (by assumption)
    | exact canonicalNaN_cNaN P
    | exact .of_not (by simp)

theorem CanonicalNaN.ffma {a b c : Pat P} (ha : CanonicalNaN a) (hb : CanonicalNaN b) (hc : CanonicalNaN c) :
    CanonicalNaN (ffma a b c) := by
  unfold Machine.ffma
  simp only
  split_ifs <;> first
    | exact ha.quiet (by assumption)
    | exact hb.quiet (by assumption)
    | exact hc.quiet (by assumption)
    | exact canonicalNaN_cNaN P
    | exact hc
    | exact .of_not (by simp)

/-- FD.SCALE keeps a NaN canonical (40_float_decomposer.md R137). -/
theorem CanonicalNaN.scalePat {v : Pat P} (h : CanonicalNaN v) (n : ℤ) : CanonicalNaN (scalePat v n) := by
  unfold Machine.scalePat
  split_ifs <;> first
    | exact h.quiet (by assumption)
    | exact h
    | exact .of_not (by simp)

theorem CanonicalNaN.horner {fma : Bool} {t : Pat P} (ht : CanonicalNaN t) :
    ∀ {c0 : Pat P} {cs : List (Pat P)}, CanonicalNaN c0 → (∀ a ∈ cs, CanonicalNaN a) → CanonicalNaN (horner fma t c0 cs)
  | _, [], h0, _ => h0
  | _, c1 :: cs, h0, h => by
    have ih : CanonicalNaN (Machine.horner fma t c1 cs) :=
      CanonicalNaN.horner ht (h c1 List.mem_cons_self) fun a ha => h a (List.mem_cons_of_mem c1 ha)
    unfold Machine.horner hornerStep
    split
    · exact ih.ffma ht h0
    · exact (ih.fmul ht).fadd h0

/-- The value of a table whose coefficients are canonical, at a canonical argument (42_poly_evaluator.md R195). -/
theorem CanonicalNaN.evalTable {fma : Bool} {T : Table P} {x : Pat P} (hx : CanonicalNaN x) (h0 : CanonicalNaN T.c0)
    (hc : ∀ a ∈ T.cs, CanonicalNaN a) (g0 : CanonicalNaN T.q0) (hq : ∀ a ∈ T.qs, CanonicalNaN a) :
    CanonicalNaN (evalTable fma T x) := by
  unfold Machine.evalTable
  split
  · exact hx.horner h0 hc
  · exact (hx.fmul hx).horner h0 hc
  · exact hx.fmul ((hx.fmul hx).horner h0 hc)
  · exact (hx.horner h0 hc).fdiv (hx.horner g0 hq)

theorem canonicalNaN_finiteCoeff (x : Pat P) : CanonicalNaN (finiteCoeff x) := by
  refine .of_not ?_
  unfold finiteCoeff
  split
  · rename_i h
    rw [isFinite_iff] at h
    simp [isNaN, h.ne]
  · simp

/-- Every table of every configuration gives no NaN but cNaN at an argument that is no NaN (R17, R192, R195). -/
theorem CanonicalNaN.polyEval (c : Cfg) (t : TableId) {x : Pat P} (hx : CanonicalNaN x) : CanonicalNaN (polyEval c t x) := by
  refine hx.evalTable (canonicalNaN_finiteCoeff _) ?_ (canonicalNaN_finiteCoeff _) ?_ <;>
  · intro a ha
    obtain ⟨b, -, rfl⟩ := List.mem_map.1 ha
    exact canonicalNaN_finiteCoeff b

/-- The subtraction of ATAN's class 1 keeps a NaN canonical (46_inverse_trig.md R318). -/
theorem CanonicalNaN.atanReciprocal (c : Cfg) (x : Pat P) {E : Pat P} (hE : CanonicalNaN E) :
    CanonicalNaN (atanReciprocal c x E) := by
  have hh : CanonicalNaN (signedPiHalf x) := .of_not (by
    have : isNaN (kPiHalf P) = false := by cases P <;> decide
    unfold signedPiHalf; split <;> simp [this])
  unfold Machine.atanReciprocal
  simp only
  split
  · exact .of_not (by simp)
  · exact hh.fsub hE

end Sys2Proof.Machine
end

