-- ==== Sys2Proof/Laws/PerInstr.lean ====
section
/-! SUPPORT. What holds of every command as syntax: the fields of its encoding (spec/30_encoding.md R90), one lemma per
command. -/

namespace Sys2Proof.Laws.EncodeFields

open Sys2Proof

/-- The fields of a command's word: P and WC are the command's, the reserved bits are 0 (R90). -/
def Statement (i : Instr) : Prop :=
  precField (encode i) = i.prec ∧ laneOfCode (wcField (encode i)) = some i.lanes ∧
  reservedLow (encode i) = 0 ∧ reservedHigh (encode i) = 0

theorem fdDecomp (p : Prec) (n : LaneCount) : Statement (.fdDecomp p n) := by
  simp [Statement, encode, Instr.prec, Instr.lanes]

theorem fdCompose (p : Prec) (n : LaneCount) : Statement (.fdCompose p n) := by
  simp [Statement, encode, Instr.prec, Instr.lanes]

theorem fdNorm (p : Prec) (n : LaneCount) : Statement (.fdNorm p n) := by
  simp [Statement, encode, Instr.prec, Instr.lanes]

theorem fdScale (p : Prec) (n : LaneCount) : Statement (.fdScale p n) := by
  simp [Statement, encode, Instr.prec, Instr.lanes]

theorem rrTrig (p : Prec) (n : LaneCount) : Statement (.rrTrig p n) := by
  simp [Statement, encode, Instr.prec, Instr.lanes]

theorem rrExp2 (p : Prec) (n : LaneCount) : Statement (.rrExp2 p n) := by
  simp [Statement, encode, Instr.prec, Instr.lanes]

theorem rrAtan (p : Prec) (n : LaneCount) : Statement (.rrAtan p n) := by
  simp [Statement, encode, Instr.prec, Instr.lanes]

theorem peEval (p : Prec) (n : LaneCount) (t : TableId) : Statement (.peEval p n t) := by
  simp [Statement, encode, Instr.prec, Instr.lanes]

theorem svResolve (p : Prec) (n : LaneCount) (f : FnId) : Statement (.svResolve p n f) := by
  simp [Statement, encode, Instr.prec, Instr.lanes]

theorem sin (p : Prec) (n : LaneCount) : Statement (.sin p n) := by
  simp [Statement, encode, Instr.prec, Instr.lanes]

theorem cos (p : Prec) (n : LaneCount) : Statement (.cos p n) := by
  simp [Statement, encode, Instr.prec, Instr.lanes]

theorem tan (p : Prec) (n : LaneCount) : Statement (.tan p n) := by
  simp [Statement, encode, Instr.prec, Instr.lanes]

theorem asin (p : Prec) (n : LaneCount) : Statement (.asin p n) := by
  simp [Statement, encode, Instr.prec, Instr.lanes]

theorem acos (p : Prec) (n : LaneCount) : Statement (.acos p n) := by
  simp [Statement, encode, Instr.prec, Instr.lanes]

theorem atan (p : Prec) (n : LaneCount) : Statement (.atan p n) := by
  simp [Statement, encode, Instr.prec, Instr.lanes]

theorem atan2 (p : Prec) (n : LaneCount) : Statement (.atan2 p n) := by
  simp [Statement, encode, Instr.prec, Instr.lanes]

theorem exp (p : Prec) (n : LaneCount) : Statement (.exp p n) := by
  simp [Statement, encode, Instr.prec, Instr.lanes]

theorem exp2 (p : Prec) (n : LaneCount) : Statement (.exp2 p n) := by
  simp [Statement, encode, Instr.prec, Instr.lanes]

theorem exp10 (p : Prec) (n : LaneCount) : Statement (.exp10 p n) := by
  simp [Statement, encode, Instr.prec, Instr.lanes]

theorem log (p : Prec) (n : LaneCount) : Statement (.log p n) := by
  simp [Statement, encode, Instr.prec, Instr.lanes]

theorem log2 (p : Prec) (n : LaneCount) : Statement (.log2 p n) := by
  simp [Statement, encode, Instr.prec, Instr.lanes]

theorem log10 (p : Prec) (n : LaneCount) : Statement (.log10 p n) := by
  simp [Statement, encode, Instr.prec, Instr.lanes]

end Sys2Proof.Laws.EncodeFields
end

