-- ==== Sys2Proof/Laws/TwoOverPi.lean ====
section
/-! SUPPORT. The constant of the exact trig reduction (spec/41_range_reducer.md R162): 2/π lies between `twoOverPi`
and `twoOverPi` + 2^-1280, and no product with a finite value comes nearer to a half-integer than that error, so the
nearest integer is the one the exact real product has. -/

namespace Sys2Proof.Machine

open Sys2Proof

variable {P : Prec}

/-- Partial sum of the series of arctan(1/k): n terms. -/
def arctanSum (k : ℕ) : ℕ → ℚ
  | 0 => 0
  | n + 1 => arctanSum k n + (if n % 2 = 0 then 1 else -1) * mkRat 1 ((2 * n + 1) * k ^ (2 * n + 1))

theorem arctanSum_cast (k : ℕ) (n : ℕ) :
    ((arctanSum k n : ℚ) : ℝ) = ∑ i ∈ Finset.range n, (-1) ^ i * (((k : ℝ)⁻¹) ^ (2 * i + 1) / (2 * i + 1)) := by
  induction n with
  | zero => simp [arctanSum]
  | succ n ih =>
    rw [arctanSum, Finset.sum_range_succ, Rat.cast_add, ih]
    congr 1
    have h1 : ((if n % 2 = 0 then 1 else -1 : ℚ)) = (-1) ^ n := by
      split
      · rw [Even.neg_one_pow (Nat.even_iff.2 (by assumption))]
      · rw [Odd.neg_one_pow (Nat.odd_iff.2 (by omega))]
    rw [h1, Rat.mkRat_eq_div]
    push_cast
    rw [inv_pow]
    by_cases hk : (k : ℝ) = 0
    · simp [hk]
    · field_simp

theorem arctanSum_bounds {k : ℕ} (hk : 2 ≤ k) (n : ℕ) :
    ((arctanSum k (2 * n) : ℚ) : ℝ) ≤ Real.arctan (k : ℝ)⁻¹ ∧
    Real.arctan (k : ℝ)⁻¹ ≤ ((arctanSum k (2 * n + 1) : ℚ) : ℝ) := by
  have hk' : (2 : ℝ) ≤ k := by exact_mod_cast hk
  have hx0 : (0 : ℝ) < (k : ℝ)⁻¹ := by positivity
  have hx1 : (k : ℝ)⁻¹ < 1 := by
    rw [inv_lt_one₀ (by linarith)]; linarith
  have hs := (Real.hasSum_arctan (x := (k : ℝ)⁻¹) (by rw [Real.norm_of_nonneg hx0.le]; exact hx1)).tendsto_sum_nat
  have hs' : Filter.Tendsto (fun n => ∑ i ∈ Finset.range n, (-1 : ℝ) ^ i * (((k : ℝ)⁻¹) ^ (2 * i + 1) / (2 * i + 1)))
      Filter.atTop (nhds (Real.arctan (k : ℝ)⁻¹)) := by
    refine hs.congr (fun n => Finset.sum_congr rfl (fun i _ => ?_))
    push_cast; ring
  have ha : Antitone (fun i : ℕ => (((k : ℝ)⁻¹) ^ (2 * i + 1) / (2 * i + 1 : ℝ))) := by
    intro i j hij
    have hij' : (i : ℝ) ≤ j := by exact_mod_cast hij
    apply div_le_div₀ (by positivity) _ (by positivity) (by linarith)
    exact pow_le_pow_of_le_one hx0.le hx1.le (by omega)
  rw [arctanSum_cast, arctanSum_cast]
  exact ⟨ha.alternating_series_le_tendsto hs' n, ha.tendsto_le_alternating_series hs' n⟩

/-- Rational bounds of π by Machin's formula. -/
def piLow : ℚ := 4 * (4 * arctanSum 5 282 - arctanSum 239 85)

/-- A rational number not below π, by Machin's formula with one term more in one series and one less in the other. -/
def piHigh : ℚ := 4 * (4 * arctanSum 5 283 - arctanSum 239 84)

theorem piLow_le : (piLow : ℝ) ≤ Real.pi := by
  have h := Real.four_mul_arctan_inv_5_sub_arctan_inv_239
  have a := (arctanSum_bounds (k := 5) (by decide) 141).1
  have b := (arctanSum_bounds (k := 239) (by decide) 42).2
  unfold piLow; push_cast at *
  linarith

theorem le_piHigh : Real.pi ≤ (piHigh : ℝ) := by
  have h := Real.four_mul_arctan_inv_5_sub_arctan_inv_239
  have a := (arctanSum_bounds (k := 5) (by decide) 141).2
  have b := (arctanSum_bounds (k := 239) (by decide) 42).1
  unfold piHigh; push_cast at *
  linarith

theorem piLow_pos : 0 < piLow := by decide +kernel

theorem twoOverPi_lt_rat : twoOverPi * piHigh < 2 := by decide +kernel

/-- The unit of the last place of `twoOverPi`. -/
def twoOverPiTail : ℚ := mkRat 1 (2 ^ 1280)

theorem lt_twoOverPi_rat : 2 < (twoOverPi + twoOverPiTail) * piLow := by decide +kernel

/-! ### No product comes near a half-integer -/

/-- A fraction strictly on the other side bounds every numerator and denominator below it. -/
theorem abs_comb_ge {A B p d p' d' M m : Int} (hdet : p * d' - p' * d = 1 ∨ p * d' - p' * d = -1)
    (hd : 0 < d) (hM : 0 < M) (hM' : M < d')
    (hs : (d * A - p * B < 0 ∧ 0 < d' * A - p' * B) ∨ (0 < d * A - p * B ∧ d' * A - p' * B < 0)) :
    |d * A - p * B| ≤ |M * A - m * B| := by
  obtain ⟨e, he, hee⟩ : ∃ e : Int, p * d' - p' * d = e ∧ (e = 1 ∨ e = -1) := ⟨_, rfl, hdet⟩
  obtain ⟨u, hu⟩ : ∃ u : Int, u = e * (m * d' - p' * M) := ⟨_, rfl⟩
  obtain ⟨v, hv⟩ : ∃ v : Int, v = e * (p * M - m * d) := ⟨_, rfl⟩
  have hee' : e * e = 1 := by rcases hee with h | h <;> subst h <;> norm_num
  have h1 : M = u * d + v * d' := by
    rw [hu, hv]; linear_combination (-M) * hee' + (-e * M) * he
  have h2 : m = u * p + v * p' := by
    rw [hu, hv]; linear_combination (-m) * hee' + (-e * m) * he
  have hexp : M * A - m * B = u * (d * A - p * B) + v * (d' * A - p' * B) := by
    rw [h1, h2]; ring
  have hu0 : u ≠ 0 := by
    intro h0
    rw [h0] at h1
    have hv1 : 0 < v := by by_contra hc; nlinarith
    nlinarith
  rw [hexp]
  rcases lt_or_gt_of_ne hu0 with hneg | hpos
  · have hv1 : 0 < v := by by_contra hc; nlinarith
    rcases hs with ⟨ha, hb⟩ | ⟨ha, hb⟩
    · rw [abs_of_neg ha, abs_of_pos (by nlinarith)]; nlinarith
    · rw [abs_of_pos ha, abs_of_neg (by nlinarith)]; nlinarith
  · have hv1 : v ≤ 0 := by by_contra hc; nlinarith
    rcases hs with ⟨ha, hb⟩ | ⟨ha, hb⟩
    · rw [abs_of_neg ha, abs_of_neg (by nlinarith)]; nlinarith
    · rw [abs_of_pos ha, abs_of_pos (by nlinarith)]; nlinarith

/-- The continued fraction of a/b, stopped at the first denominator of 2^53 or more: the last two convergents. -/
def convergents : Nat → Nat → Nat → Nat → Nat → Nat → Nat → Nat × Nat × Nat × Nat
  | 0, _, _, p, d, p', d' => (p, d, p', d')
  | fuel + 1, a, b, p, d, p', d' =>
    if 2 ^ 53 ≤ d' then (p, d, p', d')
    else convergents fuel b (a % b) p' d' (a / b * p' + p) (a / b * d' + d)

/-- The numerator of `twoOverPi` over 2^1280. -/
def twoOverPiNum : Nat := twoOverPiWords.foldl (fun acc w => acc * 2 ^ 64 + w) 0

/-- The two convergents c are neighbours on opposite sides of A/B, the first with a positive denominator and at least C
away in the cross product, the second with a denominator of at least 2^53. -/
def certOk (A B C : Nat) (c : Nat × Nat × Nat × Nat) : Bool :=
  (c.1 * c.2.2.2 + 1 == c.2.2.1 * c.2.1 || c.2.2.1 * c.2.1 + 1 == c.1 * c.2.2.2) &&
  decide (0 < c.2.1) && decide (2 ^ 53 ≤ c.2.2.2) &&
  ((decide (c.2.1 * A + C ≤ c.1 * B) && decide (c.2.2.1 * B < c.2.2.2 * A)) ||
   (decide (c.1 * B + C ≤ c.2.1 * A) && decide (c.2.2.2 * A < c.2.2.1 * B)))

/-- The certificate of `certOk` for the exponent j. -/
def gapOk (j : Nat) : Bool :=
  certOk (twoOverPiNum * 2 ^ j) (2 ^ 1332) (2 ^ (53 + j)) (convergents 200 (twoOverPiNum * 2 ^ j) (2 ^ 1332) 0 1 1 0)

/-- f holds of every number below n. -/
def allBelow (f : Nat → Bool) : Nat → Bool
  | 0 => true
  | n + 1 => f n && allBelow f n

theorem gapOk_all : allBelow gapOk 1025 = true := by decide +kernel

theorem allBelow_spec {f : Nat → Bool} : ∀ {n : Nat}, allBelow f n = true → ∀ i < n, f i = true
  | 0, _, _, h => absurd h (Nat.not_lt_zero _)
  | n + 1, h, i, hi => by
    simp only [allBelow, Bool.and_eq_true] at h
    rcases Nat.lt_succ_iff_lt_or_eq.1 hi with h' | rfl
    · exact allBelow_spec h.2 i h'
    · exact h.1

/-- The multiples of 2^j·(2/π) stay away from the integers. -/
theorem gap_int {j : Nat} (hj : j ≤ 1024) {M : Nat} (h0 : 0 < M) (hM : M < 2 ^ 53) (m : Int) :
    (2 : Int) ^ (53 + j) ≤ |(M : Int) * ((twoOverPiNum : Int) * 2 ^ j) - m * 2 ^ 1332| := by
  have h := allBelow_spec gapOk_all j (by omega)
  unfold gapOk at h
  generalize convergents 200 _ _ 0 1 1 0 = c at h
  obtain ⟨p, d, p', d'⟩ := c
  generalize hA : twoOverPiNum * 2 ^ j = A at h
  generalize hB : 2 ^ 1332 = B at h
  generalize hC : 2 ^ (53 + j) = C at h
  simp only [certOk, Bool.and_eq_true, Bool.or_eq_true, beq_iff_eq, decide_eq_true_eq] at h
  obtain ⟨⟨⟨hdet, hd⟩, hd'⟩, hs⟩ := h
  have hAz : ((twoOverPiNum : Int) * 2 ^ j) = (A : Int) := by rw [← hA]; push_cast; rfl
  have hBz : ((2 : Int) ^ 1332) = (B : Int) := by rw [← hB]; push_cast; rfl
  have hCz : ((2 : Int) ^ (53 + j)) = (C : Int) := by rw [← hC]; push_cast; rfl
  have hCpos : 0 < C := hC ▸ by positivity
  rw [hAz, hBz, hCz]
  zify at hdet hd hs
  have key := abs_comb_ge (A := A) (B := B) (p := p) (d := d) (p' := p') (d' := d') (M := M) (m := m)
    (by rcases hdet with h | h
        · right; linarith
        · left; linarith) (by exact_mod_cast hd) (by exact_mod_cast h0) (by omega)
    (by rcases hs with ⟨a, b⟩ | ⟨a, b⟩
        · left; constructor <;> linarith [(by exact_mod_cast hCpos : (0 : Int) < C)]
        · right; constructor <;> linarith [(by exact_mod_cast hCpos : (0 : Int) < C)])
  refine le_trans ?_ key
  rcases hs with ⟨a, b⟩ | ⟨a, b⟩
  · rw [abs_of_nonpos (by linarith [(by exact_mod_cast hCpos : (0 : Int) < C)])]; linarith
  · rw [abs_of_nonneg (by linarith [(by exact_mod_cast hCpos : (0 : Int) < C)])]; linarith

/-! ### The same of patterns -/

theorem magnitude_form {x : Pat P} (hx : isFinite x = true) :
    ∃ (M : ℕ) (q : ℤ), M < 2 ^ 53 ∧ q ≤ 971 ∧ magnitude x = (M : ℚ) * 2 ^ q := by
  have hf := frac_lt x
  have he := (isFinite_iff x).1 hx
  by_cases h0 : expf x = 0
  · refine ⟨frac x, P.emin - P.fracBits, ?_, ?_, ?_⟩
    · exact hf.trans_le (by cases P <;> decide)
    · cases P <;> decide
    · rw [magnitude, if_pos h0, pow2_eq_zpow]
  · refine ⟨2 ^ P.fracBits + frac x, (expf x : ℤ) - P.bias - P.fracBits, ?_, ?_, ?_⟩
    · have : 2 ^ P.fracBits + 2 ^ P.fracBits ≤ 2 ^ 53 := by cases P <;> decide
      omega
    · have h1 : (expMax P : ℤ) - P.bias - P.fracBits ≤ 972 := by cases P <;> decide
      omega
    · rw [magnitude, if_neg h0, pow2_eq_zpow]

theorem twoOverPi_eq : twoOverPi = (twoOverPiNum : ℚ) / 2 ^ 1280 := by
  rw [twoOverPi, Rat.mkRat_eq_div]; push_cast; rfl

theorem twoOverPi_small : 0 < twoOverPi ∧ twoOverPi < 64 / 100 := by decide +kernel

theorem twoOverPiTail_eq : twoOverPiTail = 1 / 2 ^ 1280 := by
  rw [twoOverPiTail, Rat.mkRat_eq_div]; push_cast; rfl

theorem twoOverPiTail_pos : 0 < twoOverPiTail := by rw [twoOverPiTail_eq]; positivity

theorem magnitude_gap {x : Pat P} (hx : isFinite x = true) (n : ℤ) :
    magnitude x * twoOverPiTail < |magnitude x * twoOverPi - (n + 1 / 2)| := by
  obtain ⟨M, q, hM, hq, hm⟩ := magnitude_form hx
  have hT := twoOverPi_small
  have h0 : 0 ≤ magnitude x := magnitude_nonneg x
  rw [twoOverPiTail_eq, mul_one_div]
  rcases Nat.eq_zero_or_pos M with rfl | hMp
  · have : magnitude x = 0 := by rw [hm]; simp
    rw [this]
    simp only [zero_mul, zero_div, zero_sub, abs_neg, abs_pos]
    intro hc
    have : (2 * n + 1 : ℚ) = 0 := by linarith
    have : (2 * n + 1 : ℤ) = 0 := by exact_mod_cast this
    omega
  by_cases hq' : q < -53
  · have h1 : magnitude x < 1 / 2 := by
      rw [hm]
      calc (M : ℚ) * 2 ^ q < 2 ^ 53 * 2 ^ q := by
            have : (M : ℚ) < 2 ^ 53 := by exact_mod_cast hM
            exact mul_lt_mul_of_pos_right this (by positivity)
        _ ≤ 2 ^ 53 * 2 ^ (-54 : ℤ) := by
            exact mul_le_mul_of_nonneg_left (zpow_le_zpow_right₀ (by norm_num) (by omega)) (by positivity)
        _ = 1 / 2 := by norm_num
    have h2 : magnitude x * twoOverPi < 32 / 100 := by nlinarith
    have h3 : 0 ≤ magnitude x * twoOverPi := mul_nonneg h0 hT.1.le
    have h4 : magnitude x / 2 ^ 1280 < 18 / 100 := by
      rw [div_lt_iff₀ (by positivity)]
      have : (100 : ℚ) ≤ 2 ^ 1280 := by
        calc (100 : ℚ) ≤ 2 ^ 7 := by norm_num
          _ ≤ 2 ^ 1280 := pow_le_pow_right₀ (by norm_num) (by norm_num)
      generalize (2 : ℚ) ^ 1280 = c at *
      linarith
    refine h4.trans_le ?_
    rcases le_or_gt 0 n with h | h
    · have : (0 : ℚ) ≤ n := by exact_mod_cast h
      rw [abs_of_nonpos (by linarith)]; linarith
    · have : (n : ℚ) ≤ -1 := by exact_mod_cast (by omega : n ≤ -1)
      rw [abs_of_nonneg (by linarith)]; linarith
  · obtain ⟨j, hj⟩ : ∃ j : ℕ, (j : ℤ) = q + 53 := ⟨(q + 53).toNat, by omega⟩
    have hg := gap_int (by omega : j ≤ 1024) hMp hM (2 * n + 1)
    have hg' : (2 : ℚ) ^ (53 + j) ≤ |(M : ℚ) * ((twoOverPiNum : ℚ) * 2 ^ j) - (2 * n + 1) * 2 ^ 1332| := by
      exact_mod_cast hg
    have hpow : (2 : ℚ) ^ q = 2 ^ j / 2 ^ 53 := by
      have : q = (j : ℤ) - (53 : ℕ) := by push_cast; omega
      rw [this, zpow_sub₀ (by norm_num), zpow_natCast, zpow_natCast]
    have e1 : magnitude x * twoOverPi - (n + 1 / 2) =
        ((M : ℚ) * ((twoOverPiNum : ℚ) * 2 ^ j) - (2 * n + 1) * 2 ^ 1332) / 2 ^ 1333 := by
      rw [hm, hpow, twoOverPi_eq]
      generalize (twoOverPiNum : ℚ) = N
      have : (2 : ℚ) ^ 1333 = 2 ^ 53 * 2 ^ 1280 := by rw [← pow_add]
      have h2 : (2 : ℚ) ^ 1333 = 2 * 2 ^ 1332 := by rw [← pow_succ']
      generalize (2 : ℚ) ^ 1333 = a at *
      generalize hb : (2 : ℚ) ^ 1332 = b at *
      generalize hc : (2 : ℚ) ^ 1280 = c at *
      have hb0 : b ≠ 0 := by rw [← hb]; positivity
      have hc0 : c ≠ 0 := by rw [← hc]; positivity
      have ha0 : a ≠ 0 := by rw [h2]; positivity
      rw [sub_div]
      congr 1
      · rw [this]; field_simp
      · rw [h2]; field_simp
    have e2 : magnitude x / 2 ^ 1280 = (M : ℚ) * 2 ^ j / 2 ^ 1333 := by
      rw [hm, hpow]
      have : (2 : ℚ) ^ 1333 = 2 ^ 53 * 2 ^ 1280 := by rw [← pow_add]
      rw [this]; generalize (2 : ℚ) ^ 1280 = c; field_simp
    rw [e1, e2, abs_div, abs_of_pos (by positivity : (0 : ℚ) < 2 ^ 1333)]
    refine div_lt_div_of_pos_right (lt_of_lt_of_le ?_ hg') (by positivity)
    rw [pow_add]
    have : (M : ℚ) < 2 ^ 53 := by exact_mod_cast hM
    exact mul_lt_mul_of_pos_right this (by positivity)

theorem val_gap {x : Pat P} (hx : isFinite x = true) (n : ℤ) :
    |val x| * twoOverPiTail < |val x * twoOverPi - (n + 1 / 2)| := by
  rw [abs_val]
  cases hs : sgn x
  · simpa [val, hs] using magnitude_gap hx n
  · have := magnitude_gap hx (-n - 1)
    rw [← abs_neg] at this
    have e : -(magnitude x * twoOverPi - (((-n - 1 : ℤ) : ℚ) + 1 / 2)) = val x * twoOverPi - (n + 1 / 2) := by
      simp only [val, hs]; push_cast; simp; ring
    rwa [e] at this

theorem twoOverPi_lt : ((twoOverPi : ℚ) : ℝ) < 2 / Real.pi := by
  have h : ((twoOverPi * piHigh : ℚ) : ℝ) < 2 := by exact_mod_cast twoOverPi_lt_rat
  rw [lt_div_iff₀ Real.pi_pos]
  have h0 : (0 : ℝ) < (twoOverPi : ℝ) := by exact_mod_cast twoOverPi_small.1
  push_cast at h
  exact (mul_le_mul_of_nonneg_left le_piHigh h0.le).trans_lt h

theorem lt_twoOverPi : 2 / Real.pi < ((twoOverPi : ℚ) : ℝ) + twoOverPiTail := by
  have h : (2 : ℝ) < (((twoOverPi + twoOverPiTail) * piLow : ℚ) : ℝ) := by exact_mod_cast lt_twoOverPi_rat
  rw [div_lt_iff₀ Real.pi_pos]
  have h0 : (0 : ℝ) < (twoOverPi : ℝ) := by exact_mod_cast twoOverPi_small.1
  have h1 : (0 : ℝ) < (twoOverPiTail : ℝ) := by exact_mod_cast twoOverPiTail_pos
  push_cast at h
  exact h.trans_le (mul_le_mul_of_nonneg_left piLow_le (add_pos h0 h1).le)

end Sys2Proof.Machine
end

