-- ==== Sys2Proof/Machine/Assembler.lean ====
section
/-! DEFINITION. The assembler text of a command and the host program notation (spec/30_encoding.md R106-R108). -/

namespace Sys2Proof.Machine

open Sys2Proof

/-- The lower-case mnemonic of a command (R93, R106). -/
def mnemonicText : Instr → String
  | .fdDecomp _ _ => "fd.decomp"
  | .fdCompose _ _ => "fd.compose"
  | .fdNorm _ _ => "fd.norm"
  | .fdScale _ _ => "fd.scale"
  | .rrTrig _ _ => "rr.trig"
  | .rrExp2 _ _ => "rr.exp2"
  | .rrAtan _ _ => "rr.atan"
  | .peEval _ _ _ => "pe.eval"
  | .svResolve _ _ _ => "sv.resolve"
  | .sin _ _ => "sin"
  | .cos _ _ => "cos"
  | .tan _ _ => "tan"
  | .asin _ _ => "asin"
  | .acos _ _ => "acos"
  | .atan _ _ => "atan"
  | .atan2 _ _ => "atan2"
  | .exp _ _ => "exp"
  | .exp2 _ _ => "exp2"
  | .exp10 _ _ => "exp10"
  | .log _ _ => "log"
  | .log2 _ _ => "log2"
  | .log10 _ _ => "log10"

/-- The pseudo-instructions that rename a command (R107). -/
def pseudoText : Instr → Option String
  | .fdNorm _ _ => some "frexp"
  | .fdScale _ _ => some "ldexp"
  | .fdDecomp _ _ | .fdCompose _ _ | .rrTrig _ _ | .rrExp2 _ _ | .rrAtan _ _ | .peEval _ _ _ | .svResolve _ _ _ => none
  | .sin _ _ | .cos _ _ | .tan _ _ | .asin _ _ | .acos _ _ | .atan _ _ | .atan2 _ _ => none
  | .exp _ _ | .exp2 _ _ | .exp10 _ _ | .log _ _ | .log2 _ _ | .log10 _ _ => none

/-- The type suffix (R106). -/
def typeText : Prec → String
  | .b32 => ".f32"
  | .b64 => ".f64"

/-- The lane suffix (R106). -/
def laneText : LaneCount → String
  | .x1 => ".x1"
  | .x2 => ".x2"
  | .x4 => ".x4"
  | .x8 => ".x8"
  | .x16 => ".x16"

/-- The name of a table in an AUX operand (R106). -/
def tableText : TableId → String
  | .sin => "sin"
  | .cos => "cos"
  | .asin => "asin"
  | .acos => "acos"
  | .atan => "atan"
  | .exp2 => "exp2"
  | .log2 => "log2"

/-- The name of a function in an AUX operand (R106). -/
def fnText : FnId → String
  | .sin => "sin"
  | .cos => "cos"
  | .tan => "tan"
  | .asin => "asin"
  | .acos => "acos"
  | .atan => "atan"
  | .atan2 => "atan2"
  | .exp => "exp"
  | .exp2 => "exp2"
  | .exp10 => "exp10"
  | .log => "log"
  | .log2 => "log2"
  | .log10 => "log10"

/-- The AUX operand, for PE.EVAL and SV.RESOLVE only (R106). -/
def auxText : Instr → String
  | .peEval _ _ t => " " ++ tableText t
  | .svResolve _ _ f => " " ++ fnText f
  | .fdDecomp _ _ | .fdCompose _ _ | .fdNorm _ _ | .fdScale _ _ | .rrTrig _ _ | .rrExp2 _ _ | .rrAtan _ _ => ""
  | .sin _ _ | .cos _ _ | .tan _ _ | .asin _ _ | .acos _ _ | .atan _ _ | .atan2 _ _ => ""
  | .exp _ _ | .exp2 _ _ | .exp10 _ _ | .log _ _ | .log2 _ _ | .log10 _ _ => ""

/-- The spellings of a command: with its lane suffix, without it when N = 1, and under its pseudo-instruction (R106,
R107). -/
def spellings (i : Instr) : List String :=
  let names := mnemonicText i :: (pseudoText i).toList
  let lanes := laneText i.lanes :: (if i.lanes = .x1 then [""] else [])
  names.flatMap fun m => lanes.map fun l => m ++ typeText i.prec ++ l ++ auxText i

/-- The commands of one precision and lane count (R93, R95, R96). -/
def commandsAt (p : Prec) (n : LaneCount) : List Instr :=
  [.fdDecomp p n, .fdCompose p n, .fdNorm p n, .fdScale p n, .rrTrig p n, .rrExp2 p n, .rrAtan p n] ++
  [TableId.sin, .cos, .asin, .acos, .atan, .exp2, .log2].map (.peEval p n) ++
  [FnId.sin, .cos, .tan, .asin, .acos, .atan, .atan2, .exp, .exp2, .exp10, .log, .log2, .log10].map (.svResolve p n) ++
  [.sin p n, .cos p n, .tan p n, .asin p n, .acos p n, .atan p n, .atan2 p n, .exp p n, .exp2 p n, .exp10 p n,
   .log p n, .log2 p n, .log10 p n]

/-- Every command (R90, R93). -/
def allCommands : List Instr :=
  [Prec.b32, .b64].flatMap fun p => [LaneCount.x1, .x2, .x4, .x8, .x16].flatMap fun n => commandsAt p n

/-- The command a line of assembler text stands for (R106, R107). -/
def parseCommand (line : String) : Option Instr := allCommands.find? fun i => (spellings i).contains line

/-- `wr <reg>, <value>` (R108). -/
def wrEvent (r : Reg) (v : Word) : HostEvent := .write (regOffset r) 8 v

/-- `rd <reg>` (R108). -/
def rdEvent (r : Reg) : HostEvent := .read (regOffset r) 8

/-- `run <command>` (R107). -/
def runEvent (i : Instr) : HostEvent := commandEvent (encode i)

/-- MemRead(addr, size) by an address of the host's space (00_scope.md R11, 20_memory.md R60). -/
def memReadEvent (c : Cfg) (addr size : Nat) : HostEvent := .read (hostOffset c addr) size

/-- MemWrite(addr, size, v) by an address of the host's space (00_scope.md R11, 20_memory.md R60). -/
def memWriteEvent (c : Cfg) (addr size : Nat) (v : Word) : HostEvent := .write (hostOffset c addr) size v

end Sys2Proof.Machine
end

