-- ==== Sys2Proof/Tests/Slice0.lean ====
section
/-! SUPPORT. The model's own tests: the well-formedness smoke test, a word written out for every command, the illegal words
of each clause, the worked examples of the command rules, single steps at the window, and for each statement with
hypotheses a concrete witness that meets them. Every expected value is spec/'s own: the rules' examples and
95_test_vectors.md, cited by section or vector. -/

namespace Sys2Proof.Tests

open Sys2Proof Sys2Proof.Machine Sys2Proof.Claims

set_option Elab.async false

/-- What a command leaves in lane j when every input lane is l. -/
def after (i : Instr) (l : LaneIn) (j : Fin 16) : Option LaneOut :=
  match exec i (uniform l) with
  | .next t => some (outLane t j)
  | .fault _ => none
  | .refused _ => none

/-- A lane with one float operand. -/
def lane (a : Word) : LaneIn := ⟨a, 0, 0, false⟩

/-- The state after one step, for a host that makes one access on the given state. -/
def afterAccess (ev : HostEvent) (s : State) : Option State :=
  match step { s with hostQueue := [ev] } with
  | .next t => some t
  | .fault _ => none
  | .refused _ => none

/-- The value the host reads at an offset. -/
def readAt (off : Int) (s : State) : Option (List Word) := (afterAccess (.read off 8) s).map State.hostReads

/-! ### Well-formedness -/

/-- R95, R101 clause 5: PE.EVAL names the ACOS table only when it is present. -/
theorem test_wellFormed_acos_table :
    (Instr.peEval .b32 .x1 .acos).wellFormedIn .identity = false ∧
    (Instr.peEval .b32 .x1 .acos).wellFormedIn .table = true := by decide

/-- A pattern literal of either precision. -/
def pat : (P : Prec) → BitVec 32 → BitVec 64 → Pat P
  | .b32, w, _ => w
  | .b64, _, w => w

/-- The configuration CFG-T of 95_test_vectors.md section 0 (the reduced values and the log2 values of the vectors used
here). -/
def cfgT : Cfg where
  basePage := 16
  coeff := fun t P =>
    match t with
    | .sin => ⟨.odd, onePat P, [pat P 0xBE2AAAAB 0xBFC5555555555555], 0, []⟩
    | .cos => ⟨.even, onePat P, [pat P 0xBF000000 0xBFE0000000000000], 0, []⟩
    | .asin => ⟨.odd, onePat P, [pat P 0x3E2AAAAB 0x3FC5555555555555], 0, []⟩
    | .acos => ⟨.plain, 0, [], 0, []⟩
    | .atan => ⟨.odd, onePat P, [pat P 0xBEAAAAAB 0xBFD5555555555555], 0, []⟩
    | .exp2 => ⟨.plain, onePat P, [pat P 0x3F317218 0x3FE62E42FEFA39EF], 0, []⟩
    | .log2 => ⟨.plain, 0, [onePat P], 0, []⟩
  peFma := false
  trigRrMax := fun _ => 1000
  reduceTrigVal := fun P _ => pat P 0x3EDBC095 0x3FDB7812AEEF4B9F
  trigQuadBig := fun _ _ => 0
  sinBig := fun P _ => pat P 0x7F800001 0x7FF0000000000001
  cosBig := fun P _ => onePat P
  asinSplit := fun _ => 1 / 2
  asinVal := fun P _ => pat P 0x3F591A99 0x3FF921FB54442D18
  acosMode := .identity
  acosVal := fun _ x => x
  log2Val := fun P _ => pat P 0x40400000 0x4008000000000000
  kLog2e := kLog2eDefault
  kLog2Ten := kLog2TenDefault
  kLn2 := kLn2Default
  kLog10Two := kLog10TwoDefault
  atan2ZZSign := fun sy _ => sy
  invTrigTol := .two
  tanTolNarrow := 2
  tanTolWide := 3
  accEverywhere := false

/-- CFG-T with every table but SIN's and COS's a RATIONAL 0/0, and SIN beyond TRIG_RR_MAX no NaN. -/
def cfgNaN : Cfg := { cfgT with coeff := fun _ _ => ⟨.rational, 0, [], 0, []⟩, sinBig := fun P _ => onePat P }

/-! ### Decoding: a word for every command (30_encoding.md R90, R93, R95, R96; 95_test_vectors.md 2.1) -/

/-- Fields from the top, as R90 lays them out: reserved 40, AUX 8, reserved 4, WC 3, P 1, OP 8. SIN binary32, N = 4. -/
theorem test_decode_sin_bits :
    decode (0b0#40 ++ 0b00000000#8 ++ 0b0000#4 ++ 0b010#3 ++ 0b0#1 ++ 0b01000000#8) = .ok (.sin .b32 .x4) := by rfl

/-- FD.NORM binary64, N = 16. -/
theorem test_decode_fdNorm_bits :
    decode (0b0#40 ++ 0b00000000#8 ++ 0b0000#4 ++ 0b100#3 ++ 0b1#1 ++ 0b00000011#8) = .ok (.fdNorm .b64 .x16) := by rfl

/-- RR.ATAN binary32, N = 8. -/
theorem test_decode_rrAtan_bits :
    decode (0b0#40 ++ 0b00000000#8 ++ 0b0000#4 ++ 0b011#3 ++ 0b0#1 ++ 0b00010010#8) = .ok (.rrAtan .b32 .x8) := by rfl

/-- PE.EVAL binary64, N = 2, table COS. -/
theorem test_decode_peEval_bits :
    decode (0b0#40 ++ 0b00000010#8 ++ 0b0000#4 ++ 0b001#3 ++ 0b1#1 ++ 0b00100000#8) = .ok (.peEval .b64 .x2 .cos) := by
  rfl

/-- SV.RESOLVE binary64, N = 16, function ATAN2. -/
theorem test_decode_svResolve_bits :
    decode (0b0#40 ++ 0b01001011#8 ++ 0b0000#4 ++ 0b100#3 ++ 0b1#1 ++ 0b00110000#8) =
      .ok (.svResolve .b64 .x16 .atan2) := by rfl

/-- ACOS binary32, N = 1. -/
theorem test_decode_acos_bits :
    decode (0b0#40 ++ 0b00000000#8 ++ 0b0000#4 ++ 0b000#3 ++ 0b0#1 ++ 0b01001001#8) = .ok (.acos .b32 .x1) := by rfl

/-- EXP10 binary32, N = 8. -/
theorem test_decode_exp10_bits :
    decode (0b0#40 ++ 0b00000000#8 ++ 0b0000#4 ++ 0b011#3 ++ 0b0#1 ++ 0b01010010#8) = .ok (.exp10 .b32 .x8) := by rfl

/-- LOG2 binary64, N = 4. -/
theorem test_decode_log2_bits :
    decode (0b0#40 ++ 0b00000000#8 ++ 0b0000#4 ++ 0b010#3 ++ 0b1#1 ++ 0b01011001#8) = .ok (.log2 .b64 .x4) := by rfl

theorem test_word_fdDecomp : decode 0x0001 = .ok (.fdDecomp .b32 .x1) ∧ encode (.fdDecomp .b32 .x1) = 0x0001 := ⟨by rfl, by decide⟩

theorem test_word_fdCompose : decode 0x0902 = .ok (.fdCompose .b64 .x16) ∧ encode (.fdCompose .b64 .x16) = 0x0902 := ⟨by rfl, by decide⟩

theorem test_word_fdNorm : decode 0x0603 = .ok (.fdNorm .b32 .x8) ∧ encode (.fdNorm .b32 .x8) = 0x0603 := ⟨by rfl, by decide⟩

theorem test_word_fdScale : decode 0x0504 = .ok (.fdScale .b64 .x4) ∧ encode (.fdScale .b64 .x4) = 0x0504 := ⟨by rfl, by decide⟩

theorem test_word_rrTrig : decode 0x0210 = .ok (.rrTrig .b32 .x2) ∧ encode (.rrTrig .b32 .x2) = 0x0210 := ⟨by rfl, by decide⟩

theorem test_word_rrExp2 : decode 0x0111 = .ok (.rrExp2 .b64 .x1) ∧ encode (.rrExp2 .b64 .x1) = 0x0111 := ⟨by rfl, by decide⟩

theorem test_word_rrAtan : decode 0x0812 = .ok (.rrAtan .b32 .x16) ∧ encode (.rrAtan .b32 .x16) = 0x0812 := ⟨by rfl, by decide⟩

theorem test_word_peEval : decode 0x00010020 = .ok (.peEval .b32 .x1 .sin) ∧ encode (.peEval .b32 .x1 .sin) = 0x00010020 := ⟨by rfl, by decide⟩

theorem test_word_svResolve : decode 0x00520030 = .ok (.svResolve .b32 .x1 .exp10) ∧ encode (.svResolve .b32 .x1 .exp10) = 0x00520030 := ⟨by rfl, by decide⟩

theorem test_word_sin : decode 0x0940 = .ok (.sin .b64 .x16) ∧ encode (.sin .b64 .x16) = 0x0940 := ⟨by rfl, by decide⟩

theorem test_word_cos : decode 0x0241 = .ok (.cos .b32 .x2) ∧ encode (.cos .b32 .x2) = 0x0241 := ⟨by rfl, by decide⟩

theorem test_word_tan : decode 0x0142 = .ok (.tan .b64 .x1) ∧ encode (.tan .b64 .x1) = 0x0142 := ⟨by rfl, by decide⟩

theorem test_word_asin : decode 0x0448 = .ok (.asin .b32 .x4) ∧ encode (.asin .b32 .x4) = 0x0448 := ⟨by rfl, by decide⟩

theorem test_word_acos : decode 0x0749 = .ok (.acos .b64 .x8) ∧ encode (.acos .b64 .x8) = 0x0749 := ⟨by rfl, by decide⟩

theorem test_word_atan : decode 0x084A = .ok (.atan .b32 .x16) ∧ encode (.atan .b32 .x16) = 0x084A := ⟨by rfl, by decide⟩

theorem test_word_atan2 : decode 0x034B = .ok (.atan2 .b64 .x2) ∧ encode (.atan2 .b64 .x2) = 0x034B := ⟨by rfl, by decide⟩

theorem test_word_exp : decode 0x0050 = .ok (.exp .b32 .x1) ∧ encode (.exp .b32 .x1) = 0x0050 := ⟨by rfl, by decide⟩

theorem test_word_exp2 : decode 0x0551 = .ok (.exp2 .b64 .x4) ∧ encode (.exp2 .b64 .x4) = 0x0551 := ⟨by rfl, by decide⟩

theorem test_word_exp10 : decode 0x0652 = .ok (.exp10 .b32 .x8) ∧ encode (.exp10 .b32 .x8) = 0x0652 := ⟨by rfl, by decide⟩

theorem test_word_log : decode 0x0958 = .ok (.log .b64 .x16) ∧ encode (.log .b64 .x16) = 0x0958 := ⟨by rfl, by decide⟩

theorem test_word_log2 : decode 0x0259 = .ok (.log2 .b32 .x2) ∧ encode (.log2 .b32 .x2) = 0x0259 := ⟨by rfl, by decide⟩

theorem test_word_log10 : decode 0x015A = .ok (.log10 .b64 .x1) ∧ encode (.log10 .b64 .x1) = 0x015A := ⟨by rfl, by decide⟩

/-- The tables of R95 and the selectors of R96 that the words above do not name (95_test_vectors.md 2.1). -/
theorem test_word_peEval_log2 : decode 0x00070720 = .ok (.peEval .b64 .x8 .log2) := by rfl

theorem test_word_svResolve_atan2 : decode 0x004B0930 = .ok (.svResolve .b64 .x16 .atan2) := by rfl

/-- The illegal words of 95_test_vectors.md 2.1, by the clause of R101 they break. -/
theorem test_illegal_words :
    decode 0x0000000000000000 = .error .opcode ∧ decode 0x0000000000000005 = .error .opcode ∧
    decode 0x0000000000000043 = .error .opcode ∧ decode 0x00000000000000FF = .error .opcode ∧
    decode 0x0000000000000A40 = .error .laneCode ∧ decode 0x0000000000000E51 = .error .laneCode ∧
    decode 0x0000000000001040 = .error .reservedBits ∧ decode 0x0000000001000040 = .error .reservedBits ∧
    decode 0x8000000000000059 = .error .reservedBits ∧ decode 0x0000000000010040 = .error .auxNotZero ∧
    decode 0x0000000000FF0001 = .error .auxNotZero ∧ decode 0x0000000000000020 = .error .tableId ∧
    decode 0x0000000000080020 = .error .tableId ∧ decodeIn .identity 0x0000000000040020 = .error .tableId ∧
    decode 0x0000000000000030 = .error .fnSelector ∧ decode 0x0000000000430030 = .error .fnSelector ∧
    decode 0x0000000000010030 = .error .fnSelector := by
  refine ⟨?_, ?_, ?_, ?_, ?_, ?_, ?_, ?_, ?_, ?_, ?_, ?_, ?_, ?_, ?_, ?_, ?_⟩ <;> rfl

/-- The assembler text of R106 and R107: a lane suffix left out is N = 1, and a pseudo-instruction is its expansion. -/
theorem test_parse_examples :
    parseCommand "sin.f32.x4" = some (.sin .b32 .x4) ∧ parseCommand "pe.eval.f64.x2 cos" = some (.peEval .b64 .x2 .cos) ∧
    parseCommand "fd.decomp.f64" = some (.fdDecomp .b64 .x1) ∧ parseCommand "ldexp.f32.x4" = some (.fdScale .b32 .x4) ∧
    parseCommand "sin.x4" = none := by decide +kernel

/-! ### The commands: the examples of their rules and rows of 95_test_vectors.md -/

/-- R131's example; the upper half of a binary32 slot is ignored (2.2). -/
theorem test_fdDecomp : after (.fdDecomp .b32 .x1) (lane 0xDEADBEEFBFC00000) 0 =
    some { ys := true, yn := 0x7F, ym := 0x400000 } := by decide +kernel

/-- 2.2, a binary64 signalling NaN: its fields as they stand. -/
theorem test_fdDecomp_sNaN : after (.fdDecomp .b64 .x1) (lane 0x7FF0000000000001) 0 =
    some { yn := 0x7FF, ym := 1 } := by decide +kernel

/-- R133's example. -/
theorem test_fdCompose : after (.fdCompose .b32 .x1) ⟨0, 0, 0x80, false⟩ 0 = some { yf := 0x40000000 } := by
  decide +kernel

/-- 2.3: XN of -1 and an XA past the field are cut to their low bits (R134). -/
theorem test_fdCompose_cut : after (.fdCompose .b32 .x1) ⟨0xFFFFFFFF, 0, 0xFFFFFFFFFFFFFFFF, true⟩ 0 =
    some { yf := 0xFFFFFFFF } := by decide +kernel

/-- R135's example: the smallest subnormal. -/
theorem test_fdNorm : after (.fdNorm .b64 .x1) (lane 1) 0 =
    some { yn := 0xFFFFFFFFFFFFFBCE, yf := 0x3FF0000000000000 } := by decide +kernel

/-- 2.4: a negative signalling NaN keeps its sign in YF. -/
theorem test_fdNorm_NaN : after (.fdNorm .b32 .x1) (lane 0xFF800001) 0 =
    some { ys := true, yf := 0xFFC00001 } := by decide +kernel

/-- 2.5: 1.5·2^-149 is a tie and rounds to the even 2. -/
theorem test_fdScale_tie : after (.fdScale .b32 .x1) ⟨0x3FC00000, 0, 0xFFFFFFFFFFFFFF6B, false⟩ 0 =
    some { yf := 2 } := by decide +kernel

/-- 2.5: n = -2^63 does not wrap. -/
theorem test_fdScale_least : after (.fdScale .b32 .x1) ⟨0x3F800000, 0, 0x8000000000000000, false⟩ 0 =
    some {} := by decide +kernel

/-- 2.8: 2.0 under CFG-T, the selectors of K_PI and of -2.0, and a signalling NaN in every configuration. -/
theorem test_rrTrig : laneRrTrig cfgT .b32 (lane 0x40000000) = { yf := 0x3EDBC095, yn := 1 } ∧
    (laneRrTrig cfgT .b64 (lane 0x400921FB54442D18)).yn = 2 ∧ (laneRrTrig cfgT .b32 (lane 0xC0000000)).yn = 3 ∧
    after (.rrTrig .b32 .x1) (lane 0xFF800001) 0 = some { yf := 0xFFC00001 } := by decide +kernel

/-- 2.8: 0.78539813 lies below π/4 and is its own reduced value. -/
theorem test_rrTrig_direct : laneRrTrig cfgT .b32 (lane 0x3F490FDA) = { yf := 0x3F490FDA } := by decide +kernel

/-- R166's example. -/
theorem test_rrExp2 : after (.rrExp2 .b32 .x1) (lane 0x40700000) 0 = some { yn := 4, yf := 0xBE800000 } := by
  decide +kernel

/-- 2.6: -0.50000006 splits into -1 and an exact fraction. -/
theorem test_rrExp2_exact : after (.rrExp2 .b32 .x1) (lane 0xBF000001) 0 =
    some { yn := 0xFFFFFFFFFFFFFFFF, yf := 0x3EFFFFFE } := by decide +kernel

/-- R169's example. -/
theorem test_rrAtan : after (.rrAtan .b32 .x1) (lane 0xC0000000) 0 =
    some { ys := true, yn := 1, yf := 0xBF000000 } := by decide +kernel

/-- 2.7: the reciprocal of the largest finite value is subnormal and rounded. -/
theorem test_rrAtan_subnormal : after (.rrAtan .b64 .x1) (lane 0x7FEFFFFFFFFFFFFF) 0 =
    some { yn := 1, yf := 0x0004000000000000 } := by decide +kernel

/-- R196's example, the COS table of CFG-T. -/
theorem test_peEval : lanePeEval cfgT .b32 .cos (lane 0x3F000000) = { yf := 0x3F600000 } := by decide +kernel

/-- 2.9: the EXP2 table of CFG-T at -0.25. -/
theorem test_peEval_exp2 : lanePeEval cfgT .b64 .exp2 (lane 0xBFD0000000000000) = { yf := 0x3FEA746F40417184 } := by
  decide +kernel

/-- R222's example. -/
theorem test_svResolve : after (.svResolve .b64 .x1 .log) (lane 0) 0 =
    some { yf := 0xFFF0000000000000, yn := 1 } := by decide +kernel

/-- 2.10: atan2(-0, -1) is K_PI by entry f; log of 2.0 is a miss. -/
theorem test_svResolve_atan2 :
    after (.svResolve .b32 .x1 .atan2) ⟨0x80000000, 0xBF800000, 0, false⟩ 0 = some { yf := 0x40490FDB, yn := 1 } ∧
    after (.svResolve .b32 .x1 .log) (lane 0x40000000) 0 = some {} := by decide +kernel

/-- S2 of 1.1: sin(0.0) = 0.0. TR6 of 2.11: sin of 2.0 under CFG-T takes the COS table. -/
theorem test_sin : after (.sin .b64 .x1) (lane 0) 0 = some {} ∧
    laneSin cfgT .b64 (lane 0x4000000000000000) = { yf := 0x3FED0D73BD9428A4 } := by decide +kernel

/-- R283's example. -/
theorem test_cos : after (.cos .b32 .x1) (lane 0x80000000) 0 = some { yf := 0x3F800000 } := by decide +kernel

/-- TR3 of 2.11: tan keeps the zero's sign. -/
theorem test_tan : after (.tan .b64 .x1) (lane 0x8000000000000000) 0 = some { yf := 0x8000000000000000 } := by
  decide +kernel

/-- R286 beyond TRIG_RR_MAX: where SIN is a signalling NaN, which R287 allows, TAN is the quotient, that NaN quieted. -/
theorem test_tan_beyond : laneSin cfgT .b32 (lane 0x71800000) = { yf := 0x7F800001 } ∧
    laneTan cfgT .b32 (lane 0x71800000) = { yf := 0x7FC00001 } := by decide +kernel

/-- R17: the NaN a table makes of an operand that is none leaves ATAN (class 1) and ACOS (IDENTITY) as cNaN. -/
theorem test_nan_canonical : (laneAtan cfgNaN .b32 (lane 0x40000000)).yf = 0x7FC00000 ∧
    (laneAtan cfgNaN .b64 (lane 0xC000000000000000)).yf = 0x7FF8000000000000 ∧
    (laneAcos cfgNaN .b32 (lane 0x3E800000)).yf = 0x7FC00000 := by decide +kernel

/-- R311's example; IT1 and IT3 of 2.12, on both sides of ASIN_SPLIT. -/
theorem test_asin : after (.asin .b32 .x1) (lane 0x40000000) 0 = some { yf := 0x7FC00000 } ∧
    laneAsin cfgT .b32 (lane 0x3E800000) = { yf := 0x3E815555 } ∧
    laneAsin cfgT .b32 (lane 0x3F400000) = { yf := 0x3F591A99 } := by decide +kernel

/-- R314's example and IT4 of 2.12. -/
theorem test_acos : laneAcos cfgT .b64 (lane 0) = { yf := 0x3FF921FB54442D18 } ∧
    laneAcos cfgT .b32 (lane 0x3E800000) = { yf := 0x3FA8BA86 } := by decide +kernel

/-- R318's example; IT10 of 2.12, class 1. -/
theorem test_atan : after (.atan .b32 .x1) (lane 0xFF800000) 0 = some { yf := 0xBFC90FDB } ∧
    laneAtan cfgT .b32 (lane 0x40000000) = { yf := 0x3F8E6530 } := by decide +kernel

/-- R319 where class 1 gives an exact zero: with the ODD table π·t, the value at 1/2 is K_PI_2; ATAN is odd there too. -/
theorem test_atan_odd_zero :
    laneAtan { cfgT with coeff := fun _ P => ⟨.odd, kPi P, [], 0, []⟩ } .b32 (lane 0x40000000) = {} ∧
    laneAtan { cfgT with coeff := fun _ P => ⟨.odd, kPi P, [], 0, []⟩ } .b32 (lane 0xC0000000) = { yf := 0x80000000 } := by
  decide +kernel

/-- R321's example; IT16 of 2.12: y in XA, x in XB. -/
theorem test_atan2 :
    after (.atan2 .b64 .x1) ⟨0, 0xBFF0000000000000, 0, false⟩ 0 = some { yf := 0x400921FB54442D18 } ∧
    laneAtan2 cfgT .b32 ⟨0x3F800000, 0x3DCCCCCD, 0, false⟩ = { yf := 0x3FBC4DFA } := by decide +kernel

/-- S5 of 1.1 and EX11 of 2.13. -/
theorem test_exp : after (.exp .b32 .x1) (lane 0) 0 = some { yf := 0x3F800000 } ∧
    laneExp cfgT .b32 (lane 0x3F800000) = { yf := 0x402746F4 } := by decide +kernel

/-- EX1 and EX4 of 2.13. -/
theorem test_exp2 : laneExp2 cfgT .b32 (lane 0x40700000) = { yf := 0x4153A37A } ∧
    laneExp2 cfgT .b32 (lane 0xC3160000) = {} := by decide +kernel

/-- R345's example and EX14 of 2.13. -/
theorem test_exp10 : after (.exp10 .b32 .x1) (lane 0x7F800000) 0 = some { yf := 0x7F800000 } ∧
    laneExp10 cfgT .b32 (lane 0x40000000) = { yf := 0x42C0CDC6 } := by decide +kernel

/-- R375's example and LG2 of 2.14. -/
theorem test_log : after (.log .b32 .x1) (lane 0x3F800000) 0 = some {} ∧
    laneLog cfgT .b32 (lane 0x41000000) = { yf := 0x40051592 } := by decide +kernel

/-- R371's example and LG1 of 2.14. -/
theorem test_log2 : after (.log2 .b32 .x1) (lane 0x80000000) 0 = some { yf := 0xFF800000 } ∧
    laneLog2 cfgT .b32 (lane 0x41000000) = { yf := 0x40400000 } := by decide +kernel

/-- R376's example. -/
theorem test_log10 : after (.log10 .b64 .x1) (lane 0xBFF0000000000000) 0 = some { yf := 0x7FF8000000000000 } := by
  decide +kernel

/-! ### Steps at the window (95_test_vectors.md 2.15) -/

/-- LD1: a command of two lanes writes 0 in the lanes from 2 on, through a CMD write. -/
theorem test_step_two_lanes :
    (afterAccess (.write 0 8 0x201) (uniform (lane 0xC0000000))).map
      (fun t => (t.cmd, t.ill, outLane t 1, outLane t 2)) =
      some (0x201, false, { ys := true, yn := 0x80 }, {}) := by decide +kernel

/-- LD2: an illegal word sets STATUS.ILL, CMD holds it, the outputs stay. -/
theorem test_step_illegal :
    (afterAccess (.write 0 8 0xA01) { uniform (lane 0) with yf := Vector.replicate 16 7 }).map
      (fun t => (t.cmd, t.ill, t.yf[3])) = some (0xA01, true, 7) := by decide +kernel

/-- LD4 and LD7: what the host reads after reset, and at reserved offsets. -/
theorem test_step_read_reset :
    readAt 0x000 State.reset = some [0] ∧ readAt 0x008 State.reset = some [0] ∧ readAt 0x338 State.reset = some [0] ∧
    readAt 0x010 State.reset = some [0] ∧ readAt 0x500 State.reset = some [0] := by decide +kernel

/-- LD5 and LD6: a write of YF[0] is ignored; XS[3] stores bit 0. -/
theorem test_step_write :
    (afterAccess (.write 0x300 8 5) State.reset).bind (readAt 0x300) = some [0] ∧
    (afterAccess (.write 0x298 8 0xFFFFFFFFFFFFFFFF) State.reset).bind (readAt 0x298) = some [1] := by decide +kernel

/-- LD8: an access at offset 4, a 32-bit access and an access past the window have no step. -/
theorem test_step_refused :
    afterAccess (.read 4 8) State.reset = none ∧ afterAccess (.write 0x100 4 0) State.reset = none ∧
    afterAccess (.read 4096 8) State.reset = none ∧ afterAccess (.read (-8) 8) State.reset = none := by decide +kernel

/-- 70_reset_and_hazards.md R461: a reset event clears the lanes. -/
theorem test_step_reset : afterAccess .reset (uniform ⟨1, 2, 3, true⟩) = some State.reset := by decide +kernel

/-- The first step after reset runs the word placed for it. -/
theorem test_step_fetched :
    (match step (State.reset.withFetchWord 24 0x000640) with
      | .next t => some (t.cmd, t.ill, t.hostIndex)
      | .fault _ => none
      | .refused _ => none) = some (0x640, false, 1) := by decide +kernel

/-! ### Witnesses: concrete states and operands that meet the hypotheses of each statement -/

/-- `Gives` speaks of a lane below the lane count that holds l: lane 0 of `uniform l`, lane 15 at N = 16. -/
theorem witness_Gives : laneIn (uniform ⟨1, 2, 3, true⟩) 0 = ⟨1, 2, 3, true⟩ ∧ (0 : Fin 16).val < laneCount .x1 ∧
    laneIn (uniform ⟨1, 2, 3, true⟩) 15 = ⟨1, 2, 3, true⟩ ∧ (15 : Fin 16).val < laneCount .x16 := by decide +kernel

theorem witness_DecodeOfEncode : (Instr.peEval .b64 .x16 .acos).wellFormedIn .table = true ∧
    (Instr.log10 .b32 .x1).wellFormedIn .identity = true := by decide

theorem witness_EncodeOfDecode : decodeIn .identity 0x0000000000000440 = .ok (.sin .b32 .x4) := by rfl

theorem witness_OpcodeMap : decode 0x0000000000000958 = .ok (.log .b64 .x16) := by rfl

theorem witness_StepRunsDecodedCommand :
    ({ State.reset with hostQueue := [.write 0 8 0x440] } : State).hostQueue = [.write 0 8 0x440] ∧
    decode 0x440 = .ok (.sin .b32 .x4) := ⟨rfl, by rfl⟩

theorem witness_IllegalWordWritesNoOutput : illegal 0xA01 = true ∧
    ({ State.reset with hostQueue := [.write 0 8 0xA01] } : State).hostQueue = [.write 0 8 0xA01] := ⟨by rfl, rfl⟩

theorem witness_FetchWordRunsNext : decodeTableWord 24 0x440 = some (.sin .b32 .x4) := by rfl

theorem witness_ResetState : ({ State.reset with hostQueue := [.reset] } : State).hostQueue = [.reset] ∧
    State.reset.hostQueue = [] := ⟨rfl, rfl⟩

/-- A queue for each clause: the first and the last lane of a file, and the ends of both reserved ranges. -/
theorem witness_HostReadReturns :
    (∀ off : Int, ({ State.reset with hostQueue := [.read off 8] } : State).hostQueue = [.read off 8]) ∧
    ((2 ≤ 2 ∧ 2 < 32) ∧ (2 ≤ 31 ∧ 31 < 32) ∧ (160 ≤ 160 ∧ 160 < 512) ∧ (160 ≤ 511 ∧ 511 < 512)) :=
  ⟨fun _ => rfl, by decide⟩

theorem witness_HostWriteEffect :
    (∀ (off : Int) (v : Word), ({ State.reset with hostQueue := [.write off 8 v] } : State).hostQueue =
      [.write off 8 v]) ∧
    ((2 ≤ 2 ∧ 2 < 32) ∧ (2 ≤ 31 ∧ 31 < 32) ∧ (160 ≤ 160 ∧ 160 < 512) ∧ (160 ≤ 511 ∧ 511 < 512)) :=
  ⟨fun _ _ => rfl, by decide⟩

/-- An answered access at the last offset of the window; refused ones one byte off, one word past and 4 bytes wide. -/
theorem witness_OnlyBadAccessIsRefused :
    ¬BadAccess (.read 4088 8) ∧ BadAccess (.read 1 8) ∧ BadAccess (.write 4096 8 0) ∧ BadAccess (.read 0 4) := by
  simp [BadAccess]

/-- BASE = 0x10000: the window's first and last word, and the addresses just outside. -/
theorem witness_WindowAtBase : baseAddr cfgT = 65536 ∧ (regAt (hostOffset cfgT 65536) 8).isSome = true ∧
    (regAt (hostOffset cfgT 69624) 8).isSome = true ∧ (regAt (hostOffset cfgT 65528) 8).isSome = false ∧
    (regAt (hostOffset cfgT 69632) 8).isSome = false := by decide +kernel

/-- A state with the invariant, and a step from it. -/
theorem witness_InvKeptByStep :
    Inv (uniform (lane 0x3F800000)) ∧ ∃ t, step (uniform (lane 0x3F800000)) = .next t :=
  ⟨⟨⟨fun h => (Bool.false_ne_true h).elim, fun _ => .inr rfl⟩, .inl ⟨⟨rfl, rfl, rfl, rfl⟩, fun _ => rfl⟩⟩, _, rfl⟩

theorem witness_CmdWriteIdempotent :
    ({ State.reset with hostQueue := [.write 0 8 0x440, .write 0 8 0x440] } : State).hostQueue =
      [.write 0 8 0x440, .write 0 8 0x440] := rfl

theorem witness_CommandFrame : ∃ t, exec (.tan .b64 .x16) State.reset = .next t := ⟨_, rfl⟩

theorem witness_UnnamedOutputsAreZero : laneCount (Instr.sin .b32 .x8).lanes ≤ (8 : Fin 16).val ∧
    ¬namesYF (.fdDecomp .b32 .x1) ∧ ¬namesYN (.sin .b32 .x1) ∧ ¬namesYS (.sin .b32 .x1) ∧ ¬namesYM (.sin .b32 .x1) ∧
    SameInputs State.reset { State.reset with cmd := 1 } ∧
    ∃ t, exec (.sin .b32 .x8) { State.reset with cmd := 1 } = .next t :=
  ⟨by decide, id, id, id, id, ⟨rfl, rfl, rfl, rfl⟩, _, rfl⟩

theorem witness_ResultsAreLanewise : (∃ t, exec ((Instr.exp .b32 .x1).withLanes .x4) (uniform (lane 7)) = .next t) ∧
    (∃ t, exec ((Instr.exp .b32 .x1).withLanes .x1) (uniform (lane 7)) = .next t) ∧
    (3 : Fin 16).val < laneCount .x4 ∧ (0 : Fin 16).val < laneCount .x1 ∧
    laneIn (uniform (lane 7)) 3 = laneIn (uniform (lane 7)) 0 :=
  ⟨⟨_, rfl⟩, ⟨_, rfl⟩, by decide, by decide, by simp⟩

/-- A binary32 command on two states that differ in the upper half of XA and in XB, XN and XS. -/
theorem witness_UnreadOperandsIgnored : (∃ t, exec (.sin .b32 .x1) (uniform ⟨0x3F800000, 0, 0, false⟩) = .next t) ∧
    (∃ t, exec (.sin .b32 .x1) (uniform ⟨0x1234567_3F800000, 5, 6, true⟩) = .next t) ∧
    opP .b32 (uniform ⟨0x3F800000, 0, 0, false⟩).xa[0] = opP .b32 (uniform ⟨0x1234567_3F800000, 5, 6, true⟩).xa[0] ∧
    ¬readsXB (.sin .b32 .x1) ∧ ¬readsXN (.sin .b32 .x1) ∧ ¬readsXS (.sin .b32 .x1) :=
  ⟨⟨_, rfl⟩, ⟨_, rfl⟩, by decide +kernel, id, id, id⟩

theorem witness_UpperHalfZero : (Instr.atan2 .b32 .x16).prec = .b32 ∧
    ∃ t, exec (.atan2 .b32 .x16) State.reset = .next t := ⟨rfl, _, rfl⟩

/-- A pattern of each class in both precisions, as a lane holds it; the smallest and the largest subnormal. -/
theorem witness_FdNormFields :
    isNaN (opP .b32 0xFF800001) = true ∧ isInf (opP .b32 0xFF800000) = true ∧ isZero (opP .b32 0x80000000) = true ∧
    isNorm (opP .b32 0x3F800000) = true ∧
    (isSub (opP .b32 1) = true ∧ 2 ^ 0 ≤ frac (opP .b32 1) ∧ frac (opP .b32 1) < 2 ^ 1) ∧
    (isSub (opP .b32 0x7FFFFF) = true ∧ 2 ^ 22 ≤ frac (opP .b32 0x7FFFFF) ∧ frac (opP .b32 0x7FFFFF) < 2 ^ 23) ∧
    isNaN (opP .b64 0x7FF0000000000001) = true ∧ isInf (opP .b64 0x7FF0000000000000) = true ∧
    isZero (opP .b64 0) = true ∧ isNorm (opP .b64 0x0010000000000000) = true ∧
    (isSub (opP .b64 1) = true ∧ 2 ^ 0 ≤ frac (opP .b64 1) ∧ frac (opP .b64 1) < 2 ^ 1) := by decide +kernel

/-- Finite nonzero patterns: the smallest subnormal, 1.0 and the largest finite value. -/
theorem witness_FdNormExact : FiniteNonzero (opP .b32 1) ∧ FiniteNonzero (opP .b32 0x3F800000) ∧
    FiniteNonzero (opP .b64 0x7FEFFFFFFFFFFFFF) := by
  unfold FiniteNonzero; decide +kernel

theorem witness_FdScaleRounds : isNaN (opP .b32 0x7F800001) = true ∧ isInf (opP .b32 0xFF800000) = true ∧
    isZero (opP .b32 0x80000000) = true ∧ FiniteNonzero (opP .b32 0x3FC00000) := by
  unfold FiniteNonzero; decide +kernel

theorem witness_FdScaleIntegerAlgorithm : FiniteNonzero (opP .b32 0x00FFFFFF) ∧ FiniteNonzero (opP .b64 1) := by
  unfold FiniteNonzero; decide +kernel

/-- 1.0 scaled to both ends of the normal exponents. -/
theorem witness_FdScaleShiftsExponent : isNorm (opP .b32 0x3F800000) = true ∧
    1 ≤ (expf (opP .b32 0x3F800000) : Int) + sint64 0xFFFFFFFFFFFFFF82 ∧
    (expf (opP .b32 0x3F800000) : Int) + sint64 127 ≤ 2 ^ 8 - 2 := by decide +kernel

/-- 1.0 scaled by 3 is exact, and 8.0 scaled by -3 comes back. -/
theorem witness_FdScaleZeroAndBack : (lane 5).n = 0 ∧ isNaN (opP .b32 0x3F800000) = false ∧
    Gives (.fdScale .b32 .x1) ⟨0x3F800000, 0, 3, false⟩ { yf := 0x41000000 } ∧
    isFinite (opP .b32 0x41000000) = true ∧ val (opP .b32 0x41000000) = val (opP .b32 0x3F800000) * (2 : ℚ) ^ sint64 3 ∧
    sint64 0xFFFFFFFFFFFFFFFD = -sint64 3 :=
  ⟨rfl, by decide +kernel, gives_iff.2 (by decide +kernel), by decide +kernel, by decide +kernel, by decide⟩

/-- A number below the overflow bound that no pattern equals, and the bound itself. -/
theorem witness_RoundNearestEven : (0 : ℚ) ≤ 1 / 3 ∧ (1 / 3 : ℚ) < overflowBound .b32 ∧ (0 : ℚ) ≤ overflowBound .b64 ∧
    isFinite (opP .b32 0x3EAAAAAB) = true := by decide +kernel

/-- A NaN and operands that are none; 0·inf makes a NaN of such operands. -/
theorem witness_NaNOfOperations : isNaN (opP .b32 0x7F800001) = true ∧ isNaN (opP .b32 0) = false ∧
    isNaN (opP .b32 0x7F800000) = false ∧ isNaN (fmul (opP .b32 0) (opP .b32 0x7F800000)) = true ∧
    isNaN (fadd (opP .b32 0x7F800000) (opP .b32 0xFF800000)) = true ∧
    isNaN (fsub (opP .b32 0x7F800000) (opP .b32 0x7F800000)) = true ∧ isNaN (fdiv (opP .b32 0) (opP .b32 0)) = true ∧
    isNaN (ffma (opP .b32 0) (opP .b32 0x7F800000) (opP .b32 0)) = true ∧
    (CanonicalNaN (cfgNaN.asinVal .b32 (opP .b32 0x40000000)) ∧ CanonicalNaN (cfgNaN.acosVal .b32 (opP .b32 0x40000000)) ∧
      CanonicalNaN (cfgNaN.log2Val .b32 (opP .b32 0x40000000)) ∧ CanonicalNaN (cfgNaN.sinBig .b32 (opP .b32 0x40000000)) ∧
      CanonicalNaN (cfgNaN.cosBig .b32 (opP .b32 0x40000000))) ∧
    isNaN (fnAtan cfgNaN (opP .b32 0x40000000)) = true := by
  unfold CanonicalNaN; decide +kernel

/-- Every rational strictly between 1 and the tie 1 + 2^-24 rounds to 1. -/
theorem roundVal_near_one {q : ℚ} (h1 : 1 < q) (h2 : q < 1 + 1 / 2 ^ 24) : roundVal .b32 q = onePat .b32 := by
  have hl : floorLog2 q = 0 := floorLog2_unique (by linarith) (by rw [pow2_eq_zpow]; norm_num; linarith)
    (by rw [pow2_eq_zpow]; norm_num; linarith)
  have hq : quantumExp .b32 q = -23 := by unfold quantumExp; rw [hl]; decide
  have hp : q / pow2 (-23) = q * 2 ^ 23 := by rw [pow2_eq_zpow]; norm_num [div_eq_mul_inv]
  have hr : roundTiesEven (q * 2 ^ 23) = 2 ^ 23 := by
    obtain ⟨S, a1, a2, h⟩ := roundTiesEven_cases (m := q * 2 ^ 23) (by linarith)
    have b1 : (2 ^ 23 : ℚ) < S + 1 := by linarith
    have b2 : (S : ℚ) < 2 ^ 23 + 1 := by linarith
    have hS : S = 2 ^ 23 := by
      have c1 : 2 ^ 23 < S + 1 := by exact_mod_cast b1
      have c2 : S < 2 ^ 23 + 1 := by exact_mod_cast b2
      omega
    subst hS
    push_cast at *
    rcases h with h | h | h | h
    · exact h.2
    · exact h.2.2
    · linarith [h.1]
    · linarith [h.1]
  have hov : ¬(2 - pow2 (-((Prec.b32.fracBits : ℤ) + 1))) * pow2 Prec.b32.emax ≤ q := by
    have : (2 : ℚ) ≤ (2 - pow2 (-((Prec.b32.fracBits : ℤ) + 1))) * pow2 Prec.b32.emax := by decide +kernel
    linarith
  unfold roundVal roundRNE
  rw [abs_of_pos (by linarith), if_neg (by linarith), if_neg hov, decide_eq_false (by linarith)]
  simp only [hq, hp, hr]
  decide +kernel

/-- 1/3 and -1/3; and the irrational 1 + √2·2^-26, which rounds to 1. -/
theorem witness_CorrectRoundingMetric : |(1 / 3 : ℚ)| < overflowBound .b32 ∧ |(-1 / 3 : ℚ)| < overflowBound .b64 ∧
    RoundsTo .b32 (1 + Real.sqrt 2 / 2 ^ 26) (onePat .b32) ∧ isFinite (onePat .b32) = true := by
  refine ⟨by decide +kernel, by decide +kernel, ⟨1 / 2 ^ 26, by norm_num, fun q hq => ?_⟩, by decide +kernel⟩
  have s1 : 1 < Real.sqrt 2 := by rw [Real.lt_sqrt] <;> norm_num
  have s2 : Real.sqrt 2 < 2 := by rw [Real.sqrt_lt'] <;> norm_num
  obtain ⟨a, b⟩ := abs_lt.1 hq
  refine roundVal_near_one ?_ ?_
  · have : (1 : ℝ) < q := by linarith
    exact_mod_cast this
  · have : (q : ℝ) < ((1 + 1 / 2 ^ 24 : ℚ) : ℝ) := by push_cast; linarith
    exact_mod_cast this

/-- An operand of each class; 2.0 is in range in every configuration, and 2.0^100 is beyond a bound of 1000. -/
theorem witness_RrTrigQuadrant : isNaN (opP .b64 0x7FF0000000000001) = true ∧ isInf (opP .b64 0xFFF0000000000000) = true ∧
    isZero (opP .b64 0x8000000000000000) = true ∧ FiniteNonzero (opP .b64 0x4000000000000000) ∧
    |val (opP .b64 0x4000000000000000)| ≤ trigRrMax Config.cfg .b64 ∧
    ¬|val (opP .b64 0x4630000000000000)| ≤ trigRrMax cfgT .b64 := by
  refine ⟨by decide +kernel, by decide +kernel, by decide +kernel, ⟨by decide +kernel, by decide +kernel⟩, ?_,
    by decide +kernel⟩
  exact le_trans (by decide +kernel : |val (opP .b64 0x4000000000000000)| ≤ 100) (le_max_left _ _)

/-- 2.5 splits at 3, -0.5 at 0; an integer; both infinities; a NaN. -/
theorem witness_RrExp2Split : isNaN (opP .b32 0x7F800001) = true ∧
    (isInf (opP .b32 0x7F800000) = true ∧ sgn (opP .b32 0x7F800000) = false) ∧
    (isInf (opP .b32 0xFF800000) = true ∧ sgn (opP .b32 0xFF800000) = true) ∧
    (isFinite (opP .b32 0x40200000) = true ∧ ((3 : ℤ) : ℚ) ≤ val (opP .b32 0x40200000) + 1 / 2 ∧
      val (opP .b32 0x40200000) + 1 / 2 < (3 : ℤ) + 1) ∧
    (isFinite (opP .b32 0xBF000000) = true ∧ ((0 : ℤ) : ℚ) ≤ val (opP .b32 0xBF000000) + 1 / 2 ∧
      val (opP .b32 0xBF000000) + 1 / 2 < (0 : ℤ) + 1) := by decide +kernel

/-- An operand that splits with a fraction, and -2^63, the least value that is not saturated. -/
theorem witness_RrExp2FractionExact : isFinite (opP .b32 0xBF000001) = true ∧
    -2 ^ 63 ≤ val (opP .b32 0xBF000001) + 1 / 2 ∧ val (opP .b32 0xBF000001) + 1 / 2 < 2 ^ 63 ∧
    isFinite (opP .b32 0xDF000000) = true ∧ -2 ^ 63 ≤ val (opP .b32 0xDF000000) + 1 / 2 := by decide +kernel

/-- The ends of class 0 and the first value of class 1. -/
theorem witness_RrAtanClass : isNaN (opP .b32 0xFF800001) = true ∧
    (isFinite (opP .b32 0xBF800000) = true ∧ |val (opP .b32 0xBF800000)| ≤ 1) ∧
    (isFinite (opP .b32 0x3F800001) = true ∧ 1 < |val (opP .b32 0x3F800001)|) ∧ isInf (opP .b32 0xFF800000) = true := by
  decide +kernel

theorem witness_RrAtanReciprocalInside :
    (isFinite (opP .b32 0x3F800001) = true ∧ 1 < |val (opP .b32 0x3F800001)|) ∧
    (isFinite (opP .b64 0xFFEFFFFFFFFFFFFF) = true ∧ 1 < |val (opP .b64 0xFFEFFFFFFFFFFFFF)|) ∧
    isInf (opP .b64 0x7FF0000000000000) = true := by decide +kernel

/-- A coefficient of a table of CFG-T. -/
theorem witness_PeEvalHorner : onePat .b32 = (romTable cfgT .cos .b32).c0 ∧
    pat .b32 0xBF000000 0 ∈ (romTable cfgT .cos .b32).cs := by decide +kernel

/-- An EVEN and an ODD table of CFG-T at 0.5. -/
theorem witness_TableParity : isNaN (opP .b32 0x3F000000) = false ∧ (romTable cfgT .cos .b32).form = .even ∧
    (romTable cfgT .sin .b32).form = .odd ∧
    isNaN (evalTable false (romTable cfgT .sin .b32) (opP .b32 0x3F000000)) = false := by decide +kernel

/-- An EVEN, an ODD and a PLAIN table of CFG-T at -0. -/
theorem witness_TableAtZero : isZero (opP .b32 0x80000000) = true ∧
    (∀ t : TableId, isFinite (romTable cfgT t .b32).c0 = true ∧ ∀ a ∈ (romTable cfgT t .b32).cs, isFinite a = true) ∧
    ((romTable cfgT .cos .b32).form = .even ∧ isZero (romTable cfgT .cos .b32).c0 = false) ∧
    ((romTable cfgT .sin .b32).form = .odd ∧ 0 < val (romTable cfgT .sin .b32).c0) ∧
    ((romTable cfgT .exp2 .b32).form = .plain ∧ isZero (romTable cfgT .exp2 .b32).c0 = false) := by
  refine ⟨by decide +kernel, fun t => ⟨by cases t <;> decide +kernel, List.all_eq_true.1 ?_⟩, by decide +kernel,
    by decide +kernel, by decide +kernel⟩
  cases t <;> decide +kernel

/-- A table with the given form and coefficients past the first, all 1.0. -/
def onesTable (f : Form) (cs qs : List Unit) : Table .b32 :=
  ⟨f, onePat .b32, cs.map fun _ => onePat .b32, onePat .b32, qs.map fun _ => onePat .b32⟩

/-- Tables of each form, with and without coefficients past the first, and a NaN. -/
theorem witness_TableAtNaN : isNaN (opP .b32 0x7F800001) = true ∧
    (∀ f cs qs, isFinite (onesTable f cs qs).c0 = true ∧ (∀ a ∈ (onesTable f cs qs).cs, isFinite a = true) ∧
      isFinite (onesTable f cs qs).q0 = true ∧ ∀ a ∈ (onesTable f cs qs).qs, isFinite a = true) ∧
    ((onesTable .plain [()] []).cs ≠ [] ∧ (onesTable .even [] []).cs = [] ∧ (onesTable .rational [] [()]).qs ≠ [] ∧
      (onesTable .rational [] []).qs = []) := by
  have h1 : isFinite (onePat .b32) = true := by decide +kernel
  refine ⟨by decide +kernel, fun f cs qs => ⟨h1, ?_, h1, ?_⟩, by decide +kernel⟩ <;>
  · intro a ha
    obtain ⟨_, -, rfl⟩ := List.mem_map.1 ha
    exact h1

/-- An operand for each clause, and the slots that hold it. -/
theorem witness_SvOneOperandTables : isNaN (opP .b32 0x7F800001) = true ∧ isInf (opP .b32 0x7F800000) = true ∧
    sgn (opP .b32 0x7F800000) = false ∧ isZero (opP .b32 0x80000000) = true ∧
    (FiniteNonzero (opP .b32 0x3F800001) ∧ 1 < |val (opP .b32 0x3F800001)|) ∧
    (FiniteNonzero (opP .b32 0xBF800000) ∧ |val (opP .b32 0xBF800000)| ≤ 1) ∧
    (Negative (opP .b32 0xFF800000) ∧ Negative (opP .b32 0x80000001)) ∧
    (isFinite (opP .b32 0x3F800000) = true ∧ val (opP .b32 0x3F800000) = 1) ∧
    (isFinite (opP .b32 0x00000001) = true ∧ 0 < val (opP .b32 1) ∧ val (opP .b32 1) ≠ 1) := by
  unfold FiniteNonzero Negative; decide +kernel

/-- Operands for the entries a to j. -/
theorem witness_SvAtan2Table : isNaN (opP .b32 0xFF800001) = true ∧ isNaN (opP .b32 0) = false ∧
    isInf (opP .b32 0x7F800000) = true ∧ sgn (opP .b32 0x7F800000) = false ∧ isInf (opP .b32 0xFF800000) = true ∧
    sgn (opP .b32 0xFF800000) = true ∧ isZero (opP .b32 0x80000000) = true ∧ Positive (opP .b32 0x7F800000) ∧
    Positive (opP .b32 1) ∧ Negative (opP .b32 0xFF800000) ∧ Negative (opP .b32 0x80000001) ∧
    FiniteNonzero (opP .b32 0xBF800000) := by
  unfold FiniteNonzero Negative Positive; decide +kernel

theorem witness_NaNOperandQuieted : isNaN (opP .b32 0xFF800001) = true ∧ isNaN (opP .b32 0x3F800000) = false ∧
    isNaN (opP .b64 0x7FF0000000000001) = true ∧ 0 < Prec.b32.fracBits - 1 := by decide +kernel

/-- -infinity is a hit of ATAN. -/
theorem witness_HitIsTheResult :
    (laneSvResolve Config.cfg .b32 .atan { a := 0xFF800000, b := 0, n := 0, s := false }).yn = 1 := by
  decide +kernel

theorem witness_SinCosSelect : isNaN (opP .b32 0xFF800001) = true ∧ isInf (opP .b32 0xFF800000) = true ∧
    isZero (opP .b32 0x80000000) = true ∧ FiniteNonzero (opP .b32 0x40000000) ∧
    |val (opP .b32 0x40000000)| ≤ trigRrMax Config.cfg .b32 := by
  refine ⟨by decide +kernel, by decide +kernel, by decide +kernel, ⟨by decide +kernel, by decide +kernel⟩, ?_⟩
  exact le_trans (by decide +kernel : |val (opP .b32 0x40000000)| ≤ 100) (le_max_left _ _)

/-- 0.5 lies below π/4. -/
theorem witness_SmallAngleDirect : isFinite (opP .b32 0x3F000000) = true ∧ 0 < |val (opP .b32 0x3F000000)| ∧
    (|val (opP .b32 0x3F000000)| : ℝ) < Real.pi / 4 := by
  refine ⟨by decide +kernel, by decide +kernel, ?_⟩
  have h : val (opP .b32 0x3F000000) = 1 / 2 := by decide +kernel
  have h3 := Real.pi_gt_three
  rw [h]
  norm_num
  linarith

theorem witness_AsinAcosBranches : isNaN (opP .b32 0xFF800001) = true ∧ isInf (opP .b32 0xFF800000) = true ∧
    (isFinite (opP .b32 0x3F800001) = true ∧ 1 < |val (opP .b32 0x3F800001)|) ∧ isZero (opP .b32 0x80000000) = true ∧
    (FiniteNonzero (opP .b32 0x3F800000) ∧ |val (opP .b32 0x3F800000)| ≤ 1) := by
  unfold FiniteNonzero; decide +kernel

theorem witness_AtanBranches : isNaN (opP .b32 0xFF800001) = true ∧ isInf (opP .b32 0xFF800000) = true ∧
    isZero (opP .b32 0x80000000) = true ∧ FiniteNonzero (opP .b32 0x40000000) ∧ FiniteNonzero (opP .b32 0x3F800000) := by
  unfold FiniteNonzero; decide +kernel

/-- The ATAN table of CFG-T at 2.0, a class-1 operand. -/
theorem witness_AtanOddWhenTableOdd : (romTable cfgT .atan .b32).form = .odd ∧ isNaN (opP .b32 0x40000000) = false ∧
    atanClass (opP .b32 0x40000000) = true := by decide +kernel

/-- y = 1.0 and x = 2.0 with their quotient 0.5; y = -1.0 and x = -2.0. -/
theorem witness_Atan2Quadrants : opP .b32 0x3F000000 = fdiv (opP .b32 0x3F800000) (opP .b32 0x40000000) ∧
    FiniteNonzero (opP .b32 0x3F800000) ∧ FiniteNonzero (opP .b32 0x40000000) ∧ Positive (opP .b32 0x40000000) ∧
    opP .b32 0x3F000000 = fdiv (opP .b32 0xBF800000) (opP .b32 0xC0000000) ∧ FiniteNonzero (opP .b32 0xC0000000) := by
  unfold FiniteNonzero Positive; decide +kernel

theorem witness_Exp2ThreeCommands : isNaN (opP .b32 0xFF800001) = true ∧ isZero (opP .b32 0x80000000) = true ∧
    isInf (opP .b32 0xFF800000) = true ∧ FiniteNonzero (opP .b32 0x40700000) := by
  unfold FiniteNonzero; decide +kernel

/-- A lane that holds the scaled operand, whatever the constants are. -/
theorem witness_ExpIsScaledExp2 :
    opP .b32 (zext64 (fmul (opP .b32 0x3F800000) (romLog2e Config.cfg .b32))) =
      fmul (opP .b32 0x3F800000) (romLog2e Config.cfg .b32) ∧
    opP .b32 (zext64 (fmul (opP .b32 0x3F800000) (romLog2Ten Config.cfg .b32))) =
      fmul (opP .b32 0x3F800000) (romLog2Ten Config.cfg .b32) := ⟨by simp, by simp⟩

/-- 3.0 with the EXP2 table of CFG-T, which gives 1.0 at +0; the ends of the exact range and 2^128 past it. -/
theorem witness_Exp2OfInteger : isFinite (opP .b32 0x40400000) = true ∧ val (opP .b32 0x40400000) = (3 : ℤ) ∧
    polyEval cfgT .exp2 (zeroPat .b32 false) = onePat .b32 ∧ (Prec.b32.emin - Prec.b32.fracBits ≤ 3 ∧ 3 ≤ Prec.b32.emax) ∧
    (isFinite (opP .b32 0x43000000) = true ∧ val (opP .b32 0x43000000) = (128 : ℤ) ∧ Prec.b32.emax < 128) := by
  decide +kernel

/-- CFG-T with an EXP2 table that is 1.0 everywhere. -/
def cfgOne : Cfg := { cfgT with coeff := fun _ P => ⟨.plain, onePat P, [], 0, []⟩ }

/-- CFG-T with an EXP2 table that is -0 everywhere. -/
def cfgNegZero : Cfg := { cfgT with coeff := fun _ P => ⟨.plain, zeroPat P true, [], 0, []⟩ }

theorem witness_ExpNeverNegative : (∀ f : Pat .b32, isFinite f = true → -1 / 2 ≤ val f → val f < 1 / 2 →
      sgn (polyEval cfgOne .exp2 f) = false) ∧
    (∀ f : Pat .b32, isFinite f = true → -1 / 2 ≤ val f → val f < 1 / 2 → ¬Negative (polyEval cfgNegZero .exp2 f)) ∧
    isNaN (opP .b32 0x3F800000) = false :=
  ⟨fun f _ _ _ => (by decide +kernel : sgn (finiteCoeff (onePat .b32)) = false),
    fun f _ _ _ => (by unfold Negative; decide +kernel : ¬Negative (finiteCoeff (zeroPat .b32 true))), by decide +kernel⟩

theorem witness_LogIsScaledLog2 : isNaN (opP .b32 0xFF800001) = true ∧ Negative (opP .b32 0xBF800000) ∧
    isZero (opP .b32 0x80000000) = true ∧ (isInf (opP .b32 0x7F800000) = true ∧ sgn (opP .b32 0x7F800000) = false) ∧
    opP .b32 0x3F800000 = onePat .b32 ∧
    (isFinite (opP .b32 0x41000000) = true ∧ 0 < val (opP .b32 0x41000000) ∧ opP .b32 0x41000000 ≠ onePat .b32) := by
  unfold Negative; decide +kernel

end Sys2Proof.Tests
end

/-! PROOF. O21: what a command leaves in YF is a pattern of its precision, zero-extended (spec/00_scope.md R25, R28). -/

namespace Sys2Proof.Machine

open Sys2Proof

@[simp] theorem zext64_zero (P : Prec) : zext64 (0 : Pat P) = 0 := by simp [zext64]

/-- A zero-extended pattern is below 2^W (R25). -/
theorem zext64_toNat_lt {P : Prec} (r : Pat P) : (zext64 r).toNat < 2 ^ P.width := by
  rw [zext64, BitVec.toNat_setWidth]
  exact (Nat.mod_le _ _).trans_lt r.isLt

/-- Every command's YF is a zero-extended pattern of the command's precision; FD.DECOMP, which does not name
YF, and a miss of SV.RESOLVE leave the zero pattern. -/
theorem laneOf_yf_eq_zext64 (i : Instr) (l : LaneIn) : ∃ r : Pat i.prec, (laneOf i l).yf = zext64 r := by
  cases i with
  | fdDecomp p n => exact ⟨0, (zext64_zero p).symm⟩
  | rrTrig p n =>
    simp only [laneOf, laneRrTrig]
    split_ifs <;> exact ⟨_, rfl⟩
  | svResolve p n f =>
    simp only [laneOf, laneSvResolve]
    split
    · exact ⟨_, rfl⟩
    · exact ⟨0, (zext64_zero p).symm⟩
  | _ => exact ⟨_, rfl⟩

/-- A lane of a dispatch, computed or zeroed, holds a YF below 2^W. -/
theorem laneOut_laneOf_yf_lt (i : Instr) (s : State) (j : Fin 16) :
    (laneOut i.lanes (laneOf i) s j).yf.toNat < 2 ^ i.prec.width := by
  unfold laneOut
  split
  · obtain ⟨r, hr⟩ := laneOf_yf_eq_zext64 i (laneIn s j)
    exact hr ▸ zext64_toNat_lt r
  · exact Nat.two_pow_pos _

/-- Settles O21: a binary32 pattern has 32 bits, and every YF lane is a zero-extended pattern. -/
theorem upperHalfZero : Obligations.UpperHalfZero := by
  intro i s t hp ht j
  obtain ⟨t', ht', hlanes⟩ := exec_lanes i s
  obtain rfl : t' = t := by simpa [ht'] using ht
  have hyf : t'.yf[j] = (laneOut i.lanes (laneOf i) s j).yf := congrArg LaneOut.yf (hlanes j)
  have hw : i.prec.width = 32 := by rw [hp]; rfl
  rw [hyf, ← hw]
  exact laneOut_laneOf_yf_lt i s j

end Sys2Proof.Machine

/-! PROOF. O31: RoundRNE is round to nearest, ties to even (spec/00_scope.md R19). Below the overflow bound the result is
N·q for the quantum q of v and N the rounded quotient v/q. A pattern's magnitude is a multiple k·q, and N is the integer
nearest to v/q; or it lies below v's binade, and then the binade's lower end, a multiple of q, is nearer to v than it. -/

namespace Sys2Proof.Machine

open Sys2Proof Sys2Proof.Claims

variable {P : Prec}

theorem overflowBound_eq (P : Prec) : overflowBound P = (2 - pow2 (-(P.fracBits + 1))) * pow2 P.emax := by
  rw [overflowBound, pow2_eq_zpow, pow2_eq_zpow]

theorem overflowBound_pos (P : Prec) : 0 < overflowBound P := by
  have h : (2 : ℚ) ^ (-(P.fracBits + 1 : ℤ)) ≤ 1 := zpow_le_one_of_nonpos₀ (by norm_num) (by omega)
  exact mul_pos (by linarith) (by positivity)

theorem roundRNE_zero (s : Bool) : roundRNE P s 0 = zeroPat P s := if_pos rfl

/-- From the overflow bound on RoundRNE gives the infinity (R19). -/
theorem roundRNE_of_overflow (s : Bool) {v : ℚ} (h : overflowBound P ≤ v) : roundRNE P s v = infPat P s := by
  have hv : v ≠ 0 := ((overflowBound_pos P).trans_le h).ne'
  rw [overflowBound_eq] at h
  rw [roundRNE, if_neg hv, if_pos h]

/-! ### The nearest integer -/

/-- An integer other than the rounded one is at least one half away. -/
theorem half_le_abs_sub_of_ne {m : ℚ} (hm : 0 ≤ m) {k : ℕ} (hk : k ≠ roundTiesEven m) : 1 / 2 ≤ |(k : ℚ) - m| := by
  have hd : (1 : ℚ) ≤ |(k : ℚ) - roundTiesEven m| := by
    have : (1 : ℤ) ≤ |(k : ℤ) - roundTiesEven m| := Int.one_le_abs (by omega)
    exact_mod_cast this
  have ht := abs_sub_le (k : ℚ) m (roundTiesEven m)
  rw [abs_sub_comm m] at ht
  linarith [abs_roundTiesEven_sub_le hm]

/-- No integer is nearer than the rounded one. -/
theorem abs_roundTiesEven_sub_le_abs_sub {m : ℚ} (hm : 0 ≤ m) (k : ℕ) :
    |(roundTiesEven m : ℚ) - m| ≤ |(k : ℚ) - m| := by
  by_cases hk : k = roundTiesEven m
  · rw [hk]
  · exact (abs_roundTiesEven_sub_le hm).trans (half_le_abs_sub_of_ne hm hk)

/-- Where another integer is as near, the rounded one is even. -/
theorem roundTiesEven_even_of_abs_eq {m : ℚ} (hm : 0 ≤ m) {k : ℕ} (hk : k ≠ roundTiesEven m)
    (h : |(roundTiesEven m : ℚ) - m| = |(k : ℚ) - m|) : roundTiesEven m % 2 = 0 :=
  roundTiesEven_even_of_tie hm
    (le_antisymm (abs_roundTiesEven_sub_le hm) (h ▸ half_le_abs_sub_of_ne hm hk))

/-! ### The parity of the fraction -/

/-- An even significand gives an even fraction field, through the carry and the overflow too. -/
theorem frac_assemble_even (s : Bool) {S : ℕ} (qt : ℤ) (hS : S % 2 = 0) : frac (assemble P s S qt) % 2 = 0 := by
  have h2 : 2 ∣ 2 ^ P.fracBits := dvd_pow_self 2 (fracBits_pos P).ne'
  have hpack : ∀ E F : ℕ, 2 ∣ F → frac (pack P s E F) % 2 = 0 := fun E F hF => by
    rw [frac_pack]; exact Nat.mod_eq_zero_of_dvd ((Nat.dvd_mod_iff h2).2 hF)
  have hS' : 2 ∣ if S = 2 ^ (P.fracBits + 1) then 2 ^ P.fracBits else S := by
    split
    · exact h2
    · exact Nat.dvd_of_mod_eq_zero hS
  unfold assemble infPat
  simp only
  generalize (if S = 2 ^ (P.fracBits + 1) then 2 ^ P.fracBits else S) = S' at hS' ⊢
  generalize (if S = 2 ^ (P.fracBits + 1) then qt + 1 else qt) = q
  split_ifs
  · exact hpack _ 0 (dvd_zero 2)
  · exact hpack _ _ (Nat.dvd_sub hS' h2)
  · exact hpack _ _ hS'

theorem frac_roundRNE_even (s : Bool) {v : ℚ} (h : roundTiesEven (v / pow2 (quantumExp P v)) % 2 = 0) :
    frac (roundRNE P s v) % 2 = 0 := by
  unfold roundRNE
  split_ifs
  · simp [zeroPat]
  · simp [infPat]
  · exact frac_assemble_even s _ h

/-! ### Magnitudes and the quantum -/

/-- A magnitude is a significand of at most FW + 1 bits at an exponent from the least one on (R15). -/
theorem magnitude_eq_significand (y : Pat P) :
    ∃ (M : ℕ) (t : ℤ), M < 2 ^ (P.fracBits + 1) ∧ P.emin - P.fracBits ≤ t ∧ magnitude y = M * pow2 t := by
  have hf := frac_lt y
  have hb := emin_bias P
  by_cases h0 : expf y = 0
  · exact ⟨frac y, P.emin - P.fracBits, by rw [pow_succ]; omega, le_rfl, if_pos h0⟩
  · exact ⟨2 ^ P.fracBits + frac y, expf y - P.bias - P.fracBits, by rw [pow_succ]; omega, by omega, if_neg h0⟩

/-- A magnitude is a multiple of a quantum 2^qt, or below the binade of that quantum; the latter only above the least
quantum. -/
theorem magnitude_multiple_or_lt (y : Pat P) (qt : ℤ) :
    (∃ k : ℕ, magnitude y = k * pow2 qt) ∨ (P.emin - P.fracBits < qt ∧ magnitude y < pow2 (qt + P.fracBits)) := by
  obtain ⟨M, t, hM, ht, hmag⟩ := magnitude_eq_significand y
  have two : (2 : ℚ) ≠ 0 := by norm_num
  rcases le_or_gt qt t with hqt | hqt
  · left
    refine ⟨M * 2 ^ (t - qt).toNat, ?_⟩
    have hsplit : t = (t - qt).toNat + qt := by omega
    rw [hmag, pow2_eq_zpow, pow2_eq_zpow]
    conv_lhs => rw [hsplit, zpow_add₀ two, zpow_natCast]
    push_cast; ring
  · right
    refine ⟨by omega, ?_⟩
    calc magnitude y = M * pow2 t := hmag
      _ < 2 ^ (P.fracBits + 1) * pow2 t := by
        have : (M : ℚ) < 2 ^ (P.fracBits + 1) := by exact_mod_cast hM
        exact mul_lt_mul_of_pos_right this (pow2_pos t)
      _ = pow2 (t + 1 + P.fracBits) := by
        rw [pow2_eq_zpow, pow2_eq_zpow, ← zpow_natCast, ← zpow_add₀ two]; congr 1; push_cast; ring
      _ ≤ pow2 (qt + P.fracBits) := by
        rw [pow2_eq_zpow, pow2_eq_zpow]
        exact zpow_le_zpow_right₀ (by norm_num) (by omega)

/-- Above the least quantum, v is not below the binade of its quantum. -/
theorem pow2_quantumExp_le {v : ℚ} (hv : 0 < v) (hq : P.emin - P.fracBits < quantumExp P v) :
    pow2 (quantumExp P v + P.fracBits) ≤ v := by
  have he : quantumExp P v + P.fracBits = floorLog2 v := by unfold quantumExp at *; omega
  rw [he]
  exact (floorLog2_spec hv).1

/-- The lower end of the binade of a quantum is a multiple of it. -/
theorem pow2_add_fracBits (qt : ℤ) : pow2 (qt + P.fracBits) = ((2 ^ P.fracBits : ℕ) : ℚ) * pow2 qt := by
  rw [pow2_eq_zpow, pow2_eq_zpow, zpow_add₀ (by norm_num), zpow_natCast]; push_cast; ring

/-- A distance to v, counted in a quantum. -/
theorem abs_mul_pow2_sub (k : ℕ) (v : ℚ) (qt : ℤ) : |(k : ℚ) * pow2 qt - v| = |(k : ℚ) - v / pow2 qt| * pow2 qt := by
  have hq := pow2_pos qt
  rw [← abs_of_pos hq, ← abs_mul, abs_of_pos hq, sub_mul, div_mul_cancel₀ v hq.ne']

/-- No magnitude is nearer to v than that of its rounding, and where another magnitude is as near the fraction is even. -/
theorem roundRNE_nearest (s : Bool) {v : ℚ} (hv : 0 < v) (hov : v < overflowBound P) (y : Pat P) :
    |magnitude (roundRNE P s v) - v| ≤ |magnitude y - v| ∧
    (|magnitude (roundRNE P s v) - v| = |magnitude y - v| → magnitude y ≠ magnitude (roundRNE P s v) →
      frac (roundRNE P s v) % 2 = 0) := by
  obtain ⟨-, hmag⟩ := roundRNE_spec s hv (overflowBound_eq P ▸ hov)
  have hq := pow2_pos (quantumExp P v)
  have hm : 0 ≤ v / pow2 (quantumExp P v) := (div_pos hv hq).le
  have hmultiple : ∀ k : ℕ, |magnitude (roundRNE P s v) - v| ≤ |k * pow2 (quantumExp P v) - v| := fun k => by
    rw [hmag, abs_mul_pow2_sub, abs_mul_pow2_sub]
    exact mul_le_mul_of_nonneg_right (abs_roundTiesEven_sub_le_abs_sub hm k) hq.le
  rcases magnitude_multiple_or_lt y (quantumExp P v) with ⟨k, hk⟩ | ⟨hgt, hlt⟩
  · refine ⟨hk ▸ hmultiple k, fun htie hne => frac_roundRNE_even s (roundTiesEven_even_of_abs_eq hm (k := k) ?_ ?_)⟩
    · rintro rfl
      exact hne (hk.trans hmag.symm)
    · rw [hmag, hk, abs_mul_pow2_sub, abs_mul_pow2_sub] at htie
      exact mul_right_cancel₀ hq.ne' htie
  · have hbinade := pow2_quantumExp_le hv hgt
    have hcloser : |magnitude (roundRNE P s v) - v| < |magnitude y - v| := by
      refine (hmultiple (2 ^ P.fracBits)).trans_lt ?_
      rw [← pow2_add_fracBits, abs_of_nonpos (by linarith), abs_of_nonpos (by linarith)]
      linarith
    exact ⟨hcloser.le, fun htie => absurd htie hcloser.ne⟩

/-- A zero rounds to the zero of its sign, and only a zero is as near to it. -/
theorem roundRNE_zero_nearest (s : Bool) (y : Pat P) :
    |magnitude (roundRNE P s 0) - 0| ≤ |magnitude y - 0| ∧
    (|magnitude (roundRNE P s 0) - 0| = |magnitude y - 0| → magnitude y ≠ magnitude (roundRNE P s 0) →
      frac (roundRNE P s 0) % 2 = 0) := by
  have h0 : magnitude (zeroPat P s) = 0 := magnitude_eq_zero_iff.2 (isZero_zeroPat s)
  simp only [roundRNE_zero, h0, sub_zero, abs_zero]
  exact ⟨abs_nonneg _, fun h hne => absurd (abs_eq_zero.1 h.symm) hne⟩

/-- Settles O31: at 0, below the overflow bound, and from the bound on. -/
theorem roundNearestEven : Obligations.RoundNearestEven := by
  refine fun P s v hv => ⟨fun hov => ?_, roundRNE_of_overflow s⟩
  rcases hv.eq_or_lt with rfl | hpos
  · exact ⟨by simp [roundRNE_zero, isFinite], sgn_roundRNE s 0, fun y _ => roundRNE_zero_nearest s y⟩
  · exact ⟨(roundRNE_spec s hpos (overflowBound_eq P ▸ hov)).1, sgn_roundRNE s v, fun y _ => roundRNE_nearest s hpos hov y⟩

end Sys2Proof.Machine

/-! PROOF. O32: which NaN a value is (spec/00_scope.md R17, R20). An operation quiets its first NaN operand; every shared
part of a function (a special value, a table, a reduction) keeps a value canonical, and so does every function of them. -/

namespace Sys2Proof.Machine

open Sys2Proof

variable {P : Prec}

/-! ### Clause 1 of R20: the first NaN operand, quieted -/

theorem operations_of_isNaN_fst {a : Pat P} (b c : Pat P) (ha : isNaN a = true) :
    fadd a b = quiet a ∧ fsub a b = quiet a ∧ fmul a b = quiet a ∧ fdiv a b = quiet a ∧ ffma a b c = quiet a := by
  simp [fadd, fsub, fmul, fdiv, ffma, ha]

theorem operations_of_isNaN_snd {a b : Pat P} (c : Pat P) (ha : isNaN a = false) (hb : isNaN b = true) :
    fadd a b = quiet b ∧ fsub a b = quiet b ∧ fmul a b = quiet b ∧ fdiv a b = quiet b ∧ ffma a b c = quiet b := by
  simp [fadd, fsub, fmul, fdiv, ffma, ha, hb]

theorem ffma_of_isNaN_trd {a b c : Pat P} (ha : isNaN a = false) (hb : isNaN b = false) (hc : isNaN c = true) :
    ffma a b c = quiet c := by
  simp [ffma, ha, hb, hc]

theorem fsub_eq_fadd_neg {a b : Pat P} (ha : isNaN a = false) (hb : isNaN b = false) : fsub a b = fadd a (neg b) := by
  simp [fsub, ha, hb]

theorem cNaN_toNat : (cNaN .b32).toNat = 0x7FC00000 ∧ (cNaN .b64).toNat = 0x7FF8000000000000 := by decide

/-! ### Special values -/

@[simp] theorem isNaN_onePat (P : Prec) : isNaN (onePat P) = false := by cases P <;> decide

@[simp] theorem isNaN_kPi (P : Prec) : isNaN (kPi P) = false := by cases P <;> decide

@[simp] theorem isNaN_kPiHalf (P : Prec) : isNaN (kPiHalf P) = false := by cases P <;> decide

/-- Sign(x) times a constant (43_special_values.md R229, R230). -/
theorem canonicalNaN_signed (s : Bool) {k : Pat P} (hk : isNaN k = false) : CanonicalNaN (if s then neg k else k) := by
  cases s
  · exact .of_not hk
  · exact .of_not ((isNaN_neg k).trans hk)

/-- A special value that is canonical if it is a hit. -/
def HitCanonical (o : Option (Pat P)) : Prop := ∀ v ∈ o, CanonicalNaN v

theorem hitCanonical_none : HitCanonical (none : Option (Pat P)) := fun _ h => by simp at h

/-- One entry of a table and the entries after it. -/
theorem HitCanonical.entry {p : Prop} [Decidable p] {v : Pat P} {o : Option (Pat P)} (hv : p → CanonicalNaN v)
    (ho : HitCanonical o) : HitCanonical (if p then some v else o) := by
  split
  · next hp =>
    rintro _ ⟨⟩
    exact hv hp
  · exact ho

/-- A hit of the table SV at canonical operands is canonical, entry by entry: a NaN operand quieted, cNaN itself, an
operand as it stands, or a constant that is no NaN (R224-R234). -/
theorem hitCanonical_sv (c : Cfg) (f : FnId) {a b : Pat P} (ha : CanonicalNaN a) (hb : CanonicalNaN b) :
    HitCanonical (sv c f a b) := by
  have hcNaN := canonicalNaN_cNaN P
  have hzero (s : Bool) : CanonicalNaN (zeroPat P s) := .of_not (isNaN_zeroPat s)
  have hinf (s : Bool) : CanonicalNaN (infPat P s) := .of_not (isNaN_infPat s)
  have hone : CanonicalNaN (onePat P) := .of_not (isNaN_onePat P)
  have hpi (s : Bool) : CanonicalNaN (if s then neg (kPi P) else kPi P) := canonicalNaN_signed s (isNaN_kPi P)
  have hhalf (s : Bool) : CanonicalNaN (if s then neg (kPiHalf P) else kPiHalf P) :=
    canonicalNaN_signed s (isNaN_kPiHalf P)
  cases f with
  | sin | tan => exact .entry ha.quiet <| .entry (fun _ => hcNaN) <| .entry (fun _ => ha) hitCanonical_none
  | cos => exact .entry ha.quiet <| .entry (fun _ => hcNaN) <| .entry (fun _ => hone) hitCanonical_none
  | asin => exact .entry ha.quiet <| .entry (fun _ => hcNaN) <| .entry (fun _ => ha) hitCanonical_none
  | acos => exact .entry ha.quiet <| .entry (fun _ => hcNaN) hitCanonical_none
  | atan => exact .entry ha.quiet <| .entry (fun _ => hhalf (sgn a)) <| .entry (fun _ => ha) hitCanonical_none
  | atan2 =>
    exact .entry ha.quiet <| .entry hb.quiet <| .entry (fun _ => hcNaN) <| .entry (fun _ => hhalf false) <|
      .entry (fun _ => hhalf true) <| .entry (fun _ => hzero _) <| .entry (fun _ => ha) <| .entry (fun _ => hpi false) <|
      .entry (fun _ => hhalf (sgn a)) <| .entry (fun _ => hzero _) <| .entry (fun _ => hpi (sgn a)) hitCanonical_none
  | exp | exp2 | exp10 =>
    refine .entry ha.quiet <| .entry (fun _ => hone) <| .entry (fun _ => ?_) hitCanonical_none
    split
    · exact hzero false
    · exact hinf false
  | log | log2 | log10 =>
    exact .entry ha.quiet <| .entry (fun _ => hcNaN) <| .entry (fun _ => hinf true) <| .entry (fun _ => hinf false) <|
      .entry (fun _ => hzero false) hitCanonical_none

/-- A command's result is canonical when its operands and its structural value are (R220). -/
theorem CanonicalNaN.resolve_sv (c : Cfg) (f : FnId) {a b r : Pat P} (ha : CanonicalNaN a) (hb : CanonicalNaN b)
    (hr : CanonicalNaN r) : CanonicalNaN (resolve (sv c f a b) r) := by
  have hsv := hitCanonical_sv c f ha hb
  unfold resolve
  split
  · next v hv => exact hsv v hv
  · exact hr

/-! ### The trigonometric family -/

theorem canonicalNaN_sinStruct {c : Cfg} {x : Pat P} (h : CanonicalNaN (c.sinBig P x)) : CanonicalNaN (sinStruct c x) := by
  unfold sinStruct
  split
  · exact canonicalNaN_canonNaN _
  · exact h

theorem canonicalNaN_cosStruct {c : Cfg} {x : Pat P} (h : CanonicalNaN (c.cosBig P x)) : CanonicalNaN (cosStruct c x) := by
  unfold cosStruct
  split
  · exact canonicalNaN_canonNaN _
  · exact h

theorem CanonicalNaN.fnSin {c : Cfg} {x : Pat P} (hx : CanonicalNaN x) (h : CanonicalNaN (c.sinBig P x)) :
    CanonicalNaN (fnSin c x) :=
  resolve_sv c .sin hx hx (canonicalNaN_sinStruct h)

theorem CanonicalNaN.fnCos {c : Cfg} {x : Pat P} (hx : CanonicalNaN x) (h : CanonicalNaN (c.cosBig P x)) :
    CanonicalNaN (fnCos c x) :=
  resolve_sv c .cos hx hx (canonicalNaN_cosStruct h)

theorem CanonicalNaN.fnTan {c : Cfg} {x : Pat P} (hx : CanonicalNaN x) (hs : CanonicalNaN (c.sinBig P x))
    (hc : CanonicalNaN (c.cosBig P x)) : CanonicalNaN (fnTan c x) :=
  resolve_sv c .tan hx hx ((canonicalNaN_sinStruct hs).fdiv (canonicalNaN_cosStruct hc))

/-! ### The inverse trigonometric family -/

theorem CanonicalNaN.fnAsin {c : Cfg} {x : Pat P} (hx : CanonicalNaN x) (h : CanonicalNaN (c.asinVal P x)) :
    CanonicalNaN (fnAsin c x) := by
  refine resolve_sv c .asin hx hx ?_
  unfold asinStruct
  split
  · exact hx.polyEval c .asin
  · exact h

theorem CanonicalNaN.fnAcos {c : Cfg} {x : Pat P} (hx : CanonicalNaN x) (hs : CanonicalNaN (c.asinVal P x))
    (hc : CanonicalNaN (c.acosVal P x)) : CanonicalNaN (fnAcos c x) := by
  refine resolve_sv c .acos hx hx ?_
  unfold acosStruct
  split
  · exact (of_not (isNaN_kPiHalf P)).fsub (hx.fnAsin hs)
  · exact hc

theorem CanonicalNaN.atanArg {x : Pat P} (hx : CanonicalNaN x) : CanonicalNaN (atanArg x) := by
  unfold Machine.atanArg
  split_ifs with hn
  · exact hx.quiet hn
  · exact (of_not (isNaN_onePat P)).fdiv hx
  · exact hx

theorem CanonicalNaN.fnAtan (c : Cfg) {x : Pat P} (hx : CanonicalNaN x) : CanonicalNaN (fnAtan c x) := by
  refine resolve_sv c .atan hx hx ?_
  unfold atanStruct
  split
  · exact CanonicalNaN.atanReciprocal c x (hx.atanArg.polyEval c .atan)
  · exact hx.polyEval c .atan

theorem CanonicalNaN.fnAtan2 (c : Cfg) {y x : Pat P} (hy : CanonicalNaN y) (hx : CanonicalNaN x) :
    CanonicalNaN (fnAtan2 c y x) := by
  have ht := (hy.fdiv hx).fnAtan c
  have hpi : CanonicalNaN (kPi P) := of_not (isNaN_kPi P)
  refine resolve_sv c .atan2 hy hx ?_
  unfold atan2Struct
  simp only
  split_ifs
  · exact ht
  · exact ht.fadd hpi
  · exact ht.fsub hpi

/-! ### The exponential and the logarithmic family -/

/-- A scaling constant is no NaN: a finite pattern of the configuration, or the default (R342, R373). -/
theorem canonicalNaN_finitePositive (x : Pat P) {d : Pat P} (hd : isNaN d = false) :
    CanonicalNaN (finitePositive x d) := by
  refine .of_not ?_
  unfold finitePositive
  split
  · next h =>
    simp only [Bool.and_eq_true, isFinite_iff] at h
    obtain ⟨⟨hfin, -⟩, -⟩ := h
    simp [isNaN, hfin.ne]
  · exact hd

theorem canonicalNaN_romLog2e (c : Cfg) (P : Prec) : CanonicalNaN (romLog2e c P) :=
  canonicalNaN_finitePositive _ (by cases P <;> decide)

theorem canonicalNaN_romLog2Ten (c : Cfg) (P : Prec) : CanonicalNaN (romLog2Ten c P) :=
  canonicalNaN_finitePositive _ (by cases P <;> decide)

theorem canonicalNaN_romLn2 (c : Cfg) (P : Prec) : CanonicalNaN (romLn2 c P) :=
  canonicalNaN_finitePositive _ (by cases P <;> decide)

theorem canonicalNaN_romLog10Two (c : Cfg) (P : Prec) : CanonicalNaN (romLog10Two c P) :=
  canonicalNaN_finitePositive _ (by cases P <;> decide)

theorem CanonicalNaN.exp2Frac {x : Pat P} (hx : CanonicalNaN x) : CanonicalNaN (exp2Frac x) := by
  unfold Machine.exp2Frac
  split_ifs with hn
  · exact hx.quiet hn
  · exact of_not (isNaN_zeroPat false)
  · exact hx
  · exact of_not (isNaN_zeroPat false)
  · exact of_not (isNaN_roundVal _)

theorem CanonicalNaN.fnExp2 (c : Cfg) {x : Pat P} (hx : CanonicalNaN x) : CanonicalNaN (fnExp2 c x) :=
  resolve_sv c .exp2 hx hx ((hx.exp2Frac.polyEval c .exp2).scalePat _)

theorem CanonicalNaN.fnExp (c : Cfg) {x : Pat P} (hx : CanonicalNaN x) : CanonicalNaN (fnExp c x) :=
  resolve_sv c .exp hx hx ((hx.fmul (canonicalNaN_romLog2e c P)).fnExp2 c)

theorem CanonicalNaN.fnExp10 (c : Cfg) {x : Pat P} (hx : CanonicalNaN x) : CanonicalNaN (fnExp10 c x) :=
  resolve_sv c .exp10 hx hx ((hx.fmul (canonicalNaN_romLog2Ten c P)).fnExp2 c)

theorem CanonicalNaN.fnLog2 {c : Cfg} {x : Pat P} (hx : CanonicalNaN x) (h : CanonicalNaN (c.log2Val P x)) :
    CanonicalNaN (fnLog2 c x) :=
  resolve_sv c .log2 hx hx h

theorem CanonicalNaN.fnLog {c : Cfg} {x : Pat P} (hx : CanonicalNaN x) (h : CanonicalNaN (c.log2Val P x)) :
    CanonicalNaN (fnLog c x) :=
  resolve_sv c .log hx hx ((hx.fnLog2 h).fmul (canonicalNaN_romLn2 c P))

theorem CanonicalNaN.fnLog10 {c : Cfg} {x : Pat P} (hx : CanonicalNaN x) (h : CanonicalNaN (c.log2Val P x)) :
    CanonicalNaN (fnLog10 c x) :=
  resolve_sv c .log10 hx hx ((hx.fnLog2 h).fmul (canonicalNaN_romLog10Two c P))

/-! ### The obligation -/

/-- The operations make no NaN but cNaN of operands that are no NaN. -/
theorem canonicalNaN_operations {a b : Pat P} (c : Pat P) (ha : isNaN a = false) (hb : isNaN b = false) :
    CanonicalNaN (fadd a b) ∧ CanonicalNaN (fsub a b) ∧ CanonicalNaN (fmul a b) ∧ CanonicalNaN (fdiv a b) ∧
    (isNaN c = false → CanonicalNaN (ffma a b c)) := by
  have ha' := CanonicalNaN.of_not ha
  have hb' := CanonicalNaN.of_not hb
  exact ⟨ha'.fadd hb', ha'.fsub hb', ha'.fmul hb', ha'.fdiv hb', fun hc => ha'.ffma hb' (.of_not hc)⟩

/-- The 13 functions keep a value canonical where the free values of the configuration are. -/
theorem CanonicalNaN.fnResult {c : Cfg} (f : FnId) {a b : Pat P} (ha : CanonicalNaN a)
    (hb : f = .atan2 → CanonicalNaN b) (hasin : CanonicalNaN (c.asinVal P a)) (hacos : CanonicalNaN (c.acosVal P a))
    (hlog2 : CanonicalNaN (c.log2Val P a)) (hsin : CanonicalNaN (c.sinBig P a)) (hcos : CanonicalNaN (c.cosBig P a)) :
    CanonicalNaN (fnResult c f a b) := by
  cases f with
  | sin => exact ha.fnSin hsin
  | cos => exact ha.fnCos hcos
  | tan => exact ha.fnTan hsin hcos
  | asin => exact ha.fnAsin hasin
  | acos => exact ha.fnAcos hasin hacos
  | atan => exact ha.fnAtan c
  | atan2 => exact ha.fnAtan2 c (hb rfl)
  | exp => exact ha.fnExp c
  | exp2 => exact ha.fnExp2 c
  | exp10 => exact ha.fnExp10 c
  | log => exact ha.fnLog hlog2
  | log2 => exact ha.fnLog2 hlog2
  | log10 => exact ha.fnLog10 hlog2

/-- Settles O32: clause 1 of R20 operation by operation, then canonicity of the operations, of tables and scalings, and
of the 13 functions. -/
theorem nanOfOperations : Obligations.NaNOfOperations :=
  ⟨cNaN_toNat,
    fun _ _ b c => ⟨operations_of_isNaN_fst b c, operations_of_isNaN_snd c, ffma_of_isNaN_trd,
      fun ha hb => ⟨fsub_eq_fadd_neg ha hb, canonicalNaN_operations c ha hb⟩⟩,
    fun c _ t _ k hx => ⟨(CanonicalNaN.of_not hx).polyEval c t, (CanonicalNaN.of_not hx).scalePat k⟩,
    fun _ f _ _ _ ha hb hasin hacos hlog2 hsin hcos =>
      CanonicalNaN.fnResult f (.of_not ha) (fun hf => .of_not (hb hf)) hasin hacos hlog2 hsin hcos⟩

end Sys2Proof.Machine

/-! PROOF. The decoder's answers (spec/30_encoding.md R101, R103): a decoded command is well-formed, and a word is
illegal exactly when none is decoded. -/

namespace Sys2Proof

theorem illegal_of_decode_ok {v : Word} {i : Instr} (h : decode v = .ok i) : illegal v = false := by simp [illegal, h]

theorem illegal_of_decode_error {v : Word} {e : Illegal} (h : decode v = .error e) : illegal v = true := by
  simp [illegal, h]

theorem decodeTableWord_eq_some_iff {nbits w : Nat} {i : Instr} :
    decodeTableWord nbits w = some i ↔ decode (tableWord nbits w) = .ok i := by
  unfold decodeTableWord
  split
  · next j hj => simp [hj]
  · next e he => simp [he]

/-- A command that takes no AUX is decoded only as it stands (R101 clause 4). -/
theorem withoutAux_eq_ok_iff {aux : BitVec 8} {i j : Instr} : withoutAux aux i = .ok j ↔ aux = 0 ∧ i = j := by
  unfold withoutAux
  split <;> simp_all

theorem decodePeEval_wellFormedIn {m : AcosMode} {p : Prec} {n : LaneCount} {aux : BitVec 8} {i : Instr}
    (h : decodePeEval m p n aux = .ok i) : i.wellFormedIn m = true := by
  unfold decodePeEval at h
  split at h
  · split at h
    · next hpresent =>
      cases h
      exact hpresent
    · cases h
  · cases h

theorem decodeSvResolve_wellFormedIn (m : AcosMode) {p : Prec} {n : LaneCount} {aux : BitVec 8} {i : Instr}
    (h : decodeSvResolve p n aux = .ok i) : i.wellFormedIn m = true := by
  unfold decodeSvResolve at h
  split at h <;> cases h
  rfl

/-- Row by row of the opcode map: PE.EVAL checks its table, no other command has anything to check. -/
theorem decodeOp_wellFormedIn {m : AcosMode} {op : BitVec 8} {p : Prec} {n : LaneCount} {aux : BitVec 8} {i : Instr}
    (h : decodeOp m op p n aux = .ok i) : i.wellFormedIn m = true := by
  unfold decodeOp at h
  split at h
  case h_8 => exact decodePeEval_wellFormedIn h
  case h_9 => exact decodeSvResolve_wellFormedIn m h
  case h_23 => cases h
  all_goals
    obtain ⟨-, rfl⟩ := withoutAux_eq_ok_iff.1 h
    rfl

theorem decodeIn_wellFormedIn {m : AcosMode} {v : Word} {i : Instr} (h : decodeIn m v = .ok i) :
    i.wellFormedIn m = true := by
  unfold decodeIn at h
  split at h
  · cases h
  · split at h
    · exact decodeOp_wellFormedIn h
    · cases h

theorem decode_wellFormed {v : Word} {i : Instr} (h : decode v = .ok i) : i.wellFormed = true := decodeIn_wellFormedIn h

end Sys2Proof

/-! PROOF. O14, O15: the invariant holds after reset and every step keeps it (spec/10_state.md R36, R37;
30_encoding.md R102; 44_lane_dispatch.md R263; 70_reset_and_hazards.md R460, R466). It speaks of CMD, STATUS.ILL and the
outputs alone, and only a reset and a CMD write change one of those. -/

namespace Sys2Proof.Machine

open Sys2Proof

theorem SameOutputs.symm {s t : State} (h : SameOutputs s t) : SameOutputs t s :=
  sameOutputs_iff.2 fun j => (sameOutputs_iff.1 h j).symm

theorem SameOutputs.trans {s t u : State} (h : SameOutputs s t) (h' : SameOutputs t u) : SameOutputs s u :=
  sameOutputs_iff.2 fun j => (sameOutputs_iff.1 h j).trans (sameOutputs_iff.1 h' j)

theorem sameOutputs_latchCommand (v : Word) (b : Bool) (s : State) : SameOutputs s (latchCommand v b s) :=
  ⟨rfl, rfl, rfl, rfl⟩

/-- A change of CMD and STATUS.ILL keeps the outputs explained, if an ILL of 0 still says what CMD has to do with them:
CMD stays as it is with ILL, or ILL is 1. -/
theorem OutputsExplained.of_sameOutputs {s t : State} (h : OutputsExplained s) (hout : SameOutputs s t)
    (hcmd : t.ill = false → s.ill = false ∧ t.cmd = s.cmd) : OutputsExplained t := by
  rcases h with ⟨hreset, hzero⟩ | ⟨i, before, after, hwf, hexec, hafter, hdecode⟩
  · refine .inl ⟨hout.symm.trans hreset, fun hill => ?_⟩
    obtain ⟨hs, hc⟩ := hcmd hill
    exact hc.trans (hzero hs)
  · refine .inr ⟨i, before, after, hwf, hexec, hout.symm.trans hafter, fun hill => ?_⟩
    obtain ⟨hs, hc⟩ := hcmd hill
    exact hc ▸ hdecode hs

/-- The invariant does not see the inputs and the host side. -/
theorem Inv.of_sameOutputs {s t : State} (h : Inv s) (hcmd : t.cmd = s.cmd) (hill : t.ill = s.ill)
    (hout : SameOutputs s t) : Inv t := by
  obtain ⟨hstatus, hexplained⟩ := h
  refine ⟨?_, hexplained.of_sameOutputs hout fun ht => ⟨hill ▸ ht, hcmd⟩⟩
  rw [StatusTracksCommand, hcmd, hill]
  exact hstatus

theorem inv_reset : Inv State.reset :=
  ⟨⟨fun h => (Bool.false_ne_true h).elim, fun _ => .inr rfl⟩, .inl ⟨⟨rfl, rfl, rfl, rfl⟩, fun _ => rfl⟩⟩

theorem inv_resetBlock (rest : List HostEvent) (s : State) : Inv (resetBlock rest s) :=
  inv_reset.of_sameOutputs rfl rfl ⟨rfl, rfl, rfl, rfl⟩

/-- An illegal word leaves the outputs to the command that wrote them, and ILL says that CMD is not that command
(R102). -/
theorem Inv.latchCommand_illegal {s : State} (h : Inv s) {v : Word} {e : Illegal} (hv : decode v = .error e) :
    Inv (latchCommand v true s) := by
  obtain ⟨-, hexplained⟩ := h
  have hnotLegal : (latchCommand v true s).ill ≠ false := by simp
  exact ⟨⟨fun _ => illegal_of_decode_error hv, fun h => absurd h hnotLegal⟩,
    hexplained.of_sameOutputs (sameOutputs_latchCommand v true s) fun h => absurd h hnotLegal⟩

/-- A legal word's command explains all the outputs, whatever they were before (R263, R466). -/
theorem inv_dispatch_latchCommand {v : Word} {i : Instr} (hv : decode v = .ok i) (s : State) :
    Inv (dispatch i.lanes (laneOf i) (latchCommand v false s)) :=
  ⟨⟨fun h => (Bool.false_ne_true h).elim, fun _ => .inl (illegal_of_decode_ok hv)⟩,
    .inr ⟨i, latchCommand v false s, _, decode_wellFormed hv, exec_eq_dispatch i _, ⟨rfl, rfl, rfl, rfl⟩,
      fun _ => hv⟩⟩

theorem Inv.nextAccess {s : State} (h : Inv s) (rest : List HostEvent) : Inv (nextAccess rest s) :=
  h.of_sameOutputs rfl rfl ⟨rfl, rfl, rfl, rfl⟩

theorem Inv.deliverRead {s : State} (h : Inv s) (v : Word) : Inv (deliverRead v s) :=
  h.of_sameOutputs rfl rfl ⟨rfl, rfl, rfl, rfl⟩

theorem Inv.writeReg {s : State} (h : Inv s) (r : Reg) (v : Word) : Inv (writeReg r v s) :=
  h.of_sameOutputs (writeReg_cmd r v s) (writeReg_ill r v s)
    ⟨(writeReg_yf r v s).symm, (writeReg_yn r v s).symm, (writeReg_ys r v s).symm, (writeReg_ym r v s).symm⟩

/-- Every host event keeps the invariant: a reset, a read, a write past CMD, a legal and an illegal CMD write. -/
theorem Inv.hostEvent {s t : State} (h : Inv s) {ev : HostEvent} {rest : List HostEvent}
    (hev : hostEvent ev rest s = .next t) : Inv t := by
  rcases hostEvent_cases hev with ⟨-, rfl⟩ | ⟨_, _, r, -, -, rfl⟩ | ⟨_, _, r, v, -, -, -, rfl⟩ |
    ⟨_, _, v, i, -, -, hlegal, rfl⟩ | ⟨_, _, v, e, -, -, hillegal, rfl⟩
  · exact inv_resetBlock rest s
  · exact (h.nextAccess rest).deliverRead _
  · exact (h.nextAccess rest).writeReg r v
  · exact inv_dispatch_latchCommand hlegal _
  · exact (h.nextAccess rest).latchCommand_illegal hillegal

/-- Settles O14: CMD and STATUS.ILL are 0 and no command has run. -/
theorem invAtReset : Obligations.InvAtReset := inv_reset

/-- Settles O15: a step waits, or it is a host event. -/
theorem invKeptByStep : Obligations.InvKeptByStep := by
  intro s t h hstep
  rcases step_cases hstep with ⟨-, rfl⟩ | ⟨ev, rest, -, hev⟩
  · exact h
  · exact h.hostEvent hev

end Sys2Proof.Machine

/-! PROOF. O8: a fetched word is a CMD write, and a legal CMD write runs its command (spec/10_state.md R31,
20_memory.md R63). -/

namespace Sys2Proof.Machine

open Sys2Proof

theorem commandWrite_of_decode_ok {v : Word} {i : Instr} (h : decode v = .ok i) (s : State) :
    commandWrite v s = exec i (latchCommand v false s) := by
  simp [commandWrite, h]

/-- The access that writes CMD is answered, as the CMD write of its word (R61, R62). -/
theorem hostEvent_commandEvent (v : Word) (rest : List HostEvent) (s : State) :
    hostEvent (commandEvent v) rest s = commandWrite v (nextAccess rest s) := by
  simp [hostEvent, commandEvent, regAt_regOffset_cmd, hostWrite]

/-- Settles O8: the CMD write stands first in the queue, and taking it leaves the host's other accesses as they were. -/
theorem fetchWordRunsNext : Obligations.FetchWordRunsNext := by
  intro s nbits w i h
  calc step (s.withFetchWord nbits w)
      = hostEvent (commandEvent (tableWord nbits w)) s.hostQueue (s.withFetchWord nbits w) :=
        step_of_queue (withFetchWord_hostQueue nbits w s)
    _ = commandWrite (tableWord nbits w) (nextAccess s.hostQueue (s.withFetchWord nbits w)) :=
        hostEvent_commandEvent _ _ _
    _ = exec i (latchCommand (tableWord nbits w) false (nextAccess s.hostQueue (s.withFetchWord nbits w))) :=
        commandWrite_of_decode_ok (decodeTableWord_eq_some_iff.1 h) _
    _ = exec i { s with cmd := tableWord nbits w, ill := false, hostIndex := s.hostIndex + 1 } := congrArg (exec i) rfl

end Sys2Proof.Machine

/-! PROOF. O17, O20: what a command leaves unchanged (spec/10_state.md R32, R33, R39), and what of its operands it does
not read (R34; 00_scope.md R25). Both follow from the command being its lane function, dispatched. -/

namespace Sys2Proof.Machine

open Sys2Proof Sys2Proof.Claims

theorem exec_eq_next_iff {i : Instr} {s t : State} : exec i s = .next t ↔ t = dispatch i.lanes (laneOf i) s := by
  rw [exec_eq_dispatch, Host.Outcome.next.injEq, eq_comm]

/-! ### The frame -/

theorem sameInputs_dispatch (n : LaneCount) (f : LaneIn → LaneOut) (s : State) : SameInputs s (dispatch n f s) := by
  simp [SameInputs]

/-- A dispatch changes what the host reads at the output lanes only. -/
theorem readReg_dispatch (n : LaneCount) (f : LaneIn → LaneOut) (s : State) {r : Reg}
    (hr : ∀ j, r ≠ .yf j ∧ r ≠ .yn j ∧ r ≠ .ys j ∧ r ≠ .ym j) : readReg (dispatch n f s) r = readReg s r := by
  cases r with
  | cmd | status | xa | xb | xn | reserved => simp [readReg]
  | xs j => rw [readReg, readReg, dispatch_xs]
  | yf j | yn j | ys j | ym j => simpa using hr j

/-- Settles O17: a command is a dispatch, which writes the output files and no other field. -/
theorem commandFrame : Obligations.CommandFrame := by
  intro i s t h
  obtain rfl := exec_eq_next_iff.1 h
  exact ⟨sameInputs_dispatch _ _ s, dispatch_cmd _ _ s, dispatch_ill _ _ s, dispatch_hostQueue _ _ s,
    dispatch_hostIndex _ _ s, dispatch_hostReads _ _ s, fun r hr => readReg_dispatch _ _ s hr⟩

/-! ### The operands a command reads -/

/-- The fraction field FD.COMPOSE cuts out of XA lies in the operand of the command's precision (R25, R133). -/
theorem setWidth_fracBits_opP (P : Prec) (v : Word) : (opP P v).setWidth P.fracBits = v.setWidth P.fracBits :=
  BitVec.setWidth_setWidth_of_le v (by omega)

/-- The table SV looks at its second operand for ATAN2 alone (43_special_values.md R220, R222). -/
theorem sv_congr_snd (c : Cfg) (f : FnId) {P : Prec} (a : Pat P) {b b' : Pat P} (h : f = .atan2 → b = b') :
    sv c f a b = sv c f a b' := by
  cases f with
  | atan2 => rw [h rfl]
  | _ => rfl

/-- Two lanes that agree on what the command reads: XA at its precision, and XB, XN and XS as far as R34 lists them. -/
structure ReadsAgree (i : Instr) (l l' : LaneIn) : Prop where
  xa : opP i.prec l.a = opP i.prec l'.a
  xb : readsXB i → opP i.prec l.b = opP i.prec l'.b
  xn : readsXN i → l.n = l'.n
  xs : readsXS i → l.s = l'.s

/-- A command's result depends on what it reads: FD.COMPOSE, FD.SCALE, SV.RESOLVE and ATAN2 read more than XA. -/
theorem laneOf_eq_of_readsAgree {i : Instr} {l l' : LaneIn} (h : ReadsAgree i l l') : laneOf i l = laneOf i l' := by
  obtain ⟨ha, hb, hn, hs⟩ := h
  cases i with
  | fdCompose p n =>
    have hfrac : l.a.setWidth p.fracBits = l'.a.setWidth p.fracBits := by
      rw [← setWidth_fracBits_opP, ← setWidth_fracBits_opP]
      exact congrArg _ ha
    simp only [laneOf, laneFdCompose, hfrac, hn trivial, hs trivial]
  | fdScale p n =>
    simp only [Instr.prec] at ha
    simp only [laneOf, laneFdScale, ha, hn trivial]
  | svResolve p n f =>
    simp only [Instr.prec] at ha hb
    have hsv : sv Config.cfg f (opP p l'.a) (opP p l.b) = sv Config.cfg f (opP p l'.a) (opP p l'.b) :=
      sv_congr_snd _ f _ fun hf => hb (by subst hf; trivial)
    simp only [laneOf, laneSvResolve, ha, hsv]
  | atan2 p n =>
    simp only [Instr.prec] at ha hb
    simp only [laneOf, laneAtan2, ha, hb trivial]
  | _ =>
    simp only [Instr.prec] at ha
    simp only [laneOf, laneFdDecomp, laneFdNorm, laneRrTrig, laneRrExp2, laneRrAtan, lanePeEval, laneSin, laneCos,
      laneTan, laneAsin, laneAcos, laneAtan, laneExp, laneExp2, laneExp10, laneLog, laneLog2, laneLog10, ha]

/-- Settles O20: below the lane count the lane function's result depends on what is read, and from it on the lane is 0
(44_lane_dispatch.md R263). -/
theorem unreadOperandsIgnored : Obligations.UnreadOperandsIgnored := by
  intro i s s' t t' j ht ht' ha hb hn hs
  obtain rfl := exec_eq_next_iff.1 ht
  obtain rfl := exec_eq_next_iff.1 ht'
  have hagree : ReadsAgree i (laneIn s j) (laneIn s' j) := ⟨ha, hb, hn, hs⟩
  rw [outLane_dispatch, outLane_dispatch, laneOut, laneOut, laneOf_eq_of_readsAgree hagree]

end Sys2Proof.Machine

/-! PROOF. O6, O16: the access that writes CMD is the CMD write of its word (spec/20_memory.md R63, R70, R73), and writing
the same word again changes nothing a host can see (R69), because a command's outputs depend on the inputs alone. -/

namespace Sys2Proof.Machine

open Sys2Proof

/-- The step on a queue that begins with a write at CMD's offset, 0. -/
theorem step_of_cmdWrite {s : State} {v : Word} {rest : List HostEvent} (h : s.hostQueue = .write 0 8 v :: rest) :
    step s = commandWrite v (nextAccess rest s) :=
  (step_of_queue h).trans (hostEvent_commandEvent v rest s)

/-- Settles O6: the step is the CMD write, and the CMD write of a legal word is its command in the latched state. -/
theorem stepRunsDecodedCommand : Obligations.StepRunsDecodedCommand := by
  intro s v rest i hq hv
  calc step s
      = commandWrite v (nextAccess rest s) := step_of_cmdWrite hq
    _ = exec i (latchCommand v false (nextAccess rest s)) := commandWrite_of_decode_ok hv _

/-! ### The same word again -/

theorem commandWrite_of_decode_error {v : Word} {e : Illegal} (h : decode v = .error e) (s : State) :
    commandWrite v s = .next (latchCommand v true s) := by
  simp [commandWrite, h]

theorem laneIn_eq_of_sameInputs {s s' : State} (h : SameInputs s s') (j : Fin 16) : laneIn s j = laneIn s' j := by
  obtain ⟨ha, hb, hn, hs⟩ := h
  simp [laneIn, ha, hb, hn, hs]

/-- The outputs of a command depend on the inputs alone (44_lane_dispatch.md R260, R263). -/
theorem sameOutputs_dispatch (n : LaneCount) (f : LaneIn → LaneOut) {s s' : State} (h : SameInputs s s') :
    SameOutputs (dispatch n f s) (dispatch n f s') :=
  sameOutputs_iff.2 fun j => by simp only [outLane_dispatch, laneOut, laneIn_eq_of_sameInputs h j]

/-- A CMD write of v leads from s to t and keeps the host's queue, and a CMD write of v made next, whatever accesses come
after it, leaves a state that agrees with t on outputs, inputs, CMD and STATUS. -/
structure CmdWriteSettles (v : Word) (s t : State) : Prop where
  write : commandWrite v s = .next t
  hostQueue : t.hostQueue = s.hostQueue
  again : ∀ rest, ∃ u, commandWrite v (nextAccess rest t) = .next u ∧ SameOutputs t u ∧ SameInputs t u ∧
    t.cmd = u.cmd ∧ t.ill = u.ill

/-- An illegal word writes no output, the first time and the second (30_encoding.md R102). -/
theorem cmdWriteSettles_of_decode_error {v : Word} {e : Illegal} (hv : decode v = .error e) (s : State) :
    CmdWriteSettles v s (latchCommand v true s) where
  write := commandWrite_of_decode_error hv s
  hostQueue := rfl
  again _ := ⟨_, commandWrite_of_decode_error hv _, ⟨rfl, rfl, rfl, rfl⟩, ⟨rfl, rfl, rfl, rfl⟩, rfl, rfl⟩

/-- A legal word's command runs twice on the same inputs, which it does not change (R32, R63). -/
theorem cmdWriteSettles_of_decode_ok {v : Word} {i : Instr} (hv : decode v = .ok i) (s : State) :
    CmdWriteSettles v s (dispatch i.lanes (laneOf i) (latchCommand v false s)) where
  write := (commandWrite_of_decode_ok hv s).trans (exec_eq_dispatch i _)
  hostQueue := rfl
  again _ := ⟨_, (commandWrite_of_decode_ok hv _).trans (exec_eq_dispatch i _),
    sameOutputs_dispatch _ _ (by simp [SameInputs]), by simp [SameInputs], by simp, by simp⟩

theorem exists_cmdWriteSettles (v : Word) (s : State) : ∃ t, CmdWriteSettles v s t := by
  cases hv : decode v with
  | ok i => exact ⟨_, cmdWriteSettles_of_decode_ok hv s⟩
  | error e => exact ⟨_, cmdWriteSettles_of_decode_error hv s⟩

/-- Settles O16: both steps are CMD writes of the word, the second one in the state the first one left. -/
theorem cmdWriteIdempotent : Obligations.CmdWriteIdempotent := by
  intro s v rest hq
  obtain ⟨t, hwrite, hqueue, hagain⟩ := exists_cmdWriteSettles v (nextAccess (.write 0 8 v :: rest) s)
  obtain ⟨u, hwrite', hsame⟩ := hagain rest
  exact ⟨t, u, (step_of_cmdWrite hq).trans hwrite, (step_of_cmdWrite hqueue).trans hwrite', hsame⟩

end Sys2Proof.Machine

/-! PROOF. O10, O11, O13: the registers of the window by offset (spec/20_memory.md R60-R62), and what a host read and a
host write at each of them do (R64-R66). -/

namespace Sys2Proof.Machine

open Sys2Proof Sys2Proof.Claims

/-- The words between STATUS and the lane files and after the lane files are reserved (R61). -/
theorem regOfIndex_reserved {k : Nat} (hk : (2 ≤ k ∧ k < 32) ∨ 160 ≤ k) : regOfIndex k = .reserved k := by
  unfold regOfIndex
  split
  case h_1 => rw [if_neg (by omega), if_neg (by omega)]
  case h_10 => rfl
  all_goals omega

theorem regAt_reserved {k : Nat} (hk : (2 ≤ k ∧ k < 32) ∨ (160 ≤ k ∧ k < 512)) :
    regAt (8 * k) 8 = some (.reserved k) := by
  have hindex : (8 * (k : Int)).toNat / 8 = k := by omega
  rw [regAt, if_pos (by omega), hindex, regOfIndex_reserved (by omega)]

/-- Settles O13: the window is 4096 bytes from BASE on, and the register reached is the one at the offset. -/
theorem windowAtBase : Obligations.WindowAtBase := by
  refine fun c addr => ⟨?_, fun r hr => ?_⟩
  · rw [regAt_isSome, hostOffset, baseAddr]
    omega
  · obtain ⟨-, -, -, -, -, hoff⟩ := regAt_eq_some hr
    rw [hostOffset] at hoff
    omega

/-- Settles O10: the register at each offset, and what a read of it returns. -/
theorem hostReadReturns : Obligations.HostReadReturns := by
  refine fun s => ⟨readReturns_of_regAt regAt_regOffset_cmd, readReturns_of_regAt regAt_regOffset_status, fun i => ?_,
    fun k hk => readReturns_of_regAt (regAt_reserved hk)⟩
  obtain ⟨hxa, hxb, hxn, hxs, hyf, hyn, hys, hym⟩ := regAt_regOffset_lane i
  exact ⟨readReturns_of_regAt hxa, readReturns_of_regAt hxb, readReturns_of_regAt hxn, readReturns_of_regAt hxs,
    readReturns_of_regAt hyf, readReturns_of_regAt hyn, readReturns_of_regAt hys, readReturns_of_regAt hym⟩

/-- Settles O11: the register at each offset is not CMD, and `writeReg` says what a write of it does. -/
theorem hostWriteEffect : Obligations.HostWriteEffect := by
  refine fun s v => ⟨fun i => ?_, writeLeaves_of_regAt regAt_regOffset_status nofun,
    fun k hk => writeLeaves_of_regAt (regAt_reserved hk) nofun⟩
  obtain ⟨hxa, hxb, hxn, hxs, hyf, hyn, hys, hym⟩ := regAt_regOffset_lane i
  exact ⟨writeLeaves_of_regAt hxa nofun, writeLeaves_of_regAt hxb nofun, writeLeaves_of_regAt hxn nofun,
    writeLeaves_of_regAt hxs nofun, writeLeaves_of_regAt hyf nofun, writeLeaves_of_regAt hyn nofun,
    writeLeaves_of_regAt hys nofun, writeLeaves_of_regAt hym nofun⟩

end Sys2Proof.Machine

/-! PROOF. O12: an event the block answers has a next state, and any other is refused (spec/20_memory.md R67;
60_exceptions.md R444). -/

namespace Sys2Proof.Machine

open Sys2Proof Sys2Proof.Claims

theorem hostWrite_eq_next (r : Reg) (v : Word) (s : State) : ∃ t, hostWrite r v s = .next t := by
  cases r with
  | cmd =>
    obtain ⟨t, ht, -, -⟩ := exists_cmdWriteSettles v s
    exact ⟨t, ht⟩
  | _ => exact ⟨_, rfl⟩

theorem hostEvent_of_answered {ev : HostEvent} (h : ev.answered = true) (rest : List HostEvent) (s : State) :
    ∃ t, hostEvent ev rest s = .next t := by
  cases ev with
  | reset => exact ⟨_, rfl⟩
  | read off size =>
    obtain ⟨r, hr⟩ := Option.isSome_iff_exists.1 h
    exact ⟨deliverRead (readReg s r) (nextAccess rest s), by simp only [hostEvent, hr]⟩
  | write off size v =>
    obtain ⟨r, hr⟩ := Option.isSome_iff_exists.1 h
    simpa only [hostEvent, hr] using hostWrite_eq_next r v (nextAccess rest s)

theorem hostEvent_of_not_answered {ev : HostEvent} (h : ev.answered = false) (rest : List HostEvent) (s : State) :
    ∃ r, hostEvent ev rest s = .refused r := by
  cases ev with
  | reset => cases h
  | read off size | write off size v =>
    have hr : regAt off size = none := by simpa [HostEvent.answered] using h
    exact ⟨.badAccess off size, by simp only [hostEvent, hr]⟩

theorem badAccess_iff {ev : HostEvent} : BadAccess ev ↔ ev.answered = false := by
  cases ev with
  | reset => simp [BadAccess, HostEvent.answered]
  | read off size | write off size v => rw [BadAccess, HostEvent.answered, ← regAt_isSome, Bool.not_eq_true]

/-- Settles O12: a block to which no access comes waits; an event that comes is answered or it is a bad access. -/
theorem onlyBadAccessIsRefused : Obligations.OnlyBadAccessIsRefused := by
  intro s
  cases hq : s.hostQueue with
  | nil => simp [step, hq]
  | cons ev rest =>
    rw [step_of_queue hq]
    cases hev : ev.answered with
    | true =>
      obtain ⟨t, ht⟩ := hostEvent_of_answered hev rest s
      simp [ht, badAccess_iff, hev]
    | false =>
      obtain ⟨r, hr⟩ := hostEvent_of_not_answered hev rest s
      simp [hr, badAccess_iff, hev]

end Sys2Proof.Machine

/-! PROOF. O1, O2, O3, O5: decoding and encoding are inverse to each other (spec/30_encoding.md R90, R93, R101, R106).
Both are the opcode map row by row; that the fields of a word and the word determine each other comes from
`toNat_cmdWord` and `word_eq_fields`. -/

namespace Sys2Proof

open Sys2Proof.Machine Sys2Proof.Claims

/-! ### The word of a command decodes to the command -/

/-- A word made of fields is decoded by its OP and AUX. -/
theorem decodeIn_cmdWord (m : AcosMode) (op : BitVec 8) (p : Prec) (n : LaneCount) (aux : BitVec 8) :
    decodeIn m (cmdWord op p n aux) = decodeOp m op p n aux := by
  simp [decodeIn]

theorem decodePeEval_tableCode {m : AcosMode} {t : TableId} (h : t.present m = true) (p : Prec) (n : LaneCount) :
    decodePeEval m p n (tableCode t) = .ok (.peEval p n t) := by
  simp [decodePeEval, h]

theorem decodeSvResolve_fnCode (p : Prec) (n : LaneCount) (f : FnId) :
    decodeSvResolve p n (fnCode f) = .ok (.svResolve p n f) := by
  simp [decodeSvResolve]

/-- Settles O2: `decodeOp` at a command's opcode is that command's row, and AUX is what the row asks for. -/
theorem decodeOfEncode : Obligations.DecodeOfEncode := by
  intro m i hwf
  cases i with
  | peEval p n t => exact (decodeIn_cmdWord ..).trans (decodePeEval_tableCode hwf p n)
  | svResolve p n f => exact (decodeIn_cmdWord ..).trans (decodeSvResolve_fnCode p n f)
  | _ => exact decodeIn_cmdWord ..

/-! ### A word that decodes is the word of its command -/

/-- A word with a lane count and no reserved bit set is the word of its other fields. -/
theorem cmdWord_fields {v : Word} {n : LaneCount} (hwc : laneOfCode (wcField v) = some n) (hlow : reservedLow v = 0)
    (hhigh : reservedHigh v = 0) : cmdWord (opField v) (precField v) n (auxField v) = v := by
  apply BitVec.eq_of_toNat_eq
  rw [toNat_cmdWord, laneCode_of_laneOfCode hwc, word_eq_fields v, hlow, hhigh]
  simp

theorem encode_of_withoutAux {aux : BitVec 8} {i j : Instr} (h : withoutAux aux i = .ok j) {op : BitVec 8} {p : Prec}
    {n : LaneCount} (hi : encode i = cmdWord op p n 0) : encode j = cmdWord op p n aux := by
  obtain ⟨rfl, rfl⟩ := withoutAux_eq_ok_iff.1 h
  exact hi

theorem encode_of_decodePeEval {m : AcosMode} {p : Prec} {n : LaneCount} {aux : BitVec 8} {i : Instr}
    (h : decodePeEval m p n aux = .ok i) : encode i = cmdWord 0x20 p n aux := by
  unfold decodePeEval at h
  split at h
  · next t ht =>
    split at h <;> cases h
    rw [encode, tableCode_of_tableOfCode ht]
  · cases h

theorem encode_of_decodeSvResolve {p : Prec} {n : LaneCount} {aux : BitVec 8} {i : Instr}
    (h : decodeSvResolve p n aux = .ok i) : encode i = cmdWord 0x30 p n aux := by
  unfold decodeSvResolve at h
  split at h <;> cases h
  next f hf => rw [encode, fnCode_of_fnOfCode hf]

/-- Row by row of the opcode map: the row's opcode is that of its command, and its AUX was checked. -/
theorem encode_of_decodeOp {m : AcosMode} {op : BitVec 8} {p : Prec} {n : LaneCount} {aux : BitVec 8} {i : Instr}
    (h : decodeOp m op p n aux = .ok i) : encode i = cmdWord op p n aux := by
  have hself : op = BitVec.ofNat 8 op.toNat := by simp
  rw [hself]
  unfold decodeOp at h
  split at h
  case h_8 hop => exact hop ▸ encode_of_decodePeEval h
  case h_9 hop => exact hop ▸ encode_of_decodeSvResolve h
  case h_23 => cases h
  all_goals
    next hop => exact hop ▸ encode_of_withoutAux h rfl

theorem encode_of_decodeIn {m : AcosMode} {v : Word} {i : Instr} (h : decodeIn m v = .ok i) : encode i = v := by
  unfold decodeIn at h
  split at h
  · cases h
  · next n hwc =>
    split at h
    · next hreserved =>
      obtain ⟨hlow, hhigh⟩ := hreserved
      exact (encode_of_decodeOp h).trans (cmdWord_fields hwc hlow hhigh)
    · cases h

/-- Settles O3: no field of the word is lost, and `decodeIn_wellFormedIn` says that the command is well-formed. -/
theorem encodeOfDecode : Obligations.EncodeOfDecode :=
  fun _ _ _ h => ⟨encode_of_decodeIn h, decodeIn_wellFormedIn h⟩

/-! ### The fields of a legal word -/

theorem encode_eq_cmdWord (i : Instr) :
    ∃ op aux, encode i = cmdWord op i.prec i.lanes aux ∧ op.toNat = opNumber i := by
  cases i <;> exact ⟨_, _, rfl, rfl⟩

theorem laneCount_eq_two_pow (n : LaneCount) : laneCount n = 2 ^ (laneCode n).toNat := by cases n <;> rfl

theorem toNat_opField (v : Word) : (opField v).toNat = v.toNat % 2 ^ 8 := by
  simp [opField]

theorem precField_eq_b64_iff (v : Word) : precField v = .b64 ↔ v.toNat / 2 ^ 8 % 2 = 1 := by
  rw [precField, BitVec.getLsbD, Nat.testBit_eq_decide_div_mod_eq]
  split <;> simp_all

theorem toNat_wcField (v : Word) : (wcField v).toNat = v.toNat / 2 ^ 9 % 2 ^ 3 := by
  simp [wcField, Nat.shiftRight_eq_div_pow]

/-- Settles O5: the word is the word of the command, whose fields `cmdWord` places. -/
theorem opcodeMap : Obligations.OpcodeMap := by
  intro v i h
  obtain rfl := encode_of_decodeIn h
  obtain ⟨op, aux, hword, hop⟩ := encode_eq_cmdWord i
  rw [← toNat_opField, ← toNat_wcField, ← precField_eq_b64_iff, hword, opField_cmdWord, wcField_cmdWord,
    precField_cmdWord]
  exact ⟨hop, Iff.rfl, laneCount_eq_two_pow i.lanes⟩

/-- Settles O1: each word is run through the decoder. -/
theorem exampleWordsDecode : Obligations.ExampleWordsDecode :=
  ⟨rfl, rfl, rfl, rfl, rfl, rfl, rfl, rfl, rfl⟩

end Sys2Proof

/-! PROOF. O4: a word is illegal exactly when one of the six clauses of spec/30_encoding.md R101 holds. Each of the
decoder's functions fails under the clauses it checks, and under no other. -/

namespace Sys2Proof

open Sys2Proof.Machine Sys2Proof.Claims

/-! ### When a code names nothing -/

theorem laneOfCode_eq_none_iff (wc : BitVec 3) : laneOfCode wc = none ↔ wc.toNat ∈ [5, 6, 7] := by
  revert wc; decide

theorem tableOfCode_eq_none_iff (aux : BitVec 8) : tableOfCode aux = none ↔ aux.toNat ∉ [1, 2, 3, 4, 5, 6, 7] := by
  revert aux; decide

theorem fnOfCode_eq_none_iff (aux : BitVec 8) : fnOfCode aux = none ↔ aux.toNat ∉ listedSelectors := by
  revert aux; decide

theorem tableCode_eq_four_iff (t : TableId) : (tableCode t).toNat = 4 ↔ t = .acos := by cases t <;> decide

theorem present_eq_false_iff (m : AcosMode) (t : TableId) : t.present m = false ↔ t = .acos ∧ m = .identity := by
  cases t <;> cases m <;> decide

/-! ### The clauses of R101, by the function that checks them -/

@[simp] theorem isOk_ok (i : Instr) : (.ok i : Except Illegal Instr).isOk = true := rfl

@[simp] theorem isOk_error (e : Illegal) : (.error e : Except Illegal Instr).isOk = false := rfl

theorem illegal_iff_isOk (v : Word) : illegal v = true ↔ (decode v).isOk = false := by
  unfold illegal
  split <;> simp_all

/-- Clause 4. -/
theorem withoutAux_isOk_eq_false_iff (aux : BitVec 8) (i : Instr) :
    (withoutAux aux i).isOk = false ↔ aux.toNat ≠ 0 := by
  have haux : aux = 0 ↔ aux.toNat = 0 := BitVec.toNat_inj.symm
  unfold withoutAux
  split <;> simp_all

/-- Clause 5: AUX names no table, or the one table that ACOS_MODE can leave out. -/
theorem decodePeEval_isOk_eq_false_iff (m : AcosMode) (p : Prec) (n : LaneCount) (aux : BitVec 8) :
    (decodePeEval m p n aux).isOk = false ↔
      aux.toNat ∉ [1, 2, 3, 4, 5, 6, 7] ∨ (aux.toNat = 4 ∧ m = .identity) := by
  rw [← tableOfCode_eq_none_iff, decodePeEval]
  cases ht : tableOfCode aux with
  | none => simp
  | some t =>
    rw [← tableCode_of_tableOfCode ht, tableCode_eq_four_iff, ← present_eq_false_iff]
    cases hpresent : t.present m <;> simp [hpresent]

/-- Clause 6. -/
theorem decodeSvResolve_isOk_eq_false_iff (p : Prec) (n : LaneCount) (aux : BitVec 8) :
    (decodeSvResolve p n aux).isOk = false ↔ aux.toNat ∉ listedSelectors := by
  rw [← fnOfCode_eq_none_iff, decodeSvResolve]
  cases fnOfCode aux <;> simp

/-- Clauses 1, 4, 5 and 6 of R101, those on OP and AUX. -/
def OpAuxIllegal (m : AcosMode) (op aux : Nat) : Prop :=
  op ∉ listedOpcodes ∨ (op ≠ 0x20 ∧ op ≠ 0x30 ∧ aux ≠ 0) ∨
    (op = 0x20 ∧ (aux ∉ [1, 2, 3, 4, 5, 6, 7] ∨ (aux = 4 ∧ m = .identity))) ∨
    (op = 0x30 ∧ aux ∉ listedSelectors)

/-- A listed opcode other than PE.EVAL's and SV.RESOLVE's takes no AUX. -/
theorem opAuxIllegal_iff_of_listed {m : AcosMode} {op aux : Nat} (hop : op ∈ listedOpcodes) (hpe : op ≠ 0x20)
    (hsv : op ≠ 0x30) : OpAuxIllegal m op aux ↔ aux ≠ 0 := by
  simp [OpAuxIllegal, hop, hpe, hsv]

/-- Row by row of the opcode map: each row fails under the clause of its opcode. -/
theorem decodeOp_isOk_eq_false_iff (m : AcosMode) (op : BitVec 8) (p : Prec) (n : LaneCount) (aux : BitVec 8) :
    (decodeOp m op p n aux).isOk = false ↔ OpAuxIllegal m op.toNat aux.toNat := by
  unfold decodeOp
  split
  case h_8 hop =>
    rw [decodePeEval_isOk_eq_false_iff, hop]
    simp [OpAuxIllegal, listedOpcodes]
  case h_9 hop =>
    rw [decodeSvResolve_isOk_eq_false_iff, hop]
    simp [OpAuxIllegal, listedOpcodes]
  case h_23 =>
    have hunlisted : op.toNat ∉ listedOpcodes := by simp_all [listedOpcodes]
    simp [OpAuxIllegal, hunlisted]
  all_goals
    next hop =>
    rw [withoutAux_isOk_eq_false_iff, hop]
    exact (opAuxIllegal_iff_of_listed (by decide) (by decide) (by decide)).symm

/-- All six clauses: clause 2 is on WC, clause 3 on the reserved bits. -/
theorem illegal_iff_fields (v : Word) :
    illegal v = true ↔ (wcField v).toNat ∈ [5, 6, 7] ∨ (reservedLow v ≠ 0 ∨ reservedHigh v ≠ 0) ∨
      OpAuxIllegal Config.acosMode (opField v).toNat (auxField v).toNat := by
  rw [illegal_iff_isOk, ← laneOfCode_eq_none_iff, decode, decodeIn]
  cases laneOfCode (wcField v) with
  | none => simp
  | some n =>
    dsimp only
    split
    · next hreserved => simp [hreserved, decodeOp_isOk_eq_false_iff]
    · next hreserved => exact iff_of_true rfl (.inr (.inl (not_and_or.1 hreserved)))

/-! ### The clauses on the bits of the word -/

theorem toNat_auxField (v : Word) : (auxField v).toNat = v.toNat / 2 ^ 16 % 2 ^ 8 := by
  simp [auxField, Nat.shiftRight_eq_div_pow]

theorem reservedLow_eq_zero_iff (v : Word) : reservedLow v = 0 ↔ v.toNat / 2 ^ 12 % 2 ^ 4 = 0 := by
  simp [reservedLow, ← BitVec.toNat_inj, Nat.shiftRight_eq_div_pow]

theorem reservedHigh_eq_zero_iff (v : Word) : reservedHigh v = 0 ↔ v.toNat / 2 ^ 24 = 0 := by
  have hlt := v.isLt
  rw [reservedHigh, ← BitVec.toNat_inj, BitVec.extractLsb'_toNat, Nat.shiftRight_eq_div_pow,
    Nat.mod_eq_of_lt (by omega)]
  rfl

/-! ### The precision bit -/

/-- A field that does not hold bit 8 does not see it flipped. -/
theorem extractLsb'_xor_precBit {v : Word} {start len : Nat} (h : (0x100 : Word).extractLsb' start len = 0) :
    (v ^^^ 0x100).extractLsb' start len = v.extractLsb' start len := by
  rw [BitVec.extractLsb'_xor, h]
  exact BitVec.xor_zero

/-- Flipping P changes no other field, and no clause speaks of P. -/
theorem illegal_xor_precBit (v : Word) : illegal (v ^^^ 0x100) = illegal v := by
  have hop : opField (v ^^^ 0x100) = opField v := extractLsb'_xor_precBit (by decide)
  have hwc : wcField (v ^^^ 0x100) = wcField v := extractLsb'_xor_precBit (by decide)
  have hlow : reservedLow (v ^^^ 0x100) = reservedLow v := extractLsb'_xor_precBit (by decide)
  have haux : auxField (v ^^^ 0x100) = auxField v := extractLsb'_xor_precBit (by decide)
  have hhigh : reservedHigh (v ^^^ 0x100) = reservedHigh v := extractLsb'_xor_precBit (by decide)
  rw [Bool.eq_iff_iff, illegal_iff_fields, illegal_iff_fields, hop, hwc, hlow, haux, hhigh]

/-- Settles O4: the clauses on the word's fields, read off its bits; the all-zero word breaks clause 1. -/
theorem illegalSixClauses : Obligations.IllegalSixClauses := by
  refine ⟨fun v => ?_, illegal_xor_precBit, rfl⟩
  rw [illegal_iff_fields, Ne, Ne, reservedLow_eq_zero_iff, reservedHigh_eq_zero_iff, toNat_wcField, toNat_opField,
    toNat_auxField, OpAuxIllegal]
  exact (or_congr_right or_left_comm).trans or_left_comm

end Sys2Proof

/-! PROOF. O7: an illegal CMD write latches CMD and STATUS.ILL and does nothing else (spec/30_encoding.md R102). -/

namespace Sys2Proof.Machine

open Sys2Proof Sys2Proof.Claims

theorem decode_error_of_illegal {v : Word} (h : illegal v = true) : ∃ e, decode v = .error e := by
  cases hv : decode v with
  | ok i => exact absurd (illegal_of_decode_ok hv) (by simp [h])
  | error e => exact ⟨e, rfl⟩

/-- Settles O7: the step is the CMD write, and the CMD write of an illegal word only latches. -/
theorem illegalWordWritesNoOutput : Obligations.IllegalWordWritesNoOutput := by
  intro s v h rest hq
  obtain ⟨e, he⟩ := decode_error_of_illegal h
  calc step s
      = commandWrite v (nextAccess rest s) := step_of_cmdWrite hq
    _ = .next (latchCommand v true (nextAccess rest s)) := commandWrite_of_decode_error he _

end Sys2Proof.Machine

/-! PROOF. O22, O23, O24: FD.DECOMP reads the fields of a pattern and FD.COMPOSE packs them
(spec/40_float_decomposer.md R131, R133, R134), so the second undoes the first (R139). -/

namespace Sys2Proof.Machine

open Sys2Proof Sys2Proof.Claims

/-- A pattern's field fits a lane. -/
theorem toNat_ofNat_field {k m : ℕ} (hk : k < 2 ^ m) (hm : m ≤ 64) : (BitVec.ofNat 64 k).toNat = k := by
  rw [BitVec.toNat_ofNat, Nat.mod_eq_of_lt (hk.trans_le (Nat.pow_le_pow_right (by decide) hm))]

theorem expBits_le_64 (P : Prec) : P.expBits ≤ 64 := by cases P <;> decide

theorem fracBits_le_64 (P : Prec) : P.fracBits ≤ 64 := by cases P <;> decide

/-- FD.COMPOSE packs the numbers in its lanes; `pack` cuts each to its field. -/
theorem laneFdCompose_eq_pack (P : Prec) (l : LaneIn) :
    laneFdCompose P l = .float (pack P l.s l.n.toNat l.a.toNat) := by
  simp only [laneFdCompose, pack, BitVec.ofNat_toNat]

/-- Settles O24: the three fields fit their lanes, and a pattern is the pack of its fields. -/
theorem decomposeComposeRoundTrip : Obligations.DecomposeComposeRoundTrip := by
  refine fun P n m l => ⟨_, gives_laneOf _ l, fun b => givesFloat_iff.2 ?_⟩
  have hE := toNat_ofNat_field (expf_lt (opP P l.a)) (expBits_le_64 P)
  have hF := toNat_ofNat_field (frac_lt (opP P l.a)) (fracBits_le_64 P)
  simp only [laneOf, laneFdDecomp, laneFdCompose_eq_pack, hE, hF, pack_fields]

/-- The exponent field of the operand in a lane, by the number in the lane. -/
theorem expf_opP (P : Prec) (v : Word) : expf (opP P v) = v.toNat / 2 ^ P.fracBits % 2 ^ P.expBits := by
  have hsplit : 1 + P.expBits + P.fracBits = P.fracBits + (P.expBits + 1) := by omega
  rw [expf_eq_div_mod, opP, BitVec.toNat_setWidth, hsplit, pow_add, Nat.mod_mul_right_div_self]
  exact Nat.mod_mod_of_dvd _ (pow_dvd_pow 2 (by omega))

theorem frac_opP (P : Prec) (v : Word) : frac (opP P v) = v.toNat % 2 ^ P.fracBits := by
  rw [frac_eq_mod, opP, BitVec.toNat_setWidth]
  exact Nat.mod_mod_of_dvd _ (pow_dvd_pow 2 (by omega))

theorem sgn_opP (P : Prec) (v : Word) : sgn (opP P v) = v.getLsbD (P.expBits + P.fracBits) := by
  rw [sgn, opP, BitVec.getLsbD_setWidth, decide_eq_true (by omega), Bool.true_and]

theorem laneFdDecomp_eq (P : Prec) (l : LaneIn) : laneFdDecomp P l =
    { ys := l.a.getLsbD (P.expBits + P.fracBits), yn := BitVec.ofNat 64 (l.a.toNat / 2 ^ P.fracBits % 2 ^ P.expBits),
      ym := BitVec.ofNat 64 (l.a.toNat % 2 ^ P.fracBits) } := by
  simp only [laneFdDecomp, sgn_opP, expf_opP, frac_opP]

/-- Settles O22: the fields of the operand, by the number in the lane. -/
theorem fdDecompFields : Obligations.FdDecompFields :=
  fun _ l => ⟨gives_iff.2 (laneFdDecomp_eq .b32 l), gives_iff.2 (laneFdDecomp_eq .b64 l)⟩

/-- The slot of a packed pattern, as a number. -/
theorem zext64_pack (P : Prec) (s : Bool) (E F : ℕ) : zext64 (pack P s E F) = BitVec.ofNat 64
    ((if s then 2 ^ (P.expBits + P.fracBits) else 0) + E % 2 ^ P.expBits * 2 ^ P.fracBits + F % 2 ^ P.fracBits) := by
  apply BitVec.eq_of_toNat_eq
  rw [zext64, BitVec.toNat_setWidth, BitVec.toNat_ofNat, toNat_pack]
  cases s <;> simp

theorem laneFdCompose_eq (P : Prec) (l : LaneIn) : laneFdCompose P l =
    { yf := BitVec.ofNat 64 ((if l.s then 2 ^ (P.expBits + P.fracBits) else 0) +
        l.n.toNat % 2 ^ P.expBits * 2 ^ P.fracBits + l.a.toNat % 2 ^ P.fracBits) } := by
  rw [laneFdCompose_eq_pack, LaneOut.float, zext64_pack]

/-- Settles O23: the pack of the low bits, as a number. -/
theorem fdComposeFields : Obligations.FdComposeFields :=
  fun _ l => ⟨gives_iff.2 (laneFdCompose_eq .b32 l), gives_iff.2 (laneFdCompose_eq .b64 l)⟩

end Sys2Proof.Machine

/-! PROOF. O27, O28, O29, O30: FD.SCALE (spec/40_float_decomposer.md R137, R138, R141, R142). A finite pattern is an
integer significand at an exponent. Past a shift of 4096 the scaled value is beyond the overflow bound or below half the
least quantum, so the clamp of the shift changes no result. RoundRNE is `assemble` of the rounded quotient also from
the overflow bound on, which is how the integer algorithm reads it. -/

namespace Sys2Proof.Machine

open Sys2Proof Sys2Proof.Claims

variable {P : Prec}

/-! ### The significand and its exponent (R15) -/

/-- The integer significand M of a finite pattern: val(x) = ±M·2^q (R138). -/
def significand (x : Pat P) : ℕ := if isNorm x then 2 ^ P.fracBits + frac x else frac x

/-- The exponent q of the integer significand (R138). -/
def significandExp (x : Pat P) : ℤ :=
  if isNorm x then (expf x : ℤ) - P.bias - P.fracBits else P.emin - P.fracBits

theorem significand_of_isNorm {x : Pat P} (h : isNorm x = true) : significand x = 2 ^ P.fracBits + frac x := if_pos h

theorem significandExp_of_isNorm {x : Pat P} (h : isNorm x = true) :
    significandExp x = (expf x : ℤ) - P.bias - P.fracBits := if_pos h

theorem significand_of_not_isNorm {x : Pat P} (h : isNorm x = false) : significand x = frac x := by
  simp [significand, h]

theorem significandExp_of_not_isNorm {x : Pat P} (h : isNorm x = false) : significandExp x = P.emin - P.fracBits := by
  simp [significandExp, h]

theorem expf_eq_zero_of_finite {x : Pat P} (hx : isFinite x = true) (h : isNorm x = false) : expf x = 0 := by
  rw [isFinite_iff] at hx
  rw [← Bool.not_eq_true, isNorm_iff] at h
  omega

theorem magnitude_eq_significand_mul {x : Pat P} (hx : isFinite x = true) :
    magnitude x = significand x * pow2 (significandExp x) := by
  cases hn : isNorm x with
  | true =>
    rw [significand_of_isNorm hn, significandExp_of_isNorm hn, magnitude, if_neg ((isNorm_iff x).1 hn).1.ne']
  | false =>
    rw [significand_of_not_isNorm hn, significandExp_of_not_isNorm hn, magnitude,
      if_pos (expf_eq_zero_of_finite hx hn)]

theorem significand_lt (x : Pat P) : significand x < 2 ^ (P.fracBits + 1) := by
  have hf := frac_lt x
  rw [significand, pow_succ]
  split <;> omega

theorem magnitude_pos_of_finiteNonzero {x : Pat P} (hx : FiniteNonzero x) : 0 < magnitude x := by
  refine (magnitude_nonneg x).lt_of_ne' fun h => ?_
  have hz := magnitude_eq_zero_iff.1 h
  rw [hx.2] at hz
  cases hz

theorem significand_ne_zero {x : Pat P} (hx : FiniteNonzero x) : significand x ≠ 0 := fun h => by
  have hpos := magnitude_pos_of_finiteNonzero hx
  rw [magnitude_eq_significand_mul hx.1, h, Nat.cast_zero, zero_mul] at hpos
  exact hpos.false

/-- The significand of a normal pattern has its leading bit, and the exponent of any other is the least. -/
theorem le_significand_or_exp_eq (x : Pat P) :
    2 ^ P.fracBits ≤ significand x ∨ significandExp x = P.emin - P.fracBits := by
  cases hn : isNorm x with
  | true => exact .inl (significand_of_isNorm hn ▸ Nat.le_add_right _ _)
  | false => exact .inr (significandExp_of_not_isNorm hn)

theorem le_significandExp (x : Pat P) : P.emin - P.fracBits ≤ significandExp x := by
  have hb := emin_bias P
  cases hn : isNorm x with
  | true =>
    have hpos := ((isNorm_iff x).1 hn).1
    rw [significandExp_of_isNorm hn]
    omega
  | false => exact (significandExp_of_not_isNorm hn).ge

theorem significandExp_lt {x : Pat P} (hx : isFinite x = true) : significandExp x + P.fracBits ≤ P.emax := by
  have hlt := (isFinite_iff x).1 hx
  have hb := emin_bias P
  have hm := emax_bias P
  have hp := expMax_pos P
  cases hn : isNorm x with
  | true => rw [significandExp_of_isNorm hn]; omega
  | false => rw [significandExp_of_not_isNorm hn]; omega

/-! ### Powers of 2 and the quantum of M·2^q -/

theorem pow2_add (a b : ℤ) : pow2 (a + b) = pow2 a * pow2 b := by
  simp only [pow2_eq_zpow]
  exact zpow_add₀ two_ne_zero a b

theorem pow2_natCast (k : ℕ) : pow2 (k : ℤ) = ((2 ^ k : ℕ) : ℚ) := rfl

theorem pow2_le_pow2 {a b : ℤ} (h : a ≤ b) : pow2 a ≤ pow2 b := by
  simp only [pow2_eq_zpow]
  exact zpow_le_zpow_right₀ one_le_two h

theorem div_pow2 (v : ℚ) (q qt : ℤ) : v * pow2 q / pow2 qt = v * pow2 (q - qt) := by
  rw [div_eq_iff (pow2_pos qt).ne', mul_assoc, ← pow2_add, sub_add_cancel]

theorem floorLog2_mul_pow2 {M : ℕ} (hM : M ≠ 0) (q : ℤ) : floorLog2 (M * pow2 q) = M.log2 + q := by
  have hq := pow2_pos q
  have hlo : ((2 ^ M.log2 : ℕ) : ℚ) ≤ M := by exact_mod_cast Nat.log2_self_le hM
  have hhi : (M : ℚ) < ((2 ^ (M.log2 + 1) : ℕ) : ℚ) := by exact_mod_cast Nat.lt_log2_self
  have hsucc : (M.log2 : ℤ) + q + 1 = ((M.log2 + 1 : ℕ) : ℤ) + q := by push_cast; ring
  apply floorLog2_unique (by positivity)
  · rw [pow2_add, pow2_natCast]
    exact mul_le_mul_of_nonneg_right hlo hq.le
  · rw [hsucc, pow2_add, pow2_natCast]
    exact mul_lt_mul_of_pos_right hhi hq

theorem quantumExp_mul_pow2 {M : ℕ} (hM : M ≠ 0) (q : ℤ) :
    quantumExp P (M * pow2 q) = max ((M.log2 : ℤ) + q) P.emin - P.fracBits := by
  rw [quantumExp, floorLog2_mul_pow2 hM]

/-- The quantum of a finite nonzero pattern is the exponent of its significand. -/
theorem quantumExp_magnitude {x : Pat P} (hx : FiniteNonzero x) : quantumExp P (magnitude x) = significandExp x := by
  have hM := significand_ne_zero hx
  have hlt : (significand x).log2 < P.fracBits + 1 := (Nat.log2_lt hM).2 (significand_lt x)
  have hle := le_significandExp x
  rw [magnitude_eq_significand_mul hx.1, quantumExp_mul_pow2 hM]
  rcases le_significand_or_exp_eq x with h | h
  · have hge : P.fracBits ≤ (significand x).log2 := (Nat.le_log2 hM).2 h
    omega
  · omega

/-! ### RoundRNE is `assemble` of the rounded quotient -/

/-- A number from half below an even integer on rounds to that integer or above. -/
theorem le_roundTiesEven_of_even {k : ℕ} (hk : k % 2 = 0) {m : ℚ} (hm : 0 ≤ m) (h : (k : ℚ) - 1 / 2 ≤ m) :
    k ≤ roundTiesEven m := by
  by_contra hlt
  have hnear := abs_le.1 (abs_roundTiesEven_sub_le hm)
  have hupper : (roundTiesEven m : ℚ) + 1 ≤ k := by exact_mod_cast not_le.1 hlt
  have htie : |(roundTiesEven m : ℚ) - m| = 1 / 2 := by
    rw [abs_of_nonpos (by linarith)]
    linarith [hnear.1]
  have hpred : roundTiesEven m + 1 = k := by
    have : (roundTiesEven m : ℚ) + 1 = k := by linarith [hnear.1]
    exact_mod_cast this
  have heven := roundTiesEven_even_of_tie hm htie
  omega

/-- The quotient of a number by its quantum is below two binades, and so rounds to at most their end. -/
theorem roundTiesEven_quotient_le {v : ℚ} (hv : 0 < v) :
    roundTiesEven (v / pow2 (quantumExp P v)) ≤ 2 ^ (P.fracBits + 1) := by
  have hq := pow2_pos (quantumExp P v)
  have hexp : floorLog2 v + 1 ≤ (P.fracBits + 1 : ℕ) + quantumExp P v := by unfold quantumExp; push_cast; omega
  have hm : v / pow2 (quantumExp P v) ≤ ((2 ^ (P.fracBits + 1) : ℕ) : ℚ) := by
    rw [div_le_iff₀ hq, ← pow2_natCast, ← pow2_add]
    exact (floorLog2_spec hv).2.le.trans (pow2_le_pow2 hexp)
  simpa only [roundTiesEven_natCast] using roundTiesEven_mono (div_pos hv hq).le hm

/-- `assemble` overflows past the top exponent, and on a carry at the top exponent. -/
theorem assemble_eq_infPat (s : Bool) {S : ℕ} {qt : ℤ} (hS : 2 ^ P.fracBits ≤ S) (hqt : P.emax ≤ qt + P.fracBits)
    (htop : qt + P.fracBits = P.emax → S = 2 ^ (P.fracBits + 1)) : assemble P s S qt = infPat P s := by
  have hm := emax_bias P
  unfold assemble
  by_cases hc : S = 2 ^ (P.fracBits + 1)
  · simp only [if_pos hc, le_refl, if_true]
    exact if_pos (by omega)
  · have hgt : qt + P.fracBits ≠ P.emax := fun h => hc (htop h)
    simp only [if_neg hc, if_pos hS]
    exact if_pos (by omega)

theorem pow2_emax_le_overflowBound (P : Prec) : pow2 P.emax ≤ overflowBound P := by
  have h1 : pow2 (-(P.fracBits + 1 : ℤ)) ≤ pow2 0 := pow2_le_pow2 (by omega)
  have h0 : pow2 0 = 1 := rfl
  rw [overflowBound_eq]
  exact le_mul_of_one_le_left (pow2_pos _).le (by linarith)

/-- In the top binade the overflow bound is half a quantum below the binade's end. -/
theorem overflowBound_eq_mul_pow2 {qt : ℤ} (h : qt + P.fracBits = P.emax) :
    overflowBound P = (((2 ^ (P.fracBits + 1) : ℕ) : ℚ) - 1 / 2) * pow2 qt := by
  have hhalf : pow2 (-(P.fracBits + 1 : ℤ)) * pow2 P.fracBits = 1 / 2 := by
    rw [← pow2_add, neg_add_rev, neg_add_cancel_right]
    norm_num [pow2_eq_zpow]
  rw [overflowBound_eq, ← h, add_comm qt, pow2_add, ← mul_assoc, sub_mul, hhalf, pow2_natCast, pow_succ]
  push_cast
  ring

/-- From the overflow bound on `assemble` gives the infinity too: the rounded quotient of the top binade carries. -/
theorem assemble_of_overflow (s : Bool) {v : ℚ} (h : overflowBound P ≤ v) :
    assemble P s (roundTiesEven (v / pow2 (quantumExp P v))) (quantumExp P v) = infPat P s := by
  have hv := (overflowBound_pos P).trans_le h
  have hq := pow2_pos (quantumExp P v)
  have hm := (div_pos hv hq).le
  have hem : P.emin < P.emax := by cases P <;> decide
  have hemax : P.emax ≤ floorLog2 v := by
    by_contra hlt
    have hle : v < pow2 P.emax := (floorLog2_spec hv).2.trans_le (pow2_le_pow2 (by omega))
    exact hle.not_ge ((pow2_emax_le_overflowBound P).trans h)
  have hexp : quantumExp P v + P.fracBits = floorLog2 v := by unfold quantumExp; omega
  refine assemble_eq_infPat s ?_ (hexp ▸ hemax) fun htop => (roundTiesEven_quotient_le hv).antisymm ?_
  · have hge : ((2 ^ P.fracBits : ℕ) : ℚ) ≤ v / pow2 (quantumExp P v) := by
      rw [le_div_iff₀ hq, ← pow2_add_fracBits, hexp]
      exact (floorLog2_spec hv).1
    simpa only [roundTiesEven_natCast] using roundTiesEven_mono (by positivity) hge
  · refine le_roundTiesEven_of_even (by rw [pow_succ, Nat.mul_mod_left]) hm ?_
    rw [le_div_iff₀ hq, ← overflowBound_eq_mul_pow2 htop]
    exact h

/-- RoundRNE of a positive number is `assemble` of its quotient by the quantum, rounded to an integer (R19). -/
theorem roundRNE_eq_assemble (s : Bool) {v : ℚ} (hv : 0 < v) :
    roundRNE P s v = assemble P s (roundTiesEven (v / pow2 (quantumExp P v))) (quantumExp P v) := by
  rcases lt_or_ge v (overflowBound P) with hov | hov
  · rw [overflowBound_eq] at hov
    rw [roundRNE, if_neg hv.ne', if_neg hov.not_ge]
  · rw [roundRNE_of_overflow s hov, assemble_of_overflow s hov]

/-- `assemble` puts a finite pattern together from its significand. -/
theorem assemble_significand {x : Pat P} (hx : isFinite x = true) :
    assemble P (sgn x) (significand x) (significandExp x) = x := by
  have hf := frac_lt x
  have hlt := (isFinite_iff x).1 hx
  simp only [assemble, if_neg (significand_lt x).ne]
  cases hn : isNorm x with
  | true =>
    have hE : (expf x : ℤ) - P.bias - P.fracBits + P.fracBits + P.bias = expf x := by ring
    rw [significand_of_isNorm hn, significandExp_of_isNorm hn, if_pos (Nat.le_add_right _ _), hE,
      if_neg (by omega), Int.toNat_natCast, Nat.add_sub_cancel_left, pack_fields]
  | false =>
    rw [significand_of_not_isNorm hn, if_neg hf.not_ge, ← expf_eq_zero_of_finite hx hn, pack_fields]

/-- RoundRNE gives back a finite nonzero pattern from its own magnitude. -/
theorem roundRNE_magnitude {x : Pat P} (hx : FiniteNonzero x) : roundRNE P (sgn x) (magnitude x) = x := by
  have hq : magnitude x / pow2 (significandExp x) = significand x := by
    rw [magnitude_eq_significand_mul hx.1, mul_div_cancel_right₀ _ (pow2_pos _).ne']
  rw [roundRNE_eq_assemble _ (magnitude_pos_of_finiteNonzero hx), quantumExp_magnitude hx, hq, roundTiesEven_natCast,
    assemble_significand hx.1]

/-! ### The clamp of the shift changes no result -/

theorem roundTiesEven_of_lt_half {m : ℚ} (hm : 0 ≤ m) (h : m < 1 / 2) : roundTiesEven m = 0 := by
  by_contra hne
  have hge := half_le_abs_sub_of_ne hm (k := 0) (Ne.symm hne)
  rw [Nat.cast_zero, zero_sub, abs_neg, abs_of_nonneg hm] at hge
  exact hge.not_gt h

theorem assemble_zero (s : Bool) (qt : ℤ) : assemble P s 0 qt = zeroPat P s := by
  simp [assemble, zeroPat, (Nat.two_pow_pos (P.fracBits + 1)).ne]

/-- A positive number below half the least quantum rounds to zero. -/
theorem roundRNE_of_underflow (s : Bool) {v : ℚ} (hv : 0 < v) (h : v < pow2 (P.emin - P.fracBits - 1)) :
    roundRNE P s v = zeroPat P s := by
  have hq := pow2_pos (quantumExp P v)
  have hexp : P.emin - P.fracBits - 1 ≤ -1 + quantumExp P v := by unfold quantumExp; omega
  have hm : v / pow2 (quantumExp P v) < 1 / 2 := by
    rw [div_lt_iff₀ hq]
    calc v < pow2 (P.emin - P.fracBits - 1) := h
      _ ≤ pow2 (-1 + quantumExp P v) := pow2_le_pow2 hexp
      _ = 1 / 2 * pow2 (quantumExp P v) := by rw [pow2_add]; norm_num [pow2_eq_zpow]
  rw [roundRNE_eq_assemble s hv, roundTiesEven_of_lt_half (div_pos hv hq).le hm, assemble_zero]

theorem overflowBound_le (P : Prec) : overflowBound P ≤ pow2 (P.emax + 1) := by
  have hp := pow2_pos (-(P.fracBits + 1 : ℤ))
  have h1 : pow2 (P.emax + 1) = 2 * pow2 P.emax := by rw [add_comm, pow2_add]; rfl
  rw [overflowBound_eq, h1]
  exact mul_le_mul_of_nonneg_right (by linarith) (pow2_pos _).le

/-- The magnitudes of finite nonzero patterns lie from the least quantum up to the end of the top binade. -/
theorem magnitude_bounds {x : Pat P} (hx : FiniteNonzero x) :
    pow2 (P.emin - P.fracBits) ≤ magnitude x ∧ magnitude x < pow2 (P.emax + 1) := by
  have hq := pow2_pos (significandExp x)
  rw [magnitude_eq_significand_mul hx.1]
  constructor
  · have h1 : (1 : ℚ) ≤ significand x := by exact_mod_cast Nat.one_le_iff_ne_zero.2 (significand_ne_zero hx)
    exact (pow2_le_pow2 (le_significandExp x)).trans (le_mul_of_one_le_left hq.le h1)
  · have h2 : (significand x : ℚ) < ((2 ^ (P.fracBits + 1) : ℕ) : ℚ) := by exact_mod_cast significand_lt x
    have hle := significandExp_lt hx.1
    calc (significand x : ℚ) * pow2 (significandExp x)
        < ((2 ^ (P.fracBits + 1) : ℕ) : ℚ) * pow2 (significandExp x) := mul_lt_mul_of_pos_right h2 hq
      _ = pow2 ((P.fracBits + 1 : ℕ) + significandExp x) := by rw [pow2_add, pow2_natCast]
      _ ≤ pow2 (P.emax + 1) := pow2_le_pow2 (by push_cast; omega)

/-- The exponent range of a precision is narrower than half the clamp. -/
theorem exponent_range_le (P : Prec) : P.emax - P.emin + P.fracBits + 2 ≤ 4096 := by cases P <;> decide

theorem overflowBound_le_scaled {x : Pat P} (hx : FiniteNonzero x) {n : ℤ} (hn : 4096 ≤ n) :
    overflowBound P ≤ magnitude x * pow2 n := by
  have hr := exponent_range_le P
  calc overflowBound P ≤ pow2 (P.emax + 1) := overflowBound_le P
    _ ≤ pow2 (P.emin - P.fracBits + n) := pow2_le_pow2 (by omega)
    _ = pow2 (P.emin - P.fracBits) * pow2 n := pow2_add _ _
    _ ≤ magnitude x * pow2 n := mul_le_mul_of_nonneg_right (magnitude_bounds hx).1 (pow2_pos n).le

theorem scaled_lt_half_quantum {x : Pat P} (hx : FiniteNonzero x) {n : ℤ} (hn : n ≤ -4096) :
    magnitude x * pow2 n < pow2 (P.emin - P.fracBits - 1) := by
  have hr := exponent_range_le P
  calc magnitude x * pow2 n < pow2 (P.emax + 1) * pow2 n :=
        mul_lt_mul_of_pos_right (magnitude_bounds hx).2 (pow2_pos n)
    _ = pow2 (P.emax + 1 + n) := (pow2_add _ _).symm
    _ ≤ pow2 (P.emin - P.fracBits - 1) := pow2_le_pow2 (by omega)

/-- A shift and its clamp give one result (R137): inside the clamp they are equal, and outside it both scaled values
overflow, or both round to zero. -/
theorem roundRNE_clampShift {x : Pat P} (hx : FiniteNonzero x) (s : Bool) (n : ℤ) :
    roundRNE P s (magnitude x * pow2 (clampShift n)) = roundRNE P s (magnitude x * pow2 n) := by
  have hpos (k : ℤ) : 0 < magnitude x * pow2 k := mul_pos (magnitude_pos_of_finiteNonzero hx) (pow2_pos k)
  have hzero {k : ℤ} (hk : k ≤ -4096) : roundRNE P s (magnitude x * pow2 k) = zeroPat P s :=
    roundRNE_of_underflow s (hpos k) (scaled_lt_half_quantum hx hk)
  have hinf {k : ℤ} (hk : 4096 ≤ k) : roundRNE P s (magnitude x * pow2 k) = infPat P s :=
    roundRNE_of_overflow s (overflowBound_le_scaled hx hk)
  rcases lt_or_ge n (-4096) with hlow | hlow
  · rw [hzero (by unfold clampShift; omega), hzero hlow.le]
  rcases lt_or_ge 4096 n with hhigh | hhigh
  · rw [hinf (by unfold clampShift; omega), hinf hhigh.le]
  · rw [clampShift, min_eq_right hhigh, max_eq_right hlow]

/-! ### FD.SCALE of a pattern (R137) -/

theorem scalePat_of_isNaN {x : Pat P} (h : isNaN x = true) (n : ℤ) : scalePat x n = quiet x := if_pos h

theorem scalePat_of_isInf_or_isZero {x : Pat P} (h : isInf x = true ∨ isZero x = true) (n : ℤ) : scalePat x n = x := by
  have hfrac : frac x = 0 := h.elim (fun h => ((isInf_iff x).1 h).2) fun h => ((isZero_iff x).1 h).2
  have hnan : isNaN x = false := by simp [isNaN, hfrac]
  rw [scalePat, hnan, if_neg Bool.false_ne_true, if_pos (by simpa using h)]

theorem isNaN_isInf_of_isFinite {x : Pat P} (h : isFinite x = true) : isNaN x = false ∧ isInf x = false := by
  have hne := ((isFinite_iff x).1 h).ne
  simp [isNaN, isInf, hne]

theorem scalePat_of_finiteNonzero {x : Pat P} (hx : FiniteNonzero x) (n : ℤ) :
    scalePat x n = roundRNE P (sgn x) (magnitude x * pow2 n) := by
  obtain ⟨hnan, hinf⟩ := isNaN_isInf_of_isFinite hx.1
  simp only [scalePat, hnan, hinf, hx.2, Bool.or_self, Bool.false_eq_true, if_false, abs_val, roundRNE_clampShift hx]

theorem givesFloat_fdScale_iff {n : LaneCount} {l : LaneIn} {r : Pat P} :
    GivesFloat (.fdScale P n) l r ↔ scalePat (opP P l.a) (sint64 l.n) = r :=
  givesFloat_iff.trans ⟨fun h => zext64_inj.1 (congrArg LaneOut.yf h), fun h => congrArg LaneOut.float h⟩

/-- Settles O27: by class, with the clamp of the shift removed. -/
theorem fdScaleRounds : Obligations.FdScaleRounds := by
  rintro P n l x rfl
  refine ⟨fun h => givesFloat_fdScale_iff.2 (scalePat_of_isNaN h _),
    fun h => givesFloat_fdScale_iff.2 (scalePat_of_isInf_or_isZero h _), fun h => givesFloat_fdScale_iff.2 ?_⟩
  rw [scalePat_of_finiteNonzero h, abs_val, pow2_eq_zpow]

/-! ### The integer algorithm (R138) -/

/-- The significand S of R138: M·2^(q - qt), shifted right with ties to even where q is below qt. -/
def shiftRound (M : ℕ) (q qt : ℤ) : ℕ :=
  let sh := (qt - q).toNat
  let S0 := M / 2 ^ sh
  let rem := M % 2 ^ sh
  if qt ≤ q then M * 2 ^ (q - qt).toNat
  else if 2 ^ (sh - 1) < rem ∨ (rem = 2 ^ (sh - 1) ∧ S0 % 2 = 1) then S0 + 1 else S0

/-- Rounding the quotient by a power of 2 looks at the remainder against half that power. -/
theorem roundTiesEven_div_two_pow (M k : ℕ) : roundTiesEven ((M : ℚ) / ((2 ^ (k + 1) : ℕ) : ℚ)) =
    if 2 ^ k < M % 2 ^ (k + 1) ∨ (M % 2 ^ (k + 1) = 2 ^ k ∧ M / 2 ^ (k + 1) % 2 = 1) then M / 2 ^ (k + 1) + 1
    else M / 2 ^ (k + 1) := by
  have hfloor : ⌊(M : ℚ) / ((2 ^ (k + 1) : ℕ) : ℚ)⌋.toNat = M / 2 ^ (k + 1) := by
    rw [Int.floor_toNat, Nat.floor_div_eq_div]
  have hpos : (0 : ℚ) < ((2 ^ (k + 1) : ℕ) : ℚ) := by positivity
  have hrem : (M : ℚ) / ((2 ^ (k + 1) : ℕ) : ℚ) - (M / 2 ^ (k + 1) : ℕ) =
      ((M % 2 ^ (k + 1) : ℕ) : ℚ) / ((2 ^ (k + 1) : ℕ) : ℚ) := by
    rw [sub_eq_iff_eq_add, div_add' _ _ _ hpos.ne', div_left_inj' hpos.ne']
    exact_mod_cast (Nat.mod_add_div' M (2 ^ (k + 1))).symm
  have hhalf : (1 / 2 : ℚ) = ((2 ^ k : ℕ) : ℚ) / ((2 ^ (k + 1) : ℕ) : ℚ) := by
    rw [pow_succ]; push_cast; field_simp
  simp only [roundTiesEven, hfloor, hrem, hhalf, div_lt_div_iff_of_pos_right hpos, div_left_inj' hpos.ne',
    Nat.cast_lt, Nat.cast_inj]

theorem roundTiesEven_mul_pow2 (M : ℕ) (q qt : ℤ) : roundTiesEven (M * pow2 q / pow2 qt) = shiftRound M q qt := by
  rw [div_pow2, shiftRound]
  by_cases h : qt ≤ q
  · obtain ⟨k, hk⟩ := Int.eq_ofNat_of_zero_le (sub_nonneg.2 h)
    simp only [if_pos h, hk, Int.toNat_natCast]
    rw [pow2_natCast, ← Nat.cast_mul, roundTiesEven_natCast]
  · obtain ⟨k, hk⟩ := Int.eq_ofNat_of_zero_le (show 0 ≤ qt - q - 1 by omega)
    have hsh : qt - q = ((k + 1 : ℕ) : ℤ) := by push_cast; omega
    have hquot : (M : ℚ) * pow2 (q - qt) = M / ((2 ^ (k + 1) : ℕ) : ℚ) := by
      rw [← neg_sub, hsh, pow2_eq_zpow, zpow_neg, zpow_natCast, div_eq_mul_inv]; push_cast; rfl
    simp only [if_neg h, hquot, hsh, Int.toNat_natCast, Nat.add_sub_cancel]
    exact roundTiesEven_div_two_pow M k

/-- The integer algorithm is `assemble` of the shifted significand at its quantum. -/
theorem scaleInteger_eq_assemble (x : Pat P) (n : ℤ) :
    let q := significandExp x + n
    let qt := max (((significand x).log2 : ℤ) + q) P.emin - P.fracBits
    scaleInteger x n = assemble P (sgn x) (shiftRound (significand x) q qt) qt := rfl

theorem scaleInteger_eq_roundRNE {x : Pat P} (hx : FiniteNonzero x) (n : ℤ) :
    scaleInteger x n = roundRNE P (sgn x) (magnitude x * pow2 n) := by
  have hpos := mul_pos (magnitude_pos_of_finiteNonzero hx) (pow2_pos n)
  have hmul : magnitude x * pow2 n = significand x * pow2 (significandExp x + n) := by
    rw [magnitude_eq_significand_mul hx.1, pow2_add, mul_assoc]
  rw [roundRNE_eq_assemble _ hpos, hmul, quantumExp_mul_pow2 (significand_ne_zero hx), roundTiesEven_mul_pow2]
  exact scaleInteger_eq_assemble x n

/-- Settles O28: the algorithm and the command both round |val(x)|·2^n. -/
theorem fdScaleIntegerAlgorithm : Obligations.FdScaleIntegerAlgorithm := fun _ _ _ hx =>
  givesFloat_fdScale_iff.2 ((scalePat_of_finiteNonzero hx _).trans (scaleInteger_eq_roundRNE hx _).symm)

/-! ### Exact scaling (R141, R142) -/

/-- Where a finite nonzero pattern has the scaled value and the operand's sign, FD.SCALE gives that pattern. -/
theorem scalePat_eq_of_magnitude {x y : Pat P} (hx : FiniteNonzero x) (hy : FiniteNonzero y) (hs : sgn y = sgn x) {n : ℤ}
    (h : magnitude y = magnitude x * pow2 n) : scalePat x n = y := by
  rw [scalePat_of_finiteNonzero hx, ← h, ← hs, roundRNE_magnitude hy]

theorem finiteNonzero_of_isNorm {x : Pat P} (h : isNorm x = true) : FiniteNonzero x := by
  have hpos := ((isNorm_iff x).1 h).1.ne'
  exact ⟨by simp [isFinite, h], by simp [isZero, hpos]⟩

/-- Settles O29: the pattern with the shifted exponent field has the scaled value. -/
theorem fdScaleShiftsExponent : Obligations.FdScaleShiftsExponent := by
  rintro P n l x rfl hx hlo hhi
  obtain ⟨E, hE⟩ := Int.eq_ofNat_of_zero_le (zero_le_one.trans hlo)
  have hmax := expMax_eq P
  have hhi' : (E : ℤ) + 2 ≤ (2 ^ P.expBits : ℕ) := by push_cast; omega
  have hElt : E < 2 ^ P.expBits := by omega
  have hnorm : isNorm (pack P (sgn (opP P l.a)) E (frac (opP P l.a))) = true := by
    rw [isNorm_iff, expf_pack, Nat.mod_eq_of_lt hElt]
    omega
  have hexp : (E : ℤ) - P.bias - P.fracBits =
      (expf (opP P l.a) : ℤ) - P.bias - P.fracBits + sint64 l.n := by omega
  rw [givesFloat_fdScale_iff, hE, Int.toNat_natCast]
  refine scalePat_eq_of_magnitude (finiteNonzero_of_isNorm hx) (finiteNonzero_of_isNorm hnorm) (sgn_pack _ _ _) ?_
  rw [magnitude_pack_norm _ (by omega) hElt (frac_lt _), hexp, pow2_add, ← mul_assoc, magnitude,
    if_neg ((isNorm_iff _).1 hx).1.ne']

/-- A pattern that is no NaN is infinite or zero, or finite and nonzero. -/
theorem isInf_or_isZero_or_finiteNonzero {x : Pat P} (h : isNaN x = false) :
    (isInf x = true ∨ isZero x = true) ∨ FiniteNonzero x := by
  obtain ⟨hn, -⟩ | ⟨-, hi, -⟩ | ⟨-, -, hz, -⟩ | ⟨-, -, hz, -, -, hf⟩ | ⟨-, -, hz, -, -, hf⟩ := class_cases x
  · exact absurd (hn.symm.trans h) (by decide)
  · exact .inl (.inl hi)
  · exact .inl (.inr hz)
  · exact .inr ⟨hf, hz⟩
  · exact .inr ⟨hf, hz⟩

theorem scalePat_zero {x : Pat P} (h : isNaN x = false) : scalePat x 0 = x := by
  rcases isInf_or_isZero_or_finiteNonzero h with hx | hx
  · exact scalePat_of_isInf_or_isZero hx 0
  · exact scalePat_eq_of_magnitude hx hx rfl (by rw [show pow2 0 = 1 from rfl, mul_one])

/-- Scaling back by -n undoes a scaling by n that was exact. -/
theorem scalePat_neg_of_exact {x y : Pat P} {n : ℤ} (hx : isNaN x = false) (hy : scalePat x n = y)
    (h : isFinite x = true → isFinite y = true ∧ val y = val x * (2 : ℚ) ^ n) : scalePat y (-n) = x := by
  rcases isInf_or_isZero_or_finiteNonzero hx with hx | hx
  · rw [scalePat_of_isInf_or_isZero hx] at hy
    exact hy ▸ scalePat_of_isInf_or_isZero hx _
  · obtain ⟨hfin, hval⟩ := h hx.1
    have hs : sgn y = sgn x := by rw [← hy, scalePat_of_finiteNonzero hx, sgn_roundRNE]
    have hmag : magnitude y = magnitude x * pow2 n := by
      rw [← abs_val, hval, abs_mul, abs_val, ← pow2_eq_zpow, abs_of_pos (pow2_pos n)]
    have hpos : 0 < magnitude y := hmag ▸ mul_pos (magnitude_pos_of_finiteNonzero hx) (pow2_pos n)
    have hy0 : FiniteNonzero y := ⟨hfin, Bool.not_eq_true _ ▸ fun hz => hpos.ne' (magnitude_eq_zero_iff.2 hz)⟩
    refine scalePat_eq_of_magnitude hy0 hx hs.symm ?_
    rw [hmag, mul_assoc, ← pow2_add, add_neg_cancel, show pow2 0 = 1 from rfl, mul_one]

/-- Settles O30: a scaling by 0, and a scaling undone. -/
theorem fdScaleZeroAndBack : Obligations.FdScaleZeroAndBack := by
  constructor
  · intro P n l hn
    have h0 : sint64 l.n = 0 := by rw [hn]; rfl
    rw [givesFloat_fdScale_iff, h0]
    split
    · next h => exact scalePat_of_isNaN h 0
    · next h => exact scalePat_zero (Bool.not_eq_true _ ▸ h)
  · rintro P n m l x rfl hx
    refine ⟨_, gives_laneOf _ l, fun h l' ha hn => givesFloat_fdScale_iff.2 ?_⟩
    rw [ha, hn]
    exact scalePat_neg_of_exact hx (opP_zext64 _).symm h

end Sys2Proof.Machine

/-! PROOF. O25, O26: FD.NORM (spec/40_float_decomposer.md R135, R136, R140). A finite nonzero pattern is the significand
2^FW + F at the exponent e - FW: a normal one has its own fraction field for F, a subnormal one the fraction field
shifted until its leading bit is at place FW. -/

namespace Sys2Proof.Machine

open Sys2Proof Sys2Proof.Claims

variable {P : Prec}

/-! ### The outputs by class (R135, R136) -/

theorem normExp_of_isNorm {x : Pat P} (h : isNorm x = true) : normExp x = (expf x : ℤ) - P.bias := if_pos h

theorem normExp_of_isSub {x : Pat P} (h : isSub x = true) :
    normExp x = (subnormalTop x : ℤ) + P.emin - P.fracBits := by
  obtain ⟨h0, -⟩ := (isSub_iff x).1 h
  simp [normExp, isNorm, h0, h]

theorem normMant_of_isNorm {x : Pat P} (h : isNorm x = true) : normMant x = pack P false P.bias (frac x) := by
  obtain ⟨hpos, hlt⟩ := (isNorm_iff x).1 h
  simp [normMant, isNaN, isInf, isZero, hpos.ne', hlt.ne, h]

theorem normMant_of_isSub {x : Pat P} (h : isSub x = true) :
    normMant x = pack P false P.bias (frac x * 2 ^ (P.fracBits - subnormalTop x) % 2 ^ P.fracBits) := by
  obtain ⟨h0, hf⟩ := (isSub_iff x).1 h
  have hmax := expMax_pos P
  simp [normMant, isNaN, isInf, isZero, isNorm, h0, hf, (show 0 ≠ expMax P by omega)]

theorem normExp_of_expf_eq_expMax {x : Pat P} (h : expf x = expMax P) : normExp x = 0 := by
  have hmax := expMax_pos P
  simp [normExp, isNorm, isSub, h, (show expMax P ≠ 0 by omega)]

theorem normExp_of_isZero {x : Pat P} (h : isZero x = true) : normExp x = 0 := by
  obtain ⟨h0, hf⟩ := (isZero_iff x).1 h
  simp [normExp, isNorm, isSub, h0, hf]

theorem normMant_of_isNaN {x : Pat P} (h : isNaN x = true) : normMant x = quiet x := if_pos h

theorem absPat_of_isInf {x : Pat P} (h : isInf x = true) : absPat x = infPat P false := by
  have habs : isInf (absPat x) = true := by simpa [isInf] using h
  rw [eq_infPat habs, sgn_absPat]

theorem normMant_of_isInf {x : Pat P} (h : isInf x = true) : normMant x = infPat P false := by
  obtain ⟨-, hf⟩ := (isInf_iff x).1 h
  simp [normMant, isNaN, hf, h, absPat_of_isInf h]

theorem normMant_of_isZero {x : Pat P} (h : isZero x = true) : normMant x = 0 := by
  obtain ⟨h0, hf⟩ := (isZero_iff x).1 h
  have hmax := expMax_pos P
  have hzero : zeroPat P false = 0 := by cases P <;> rfl
  simp [normMant, isNaN, isInf, hf, h0, h, hzero, (show 0 ≠ expMax P by omega)]

/-- The leading bit of a subnormal's fraction, by its place. -/
theorem subnormalTop_eq {x : Pat P} {L : ℕ} (h : 2 ^ L ≤ frac x) (h' : frac x < 2 ^ (L + 1)) : subnormalTop x = L :=
  (Nat.log2_eq_iff ((Nat.two_pow_pos L).trans_le h).ne').2 ⟨h, h'⟩

/-- What FD.NORM gives a lane, from the exponent and the mantissa of the operand. -/
theorem gives_fdNorm {n : LaneCount} {l : LaneIn} {e : ℤ} {m : Pat P} (he : normExp (opP P l.a) = e)
    (hm : normMant (opP P l.a) = m) :
    Gives (.fdNorm P n) l { ys := sgn (opP P l.a), yn := BitVec.ofInt 64 e, yf := zext64 m } :=
  gives_iff.2 (by simp only [laneOf, laneFdNorm, trunc64, he, hm])

/-- Settles O25: class by class. -/
theorem fdNormFields : Obligations.FdNormFields := by
  rintro P n l x rfl
  refine ⟨fun h => ?nan, fun h => ?inf, fun h => ?zero, fun h => ?norm, fun h L hL hL' => ?sub⟩
  case nan => exact gives_fdNorm (normExp_of_expf_eq_expMax ((isNaN_iff _).1 h).1) (normMant_of_isNaN h)
  case inf => exact gives_fdNorm (normExp_of_expf_eq_expMax ((isInf_iff _).1 h).1) (normMant_of_isInf h)
  case zero =>
    have hgives := gives_fdNorm (n := n) (normExp_of_isZero h) (normMant_of_isZero h)
    rwa [zext64_zero] at hgives
  case norm => exact gives_fdNorm (normExp_of_isNorm h) (normMant_of_isNorm h)
  case sub =>
    have htop := subnormalTop_eq hL hL'
    exact gives_fdNorm (htop ▸ normExp_of_isSub h) (htop ▸ normMant_of_isSub h)

/-! ### Exactness (R140) -/

theorem subnormalTop_lt {x : Pat P} (h : isSub x = true) : subnormalTop x < P.fracBits :=
  (Nat.log2_lt ((isSub_iff x).1 h).2).2 (frac_lt x)

/-- A subnormal's fraction, shifted until its leading bit is at place FW: that bit and what FD.NORM keeps of it. -/
theorem frac_shifted_eq {x : Pat P} (h : isSub x = true) :
    frac x * 2 ^ (P.fracBits - subnormalTop x) =
      2 ^ P.fracBits + frac x * 2 ^ (P.fracBits - subnormalTop x) % 2 ^ P.fracBits := by
  obtain ⟨-, hf⟩ := (isSub_iff x).1 h
  have htop := subnormalTop_lt h
  have hsplit : P.fracBits = subnormalTop x + (P.fracBits - subnormalTop x) := by omega
  have hlo : 2 ^ P.fracBits ≤ frac x * 2 ^ (P.fracBits - subnormalTop x) := by
    conv_lhs => rw [hsplit, pow_add]
    exact Nat.mul_le_mul_right _ (Nat.log2_self_le hf)
  have hhi : frac x * 2 ^ (P.fracBits - subnormalTop x) < 2 * 2 ^ P.fracBits := by
    conv_rhs => rw [hsplit, pow_add, ← mul_assoc, ← pow_succ']
    exact Nat.mul_lt_mul_of_pos_right Nat.lt_log2_self (Nat.two_pow_pos _)
  rw [Nat.mod_eq_sub_mod hlo, Nat.mod_eq_of_lt (by omega)]
  omega

/-- The mantissa of a finite nonzero pattern is the pattern of 1.F, and the pattern's magnitude is 1.F·2^e. -/
theorem normMant_eq_pack {x : Pat P} (hx : FiniteNonzero x) : ∃ F < 2 ^ P.fracBits,
    normMant x = pack P false P.bias F ∧
    magnitude x = ((2 ^ P.fracBits + F : ℕ) : ℚ) * pow2 (-P.fracBits) * pow2 (normExp x) := by
  cases hn : isNorm x with
  | true =>
    refine ⟨frac x, frac_lt x, normMant_of_isNorm hn, ?_⟩
    rw [magnitude_eq_significand_mul hx.1, significand_of_isNorm hn, significandExp_of_isNorm hn,
      normExp_of_isNorm hn, mul_assoc, ← pow2_add, neg_add_eq_sub]
  | false =>
    have hs : isSub x = true := by
      obtain ⟨hfin, hz⟩ := hx
      simpa [isFinite, hn, hz] using hfin
    refine ⟨_, Nat.mod_lt _ (Nat.two_pow_pos _), normMant_of_isSub hs, ?_⟩
    have htop := subnormalTop_lt hs
    have hexp : P.emin - P.fracBits =
        ((P.fracBits - subnormalTop x : ℕ) : ℤ) + (-P.fracBits + normExp x) := by
      rw [normExp_of_isSub hs]; omega
    rw [magnitude_eq_significand_mul hx.1, significand_of_not_isNorm hn, significandExp_of_not_isNorm hn,
      ← frac_shifted_eq hs, hexp, pow2_add, pow2_add, pow2_natCast]
    push_cast
    ring

theorem bias_lt_expMax (P : Prec) : 0 < P.bias ∧ P.bias < expMax P := by cases P <;> decide

/-- The value of the pattern of 1.F. -/
theorem val_pack_bias {F : ℕ} (hF : F < 2 ^ P.fracBits) :
    val (pack P false P.bias F) = ((2 ^ P.fracBits + F : ℕ) : ℚ) * pow2 (-P.fracBits) := by
  obtain ⟨hpos, hlt⟩ := bias_lt_expMax P
  have hmax := expMax_eq P
  rw [val, sgn_pack, if_neg Bool.false_ne_true, magnitude_pack_norm false hpos (by omega) hF, sub_self, zero_sub]

/-- 1.F lies in [1, 2). -/
theorem mantissa_bounds {F : ℕ} (hF : F < 2 ^ P.fracBits) :
    1 ≤ ((2 ^ P.fracBits + F : ℕ) : ℚ) * pow2 (-P.fracBits) ∧
    ((2 ^ P.fracBits + F : ℕ) : ℚ) * pow2 (-P.fracBits) < 2 := by
  have hpos : (0 : ℚ) < ((2 ^ P.fracBits : ℕ) : ℚ) := by positivity
  have hF' : (F : ℚ) < ((2 ^ P.fracBits : ℕ) : ℚ) := by exact_mod_cast hF
  have hinv : pow2 (-P.fracBits) = ((2 ^ P.fracBits : ℕ) : ℚ)⁻¹ := by
    rw [pow2_eq_zpow, zpow_neg, zpow_natCast]; push_cast; rfl
  rw [hinv, ← div_eq_mul_inv, le_div_iff₀ hpos, div_lt_iff₀ hpos, Nat.cast_add]
  constructor
  · linarith [Nat.cast_nonneg (α := ℚ) F]
  · linarith

theorem format_bounds (P : Prec) :
    expMax P ≤ 2047 ∧ P.bias ≤ 1023 ∧ -1022 ≤ P.emin ∧ P.emin ≤ 0 ∧ P.fracBits ≤ 52 := by cases P <;> decide

/-- An unbiased exponent fits a lane. -/
theorem normExp_bounds (x : Pat P) : -2 ^ 63 ≤ normExp x ∧ normExp x < 2 ^ 63 := by
  obtain ⟨hmax, hbias, hemin, hemin', hfrac⟩ := format_bounds P
  unfold normExp
  split
  · have hle := expf_le_expMax x
    omega
  split
  · next h =>
    have htop := subnormalTop_lt h
    omega
  · decide

/-- An exponent comes back from the lane it was written to. -/
theorem sint64_trunc64 {e : ℤ} (h : -2 ^ 63 ≤ e) (h' : e < 2 ^ 63) : sint64 (trunc64 e) = e := by
  rw [sint64, trunc64, BitVec.toInt_ofInt]
  exact Int.bmod_eq_of_le (by omega) (by omega)

theorem val_eq_sign_mul (x : Pat P) : val x = (if sgn x then -1 else 1) * magnitude x := by
  unfold val; split <;> ring

/-- Settles O26: the operand's magnitude is 1.F·2^e with the mantissa and the exponent FD.NORM delivers. -/
theorem fdNormExact : Obligations.FdNormExact := by
  intro P n l hx
  obtain ⟨F, hF, hmant, hmag⟩ := normMant_eq_pack hx
  have hval : val (normMant (opP P l.a)) = ((2 ^ P.fracBits + F : ℕ) : ℚ) * pow2 (-P.fracBits) := by
    rw [hmant, val_pack_bias hF]
  obtain ⟨hlo, hhi⟩ := normExp_bounds (opP P l.a)
  obtain ⟨h1, h2⟩ := mantissa_bounds hF
  refine ⟨_, gives_laneOf _ l, ?_⟩
  simp only [laneOf, laneFdNorm, opP_zext64, sint64_trunc64 hlo hhi, hval]
  refine ⟨h1, h2, ?_⟩
  rw [val_eq_sign_mul, hmag, ← pow2_eq_zpow]
  exact (mul_assoc _ _ _).symm

end Sys2Proof.Machine

/-! PROOF. O34: RR.TRIG (spec/41_range_reducer.md R161-R164). No product of a finite value with `twoOverPi` comes as near to
a half-integer as `twoOverPi` is to 2/π on that value (`val_gap`), so the integer nearest to the product the machine forms
is the integer nearest to the exact real one. -/

namespace Sys2Proof.Machine

open Sys2Proof Sys2Proof.Claims

variable {P : Prec}

theorem trigK_le (x : Pat P) : (trigK x : ℚ) ≤ val x * twoOverPi + 1 / 2 := Int.floor_le _

theorem lt_trigK_add_one (x : Pat P) : val x * twoOverPi + 1 / 2 < trigK x + 1 := Int.lt_floor_add_one _

/-- The machine's product is farther from both half-integers around k than its error can be. -/
theorem abs_val_mul_twoOverPi_sub_trigK {x : Pat P} (hx : isFinite x = true) :
    |val x * twoOverPi - trigK x| + |val x| * twoOverPiTail < 1 / 2 := by
  have hlo := trigK_le x
  have hhi := lt_trigK_add_one x
  have habove := val_gap hx (trigK x)
  have hbelow := val_gap hx (trigK x - 1)
  push_cast at hbelow
  rw [abs_of_nonpos (a := val x * twoOverPi - _) (by linarith)] at habove
  rw [abs_of_nonneg (a := val x * twoOverPi - _) (by linarith)] at hbelow
  rcases abs_cases (val x * twoOverPi - trigK x) with ⟨h, -⟩ | ⟨h, -⟩ <;> linarith

/-- The exact product differs from the machine's by at most |val(x)| units of the last place of `twoOverPi`. -/
theorem abs_val_mul_two_div_pi_sub_le (x : Pat P) :
    |(val x : ℝ) * (2 / Real.pi) - (val x : ℝ) * (twoOverPi : ℝ)| ≤ |(val x : ℝ)| * (twoOverPiTail : ℝ) := by
  have hlo := twoOverPi_lt
  have hhi := lt_twoOverPi
  rw [← mul_sub, abs_mul, abs_of_nonneg (by linarith : 0 ≤ 2 / Real.pi - (twoOverPi : ℝ))]
  exact mul_le_mul_of_nonneg_left (by linarith) (abs_nonneg _)

/-- k is the integer nearest to the exact real val(x)·2/π, and no tie occurs (R162). -/
theorem abs_val_mul_two_div_pi_sub_trigK_lt {x : Pat P} (hx : isFinite x = true) :
    |(val x : ℝ) * (2 / Real.pi) - trigK x| < 1 / 2 := by
  have hgap : |(val x : ℝ) * (twoOverPi : ℝ) - trigK x| + |(val x : ℝ)| * (twoOverPiTail : ℝ) < 1 / 2 := by
    have h : ((|val x * twoOverPi - trigK x| + |val x| * twoOverPiTail : ℚ) : ℝ) < ((1 / 2 : ℚ) : ℝ) :=
      Rat.cast_lt.2 (abs_val_mul_twoOverPi_sub_trigK hx)
    push_cast at h
    exact h
  calc |(val x : ℝ) * (2 / Real.pi) - trigK x|
      ≤ |(val x : ℝ) * (2 / Real.pi) - (val x : ℝ) * (twoOverPi : ℝ)| + |(val x : ℝ) * (twoOverPi : ℝ) - trigK x| :=
        abs_sub_le _ _ _
    _ ≤ |(val x : ℝ)| * (twoOverPiTail : ℝ) + |(val x : ℝ) * (twoOverPi : ℝ) - trigK x| :=
        add_le_add_left (abs_val_mul_two_div_pi_sub_le x) _
    _ < 1 / 2 := by linarith

/-! ### The outputs by class (R161) -/

theorem laneRrTrig_of_isNaN {c : Cfg} {l : LaneIn} (h : isNaN (opP P l.a) = true) :
    laneRrTrig c P l = .float (quiet (opP P l.a)) := if_pos h

theorem isNaN_of_isInf {x : Pat P} (h : isInf x = true) : isNaN x = false := by
  obtain ⟨-, hfrac⟩ := (isInf_iff x).1 h
  simp [isNaN, hfrac]

theorem laneRrTrig_of_isInf {c : Cfg} {l : LaneIn} (h : isInf (opP P l.a) = true) :
    laneRrTrig c P l = .float (cNaN P) := by
  simp [laneRrTrig, isNaN_of_isInf h, h]

theorem laneRrTrig_of_isZero {c : Cfg} {l : LaneIn} (h : isZero (opP P l.a) = true) :
    laneRrTrig c P l = .float (opP P l.a) := by
  obtain ⟨hnan, hinf⟩ := isNaN_isInf_of_isFinite (x := opP P l.a) (by simp [isFinite, h])
  simp [laneRrTrig, hnan, hinf, h]

theorem laneRrTrig_of_finiteNonzero {c : Cfg} {l : LaneIn} (h : FiniteNonzero (opP P l.a)) :
    laneRrTrig c P l =
      { yf := zext64 (trigReduced c (opP P l.a)), yn := BitVec.ofNat 64 (trigQuadrant c (opP P l.a)).val } := by
  obtain ⟨hnan, hinf⟩ := isNaN_isInf_of_isFinite h.1
  simp [laneRrTrig, hnan, hinf, h.2]

theorem trigReduced_of_le {c : Cfg} {x : Pat P} (h : |val x| ≤ trigRrMax c P) :
    trigReduced c x = if trigK x = 0 then x else c.reduceTrigVal P x := by
  simp [trigReduced, trigInRange, h]

theorem trigReduced_of_not_le {c : Cfg} {x : Pat P} (h : ¬|val x| ≤ trigRrMax c P) :
    trigReduced c x = c.reduceTrigVal P x := by
  simp [trigReduced, trigInRange, h]

theorem trigQuadrant_of_le {c : Cfg} {x : Pat P} (h : |val x| ≤ trigRrMax c P) :
    trigQuadrant c x = mod4 (trigK x) := by
  simp [trigQuadrant, trigInRange, h]

theorem trigQuadrant_of_not_le {c : Cfg} {x : Pat P} (h : ¬|val x| ≤ trigRrMax c P) :
    trigQuadrant c x = c.trigQuadBig P x := by
  simp [trigQuadrant, trigInRange, h]

/-- The selector k mod 4 as it stands in a lane. -/
theorem ofNat_mod4 (k : ℤ) : BitVec.ofNat 64 (mod4 k).val = BitVec.ofInt 64 (k % 4) := by
  have hcast : (((mod4 k).val : ℕ) : ℤ) = k % 4 := Int.toNat_of_nonneg (Int.emod_nonneg k (by decide))
  rw [← hcast, BitVec.ofInt_natCast]

/-- Settles O34: class by class; in range the witness is the machine's own k. -/
theorem rrTrigQuadrant : Obligations.RrTrigQuadrant := by
  rintro P n l x rfl
  refine ⟨fun h => givesFloat_iff.2 (laneRrTrig_of_isNaN h), fun h => givesFloat_iff.2 (laneRrTrig_of_isInf h),
    fun h => givesFloat_iff.2 (laneRrTrig_of_isZero h), fun h => ?_⟩
  have hlane := laneRrTrig_of_finiteNonzero (c := Config.cfg) h
  split_ifs with hrange
  · refine ⟨trigK (opP P l.a), abs_val_mul_two_div_pi_sub_trigK_lt h.1, gives_iff.2 ?_⟩
    rw [trigReduced_of_le hrange, trigQuadrant_of_le hrange, ofNat_mod4] at hlane
    exact hlane
  · rw [trigReduced_of_not_le hrange, trigQuadrant_of_not_le hrange] at hlane
    exact gives_iff.2 hlane

end Sys2Proof.Machine

/-! PROOF. O35, O36: RR.EXP2 (spec/41_range_reducer.md R166, R167). A pattern whose n is not 0 is at least 1/2, so its
quantum is at least 2^-(FW+1); the fraction is a multiple of that quantum and at most 1/2, so it has a significand of at
most FW + 1 bits, and RoundRNE keeps it. -/

namespace Sys2Proof.Machine

open Sys2Proof Sys2Proof.Claims

variable {P : Prec}

/-! ### The outputs by class (R166) -/

theorem exp2Int_of_isNaN {x : Pat P} (h : isNaN x = true) : exp2Int x = 0 := if_pos h

theorem exp2Frac_of_isNaN {x : Pat P} (h : isNaN x = true) : exp2Frac x = quiet x := if_pos h

theorem exp2Int_of_isInf {x : Pat P} (h : isInf x = true) :
    exp2Int x = if sgn x then -2 ^ 63 else 2 ^ 63 - 1 := by
  simp [exp2Int, isNaN_of_isInf h, h]

theorem exp2Frac_of_isInf {x : Pat P} (h : isInf x = true) : exp2Frac x = zeroPat P false := by
  simp [exp2Frac, isNaN_of_isInf h, h]

theorem exp2Int_of_isFinite {x : Pat P} (h : isFinite x = true) : exp2Int x = sat64 (exp2N x) := by
  obtain ⟨hnan, hinf⟩ := isNaN_isInf_of_isFinite h
  simp [exp2Int, hnan, hinf]

theorem exp2Frac_of_isFinite {x : Pat P} (h : isFinite x = true) :
    exp2Frac x = if exp2N x = 0 then x else if val x - exp2N x = 0 then zeroPat P false
      else roundVal P (val x - exp2N x) := by
  obtain ⟨hnan, hinf⟩ := isNaN_isInf_of_isFinite h
  simp [exp2Frac, hnan, hinf]

theorem zext64_zeroPat_false (P : Prec) : zext64 (zeroPat P false) = 0 := by cases P <;> decide

theorem gives_rrExp2_iff {n : LaneCount} {l : LaneIn} {o : LaneOut} :
    Gives (.rrExp2 P n) l o ↔
      { yn := trunc64 (exp2Int (opP P l.a)), yf := zext64 (exp2Frac (opP P l.a)) : LaneOut } = o := gives_iff

/-- Settles O35: class by class; n is the floor. -/
theorem rrExp2Split : Obligations.RrExp2Split := by
  rintro P c l x rfl
  refine ⟨fun h => gives_rrExp2_iff.2 ?nan, fun h hs => gives_rrExp2_iff.2 ?posInf,
    fun h hs => gives_rrExp2_iff.2 ?negInf, fun h n hlo hhi => gives_rrExp2_iff.2 ?finite⟩
  case nan => rw [exp2Int_of_isNaN h, exp2Frac_of_isNaN h]; rfl
  case posInf => rw [exp2Int_of_isInf h, exp2Frac_of_isInf h, hs, zext64_zeroPat_false]; rfl
  case negInf => rw [exp2Int_of_isInf h, exp2Frac_of_isInf h, hs, zext64_zeroPat_false]; rfl
  case finite =>
    have hn : exp2N (opP P l.a) = n := Int.floor_eq_iff.2 ⟨hlo, hhi⟩
    rw [exp2Int_of_isFinite h, exp2Frac_of_isFinite h, hn]
    simp only [sub_eq_zero, apply_ite zext64, zext64_zeroPat_false]
    rfl

/-! ### Exact rounding -/

/-- A number with a significand of at most FW + 1 bits, at an exponent from the least one on, is a multiple of its
quantum. -/
theorem roundTiesEven_mul_quantum {M : ℕ} {q : ℤ} (hM0 : M ≠ 0) (hM : M < 2 ^ (P.fracBits + 1))
    (hq : P.emin - P.fracBits ≤ q) :
    (roundTiesEven (M * pow2 q / pow2 (quantumExp P (M * pow2 q))) : ℚ) * pow2 (quantumExp P (M * pow2 q)) =
      M * pow2 q := by
  have hlog : M.log2 < P.fracBits + 1 := (Nat.log2_lt hM0).2 hM
  have hle : quantumExp P (M * pow2 q) ≤ q := by rw [quantumExp_mul_pow2 hM0]; omega
  obtain ⟨k, hk⟩ := Int.eq_ofNat_of_zero_le (sub_nonneg.2 hle)
  rw [div_pow2, hk, pow2_natCast, ← Nat.cast_mul, roundTiesEven_natCast, Nat.cast_mul, ← pow2_natCast, mul_assoc,
    ← pow2_add, ← hk, sub_add_cancel]

/-- RoundRNE keeps a number that has a significand of at most FW + 1 bits. -/
theorem roundRNE_exact (s : Bool) {M : ℕ} {q : ℤ} (hM0 : M ≠ 0) (hM : M < 2 ^ (P.fracBits + 1))
    (hq : P.emin - P.fracBits ≤ q) (hov : M * pow2 q < overflowBound P) :
    isFinite (roundRNE P s (M * pow2 q)) = true ∧ magnitude (roundRNE P s (M * pow2 q)) = M * pow2 q := by
  have hpos : 0 < (M : ℚ) * pow2 q := mul_pos (by positivity) (pow2_pos q)
  obtain ⟨hfin, hmag⟩ := roundRNE_spec s hpos (overflowBound_eq P ▸ hov)
  exact ⟨hfin, hmag.trans (roundTiesEven_mul_quantum hM0 hM hq)⟩

/-- RoundRNE of a signed number keeps it where it keeps the magnitude. -/
theorem val_roundVal_of_magnitude {v : ℚ} (h : magnitude (roundVal P v) = |v|) : val (roundVal P v) = v := by
  have hs : sgn (roundVal P v) = decide (v < 0) := sgn_roundRNE _ _
  rw [val, h, hs]
  by_cases hv : v < 0
  · simp [hv, abs_of_neg hv]
  · simp [hv, abs_of_nonneg (not_lt.1 hv)]

theorem two_pow_mul_pow2_neg (k : ℕ) : ((2 ^ k : ℕ) : ℚ) * pow2 (-k) = 1 := by
  rw [← pow2_natCast, ← pow2_add, add_neg_cancel]; rfl

theorem two_pow_succ_mul_pow2_neg (k : ℕ) : ((2 ^ (k + 1) : ℕ) : ℚ) * pow2 (-(k + 1)) = 1 :=
  two_pow_mul_pow2_neg (k + 1)

theorem one_le_overflowBound (P : Prec) : 1 ≤ overflowBound P :=
  (pow2_le_pow2 (show 0 ≤ P.emax by cases P <;> decide)).trans (pow2_emax_le_overflowBound P)

/-! ### The fraction (R167) -/

theorem exp2N_bounds (x : Pat P) : -1 / 2 ≤ val x - exp2N x ∧ val x - exp2N x < 1 / 2 := by
  have hlo : (exp2N x : ℚ) ≤ val x + 1 / 2 := Int.floor_le _
  have hhi : val x + 1 / 2 < exp2N x + 1 := Int.lt_floor_add_one _
  constructor <;> linarith

theorem half_le_magnitude_of_exp2N_ne_zero {x : Pat P} (h : exp2N x ≠ 0) : 1 / 2 ≤ magnitude x := by
  by_contra hlt
  rw [← abs_val, not_le, abs_lt] at hlt
  exact h (Int.floor_eq_zero_iff.2 ⟨by linarith [hlt.1], by linarith [hlt.2]⟩)

/-- A pattern of magnitude at least 1/2 is an integer multiple of 2^-(FW+1). -/
theorem val_eq_intCast_mul {x : Pat P} (h : 1 / 2 ≤ magnitude x) :
    ∃ k : ℤ, val x = k * pow2 (-(P.fracBits + 1)) := by
  have hhalf : pow2 (-(P.fracBits + 1) + P.fracBits) = 1 / 2 := by
    rw [neg_add_rev, neg_add_cancel_right]; norm_num [pow2_eq_zpow]
  rcases magnitude_multiple_or_lt x (-(P.fracBits + 1)) with ⟨k, hk⟩ | ⟨-, hlt⟩
  · refine ⟨(if sgn x then -1 else 1) * k, ?_⟩
    rw [val_eq_sign_mul, hk]
    push_cast
    ring
  · exact absurd h (hhalf ▸ hlt).not_ge

/-- A nonzero multiple of 2^-(FW+1) of magnitude at most 1/2 is kept by RoundRNE. -/
theorem roundVal_exact_of_le_half {v : ℚ} {k : ℤ} (hv : v = k * pow2 (-(P.fracBits + 1))) (hv0 : v ≠ 0)
    (h : |v| ≤ 1 / 2) : isFinite (roundVal P v) = true ∧ val (roundVal P v) = v := by
  have hq := pow2_pos (-(P.fracBits + 1 : ℤ))
  have hk : k ≠ 0 := fun hk => hv0 (by rw [hv, hk, Int.cast_zero, zero_mul])
  have habs : |v| = (k.natAbs : ℚ) * pow2 (-(P.fracBits + 1)) := by
    rw [hv, abs_mul, abs_of_pos hq, Nat.cast_natAbs, Int.cast_abs]
  have hM : k.natAbs < 2 ^ (P.fracBits + 1) := by
    have hlt : (k.natAbs : ℚ) * pow2 (-(P.fracBits + 1)) <
        ((2 ^ (P.fracBits + 1) : ℕ) : ℚ) * pow2 (-(P.fracBits + 1)) := by
      rw [two_pow_succ_mul_pow2_neg, ← habs]; linarith
    exact_mod_cast lt_of_mul_lt_mul_right hlt hq.le
  have hemin : P.emin ≤ -1 := by cases P <;> decide
  have hov : (k.natAbs : ℚ) * pow2 (-(P.fracBits + 1)) < overflowBound P := by
    rw [← habs]; linarith [one_le_overflowBound P]
  obtain ⟨hfin, hmag⟩ := roundRNE_exact (decide (v < 0)) (Int.natAbs_ne_zero.2 hk) hM (by omega) hov
  rw [← habs] at hfin hmag
  exact ⟨hfin, val_roundVal_of_magnitude hmag⟩

/-- The fraction is exact: the value of the pattern RR.EXP2 delivers is val(x) - n with the exact n. -/
theorem exp2Frac_exact {x : Pat P} (hx : isFinite x = true) :
    isFinite (exp2Frac x) = true ∧ val (exp2Frac x) = val x - exp2N x := by
  rw [exp2Frac_of_isFinite hx]
  split_ifs with hn hzero
  · simp [hx, hn]
  · rw [hzero]
    exact ⟨by simp [isFinite], val_eq_zero_iff.2 (isZero_zeroPat false)⟩
  · obtain ⟨k, hk⟩ := val_eq_intCast_mul (half_le_magnitude_of_exp2N_ne_zero hn)
    have hdiff : val x - exp2N x =
        ((k - exp2N x * (2 ^ (P.fracBits + 1) : ℕ) : ℤ) : ℚ) * pow2 (-(P.fracBits + 1)) := by
      rw [hk, Int.cast_sub, Int.cast_mul, Int.cast_natCast, sub_mul, mul_assoc, two_pow_succ_mul_pow2_neg,
        mul_one]
    obtain ⟨hlo, hhi⟩ := exp2N_bounds x
    exact roundVal_exact_of_le_half hdiff hzero (abs_le.2 ⟨by linarith, hhi.le⟩)

/-- The saturated n comes back from its lane where it was not saturated. -/
theorem sint64_trunc64_sat64 {n : ℤ} (h : -2 ^ 63 ≤ n) (h' : n < 2 ^ 63) : sint64 (trunc64 (sat64 n)) = n := by
  have hsat : sat64 n = n := by unfold sat64; omega
  rw [hsat, sint64_trunc64 h h']

/-- Settles O36: the fraction is val(x) - n with the exact n, and the lane holds that n unless it was saturated. -/
theorem rrExp2FractionExact : Obligations.RrExp2FractionExact := by
  intro P c l hx
  obtain ⟨hfin, hval⟩ := exp2Frac_exact hx
  obtain ⟨hlo, hhi⟩ := exp2N_bounds (opP P l.a)
  refine ⟨_, gives_rrExp2_iff.2 rfl, ?_⟩
  simp only [opP_zext64, hval]
  refine ⟨hfin, hlo, hhi, fun hmin hmax => ?_⟩
  have hn : -2 ^ 63 ≤ exp2N (opP P l.a) := Int.le_floor.2 (by push_cast; exact hmin)
  have hn' : exp2N (opP P l.a) < 2 ^ 63 := Int.floor_lt.2 (by push_cast; exact hmax)
  rw [exp2Int_of_isFinite hx, sint64_trunc64_sat64 hn hn', add_sub_cancel]

end Sys2Proof.Machine

/-! PROOF. O37, O38: RR.ATAN (spec/41_range_reducer.md R169, R170). A pattern above 1 is at least 1 + 2^-FW, so its
reciprocal is at most the greatest pattern below 1; and it is at least the least positive pattern. RoundRNE does not
cross a pattern. -/

namespace Sys2Proof.Machine

open Sys2Proof Sys2Proof.Claims

variable {P : Prec}

/-! ### The outputs by class (R169) -/

theorem atanClass_of_isNaN {x : Pat P} (h : isNaN x = true) : atanClass x = false := by simp [atanClass, h]

theorem atanClass_of_abs_le_one {x : Pat P} (hx : isFinite x = true) (h : |val x| ≤ 1) : atanClass x = false := by
  simp [atanClass, hx, h]

theorem atanClass_of_isInf {x : Pat P} (h : isInf x = true) : atanClass x = true := by
  have hfin : isFinite x = false := by
    rw [← Bool.not_eq_true, isFinite_iff, ((isInf_iff x).1 h).1]
    exact lt_irrefl _
  simp [atanClass, isNaN_of_isInf h, hfin]

theorem atanClass_of_one_lt_abs {x : Pat P} (hx : isFinite x = true) (h : 1 < |val x|) : atanClass x = true := by
  simp [atanClass, (isNaN_isInf_of_isFinite hx).1, h.not_ge]

theorem atanArg_of_isNaN {x : Pat P} (h : isNaN x = true) : atanArg x = quiet x := if_pos h

theorem atanArg_of_class_zero {x : Pat P} (hx : isNaN x = false) (h : atanClass x = false) : atanArg x = x := by
  simp [atanArg, hx, h]

theorem atanArg_of_class_one {x : Pat P} (h : atanClass x = true) : atanArg x = fdiv (onePat P) x := by
  have hnan : isNaN x = false := by
    cases hx : isNaN x with
    | false => rfl
    | true => exact absurd (h.symm.trans (atanClass_of_isNaN hx)) (by decide)
  simp [atanArg, hnan, h]

/-- What RR.ATAN gives a lane, from the class and the argument of the operand. -/
theorem gives_rrAtan {n : LaneCount} {l : LaneIn} {b : Bool} {r : Pat P} (hb : atanClass (opP P l.a) = b)
    (hr : atanArg (opP P l.a) = r) :
    Gives (.rrAtan P n) l { ys := sgn (opP P l.a), yn := if b then 1 else 0, yf := zext64 r } :=
  gives_iff.2 (by simp only [laneOf, laneRrAtan, hb, hr])

theorem onePat_toNat : (onePat .b32).toNat = 0x3F800000 ∧ (onePat .b64).toNat = 0x3FF0000000000000 := by decide

/-- Settles O37: class by class. -/
theorem rrAtanClass : Obligations.RrAtanClass := by
  refine ⟨onePat_toNat, ?_⟩
  rintro P n l x rfl
  refine ⟨fun h => ?nan, fun hx h => ?inside, fun h => ?outside⟩
  case nan => exact gives_rrAtan (atanClass_of_isNaN h) (atanArg_of_isNaN h)
  case inside =>
    have hc := atanClass_of_abs_le_one hx h
    exact gives_rrAtan hc (atanArg_of_class_zero (isNaN_isInf_of_isFinite hx).1 hc)
  case outside =>
    have hc : atanClass (opP P l.a) = true := h.elim atanClass_of_isInf fun h => atanClass_of_one_lt_abs h.1 h.2
    exact gives_rrAtan hc (atanArg_of_class_one hc)

/-! ### RoundRNE does not cross a pattern -/

theorem magnitude_roundRNE_le (s : Bool) {v : ℚ} (hv : 0 < v) (hov : v < overflowBound P) {y : Pat P}
    (h : v ≤ magnitude y) : magnitude (roundRNE P s v) ≤ magnitude y := by
  have hnear := (roundRNE_nearest s hv hov y).1
  rw [abs_of_nonneg (sub_nonneg.2 h)] at hnear
  linarith [le_abs_self (magnitude (roundRNE P s v) - v)]

theorem le_magnitude_roundRNE (s : Bool) {v : ℚ} (hv : 0 < v) (hov : v < overflowBound P) {y : Pat P}
    (h : magnitude y ≤ v) : magnitude y ≤ magnitude (roundRNE P s v) := by
  have hnear := (roundRNE_nearest s hv hov y).1
  rw [abs_of_nonpos (sub_nonpos.2 h)] at hnear
  linarith [neg_le_abs (magnitude (roundRNE P s v) - v)]

/-- The least positive pattern. -/
def leastPat (P : Prec) : Pat P := pack P false 0 1

/-- The greatest pattern below 1. -/
def belowOnePat (P : Prec) : Pat P := pack P false (P.bias - 1) (2 ^ P.fracBits - 1)

theorem magnitude_leastPat (P : Prec) : magnitude (leastPat P) = pow2 (P.emin - P.fracBits) := by
  rw [leastPat, magnitude_pack_sub false (Nat.one_lt_two_pow (fracBits_pos P).ne'), Nat.cast_one, one_mul]

theorem magnitude_belowOnePat (P : Prec) : magnitude (belowOnePat P) = 1 - pow2 (-P.fracBits) / 2 := by
  have hbias : 1 < P.bias ∧ P.bias - 1 < 2 ^ P.expBits := by cases P <;> decide
  have hpow := Nat.one_lt_two_pow (fracBits_pos P).ne'
  have hexp : ((P.bias - 1 : ℕ) : ℤ) - P.bias - P.fracBits = -1 + -P.fracBits := by omega
  have hsig : ((2 ^ P.fracBits + (2 ^ P.fracBits - 1) : ℕ) : ℚ) = 2 * ((2 ^ P.fracBits : ℕ) : ℚ) - 1 := by
    rw [Nat.cast_add, Nat.cast_sub hpow.le, Nat.cast_one]; ring
  have hhalf : pow2 (-1) = 1 / 2 := by norm_num [pow2_eq_zpow]
  rw [belowOnePat, magnitude_pack_norm false (by omega) hbias.2 (by omega), hexp, hsig, pow2_add, hhalf]
  linear_combination two_pow_mul_pow2_neg P.fracBits

/-! ### The reciprocal (R170) -/

@[simp] theorem sgn_onePat (P : Prec) : sgn (onePat P) = false := by simp [onePat]

@[simp] theorem isInf_onePat (P : Prec) : isInf (onePat P) = false := by cases P <;> decide

@[simp] theorem isZero_onePat (P : Prec) : isZero (onePat P) = false := by cases P <;> decide

@[simp] theorem val_onePat (P : Prec) : val (onePat P) = 1 := by
  rw [onePat, val_pack_bias (Nat.two_pow_pos _), Nat.add_zero, two_pow_mul_pow2_neg]

theorem fdiv_onePat_of_isInf {x : Pat P} (h : isInf x = true) : fdiv (onePat P) x = zeroPat P (sgn x) := by
  simp [fdiv, isNaN_of_isInf h, h]

theorem fdiv_onePat_of_finiteNonzero {x : Pat P} (h : FiniteNonzero x) :
    fdiv (onePat P) x = roundRNE P (sgn x) (magnitude x)⁻¹ := by
  obtain ⟨hnan, hinf⟩ := isNaN_isInf_of_isFinite h.1
  simp [fdiv, hnan, hinf, h.2, abs_inv, abs_val]

/-- The patterns above 1 start at 1 + 2^-FW. -/
theorem one_add_le_magnitude {x : Pat P} (h : 1 < magnitude x) : 1 + pow2 (-P.fracBits) ≤ magnitude x := by
  have hq := pow2_pos (-P.fracBits)
  rcases magnitude_multiple_or_lt x (-P.fracBits) with ⟨k, hk⟩ | ⟨-, hlt⟩
  · have hk1 : 2 ^ P.fracBits < k := by
      have hlt : ((2 ^ P.fracBits : ℕ) : ℚ) * pow2 (-P.fracBits) < k * pow2 (-P.fracBits) := by
        rw [two_pow_mul_pow2_neg, ← hk]; exact h
      exact_mod_cast lt_of_mul_lt_mul_right hlt hq.le
    have hk2 : ((2 ^ P.fracBits : ℕ) : ℚ) + 1 ≤ k := by exact_mod_cast hk1
    calc 1 + pow2 (-P.fracBits) = (((2 ^ P.fracBits : ℕ) : ℚ) + 1) * pow2 (-P.fracBits) := by
          rw [add_mul, two_pow_mul_pow2_neg, one_mul]
      _ ≤ k * pow2 (-P.fracBits) := mul_le_mul_of_nonneg_right hk2 hq.le
      _ = magnitude x := hk.symm
  · rw [neg_add_cancel] at hlt
    exact absurd h hlt.le.not_gt

theorem inv_magnitude_le_belowOnePat {x : Pat P} (h : 1 < magnitude x) :
    (magnitude x)⁻¹ ≤ magnitude (belowOnePat P) := by
  have hq := pow2_pos (-P.fracBits)
  have hq1 : pow2 (-P.fracBits) ≤ 1 := pow2_le_pow2 (b := 0) (by omega)
  have hle := one_add_le_magnitude h
  rw [magnitude_belowOnePat, inv_le_iff_one_le_mul₀ (by linarith)]
  nlinarith

theorem leastPat_le_inv_magnitude {x : Pat P} (h : FiniteNonzero x) : magnitude (leastPat P) ≤ (magnitude x)⁻¹ := by
  have hpos := magnitude_pos_of_finiteNonzero h
  have hexp : P.emin - P.fracBits ≤ -(P.emax + 1) := by cases P <;> decide
  have hinv : pow2 (-(P.emax + 1)) = (pow2 (P.emax + 1))⁻¹ := by rw [pow2_eq_zpow, pow2_eq_zpow, zpow_neg]
  rw [magnitude_leastPat]
  calc pow2 (P.emin - P.fracBits) ≤ pow2 (-(P.emax + 1)) := pow2_le_pow2 hexp
    _ = (pow2 (P.emax + 1))⁻¹ := hinv
    _ ≤ (magnitude x)⁻¹ := inv_anti₀ hpos (magnitude_bounds h).2.le

/-- The rounded reciprocal of a finite pattern above 1: finite, and strictly between 0 and 1 in magnitude. -/
theorem roundRNE_inv_magnitude (s : Bool) {x : Pat P} (hx : FiniteNonzero x) (h : 1 < magnitude x) :
    isFinite (roundRNE P s (magnitude x)⁻¹) = true ∧
    0 < magnitude (roundRNE P s (magnitude x)⁻¹) ∧ magnitude (roundRNE P s (magnitude x)⁻¹) < 1 := by
  have hpos : 0 < (magnitude x)⁻¹ := inv_pos.2 (magnitude_pos_of_finiteNonzero hx)
  have hov : (magnitude x)⁻¹ < overflowBound P := (inv_lt_one_of_one_lt₀ h).trans_le (one_le_overflowBound P)
  have hleast : 0 < magnitude (leastPat P) := magnitude_leastPat P ▸ pow2_pos _
  have hbelow : magnitude (belowOnePat P) < 1 := by
    rw [magnitude_belowOnePat]; linarith [pow2_pos (-P.fracBits)]
  exact ⟨(roundRNE_spec s hpos (overflowBound_eq P ▸ hov)).1,
    hleast.trans_le (le_magnitude_roundRNE s hpos hov (leastPat_le_inv_magnitude hx)),
    (magnitude_roundRNE_le s hpos hov (inv_magnitude_le_belowOnePat h)).trans_lt hbelow⟩

theorem finiteNonzero_of_one_lt_abs {x : Pat P} (hx : isFinite x = true) (h : 1 < |val x|) : FiniteNonzero x :=
  ⟨hx, Bool.not_eq_true _ ▸ fun hz => by
    rw [val_eq_zero_iff.2 hz, abs_zero] at h
    exact absurd h (by norm_num)⟩

/-- Settles O38: the rounded reciprocal of a finite operand, and the zero of an infinity. -/
theorem rrAtanReciprocalInside : Obligations.RrAtanReciprocalInside := by
  rintro P n l x rfl
  refine ⟨fun hx h => ?_, fun h => ?_⟩
  · have hnz := finiteNonzero_of_one_lt_abs hx h
    have hc := atanClass_of_one_lt_abs hx h
    have harg := (atanArg_of_class_one hc).trans (fdiv_onePat_of_finiteNonzero hnz)
    obtain ⟨hfin, hpos, hlt⟩ := roundRNE_inv_magnitude (sgn (opP P l.a)) hnz (abs_val _ ▸ h)
    refine ⟨_, gives_rrAtan hc harg, rfl, ?_⟩
    rw [opP_zext64, ← abs_pos, abs_val]
    exact ⟨hfin, hlt, hpos, sgn_roundRNE _ _⟩
  · have hc := atanClass_of_isInf h
    refine ⟨_, gives_rrAtan hc ((atanArg_of_class_one hc).trans (fdiv_onePat_of_isInf h)), rfl, ?_⟩
    rw [opP_zext64]
    exact ⟨isZero_zeroPat _, sgn_zeroPat _⟩

end Sys2Proof.Machine

/-! PROOF. O39, O40, O41, O42: PE.EVAL (spec/42_poly_evaluator.md R192-R199). The recursion of `horner` takes the same
steps as the loop of R193; a step at a zero argument gives its coefficient, and one at a NaN argument the quieted NaN. -/

namespace Sys2Proof.Machine

open Sys2Proof Sys2Proof.Claims

variable {P : Prec}

/-! ### The Horner loop and the ROM (R192, R193) -/

theorem hornerLoop_singleton (fma : Bool) (t c0 : Pat P) : hornerLoop fma t [c0] = c0 := rfl

/-- The lowest coefficient is the last the loop takes. -/
theorem hornerLoop_cons_cons (fma : Bool) (t c0 c1 : Pat P) (cs : List (Pat P)) :
    hornerLoop fma t (c0 :: c1 :: cs) = hornerStep fma (hornerLoop fma t (c1 :: cs)) t c0 := by
  cases h : (c1 :: cs).reverse with
  | nil => simp at h
  | cons top lower => simp [hornerLoop, List.reverse_cons (a := c0), h, hornerStep]

theorem hornerLoop_eq_horner (fma : Bool) (t : Pat P) (c0 : Pat P) (cs : List (Pat P)) :
    hornerLoop fma t (c0 :: cs) = horner fma t c0 cs := by
  induction cs generalizing c0 with
  | nil => exact hornerLoop_singleton fma t c0
  | cons c1 cs ih => rw [hornerLoop_cons_cons, ih, horner]

theorem isFinite_of_isZero {x : Pat P} (h : isZero x = true) : isFinite x = true := by simp [isFinite, h]

theorem isFinite_finiteCoeff (x : Pat P) : isFinite (finiteCoeff x) = true := by
  unfold finiteCoeff
  split
  · assumption
  · exact isFinite_of_isZero (isZero_zeroPat false)

theorem isFinite_of_mem_map_finiteCoeff {a : Pat P} {cs : List (Pat P)} (h : a ∈ cs.map finiteCoeff) :
    isFinite a = true := by
  obtain ⟨b, -, rfl⟩ := List.mem_map.1 h
  exact isFinite_finiteCoeff b

/-- Every coefficient of the ROM is finite (R192). -/
theorem isFinite_romTable (c : Cfg) (t : TableId) (P : Prec) {a : Pat P}
    (h : a = (romTable c t P).c0 ∨ a ∈ (romTable c t P).cs ∨ a = (romTable c t P).q0 ∨ a ∈ (romTable c t P).qs) :
    isFinite a = true := by
  rcases h with rfl | h | rfl | h
  · exact isFinite_finiteCoeff _
  · exact isFinite_of_mem_map_finiteCoeff h
  · exact isFinite_finiteCoeff _
  · exact isFinite_of_mem_map_finiteCoeff h

/-! ### The value of a table by its form (R195) -/

section
variable {T : Table P} {fma : Bool} {x : Pat P}

theorem evalTable_of_plain (h : T.form = .plain) : evalTable fma T x = horner fma x T.c0 T.cs := by
  simp only [evalTable, h]

theorem evalTable_of_even (h : T.form = .even) : evalTable fma T x = horner fma (fmul x x) T.c0 T.cs := by
  simp only [evalTable, h]

theorem evalTable_of_odd (h : T.form = .odd) : evalTable fma T x = fmul x (horner fma (fmul x x) T.c0 T.cs) := by
  simp only [evalTable, h]

theorem evalTable_of_rational (h : T.form = .rational) :
    evalTable fma T x = fdiv (horner fma x T.c0 T.cs) (horner fma x T.q0 T.qs) := by
  simp only [evalTable, h]

end

/-- PE.EVAL gives a lane the value of the ROM's table. -/
theorem givesFloat_peEval {n : LaneCount} {t : TableId} {l : LaneIn} {r : Pat P}
    (h : evalTable Config.peFma (romTable Config.cfg t P) (opP P l.a) = r) : GivesFloat (.peEval P n t) l r :=
  givesFloat_iff.2 (congrArg LaneOut.float h)

/-- Settles O39: the ROM's forms and coefficients (R192), and the loop of each form. -/
theorem peEvalHorner : Obligations.PeEvalHorner := by
  refine ⟨fun c P => ⟨rfl, rfl, fun t _ h => isFinite_romTable c t P h⟩, ?_⟩
  rintro P n t l _ T rfl rfl
  refine givesFloat_peEval ?_
  simp only [hornerLoop_eq_horner]
  cases h : (romTable Config.cfg t P).form with
  | plain => exact evalTable_of_plain h
  | even => exact evalTable_of_even h
  | odd => exact evalTable_of_odd h
  | rational => exact evalTable_of_rational h

/-! ### The sign of a product (R20), and the parity of a table (R197) -/

theorem neg_pack (s : Bool) (E F : ℕ) : neg (pack P s E F) = pack P (!s) E F := pat_ext (by simp) (by simp) (by simp)

theorem neg_assemble (s : Bool) (S : ℕ) (qt : ℤ) : neg (assemble P s S qt) = assemble P (!s) S qt := by
  simp only [assemble, infPat, apply_ite neg, neg_pack]

theorem neg_roundRNE (s : Bool) (v : ℚ) : neg (roundRNE P s v) = roundRNE P (!s) v := by
  simp only [roundRNE, zeroPat, infPat, apply_ite neg, neg_pack, neg_assemble]

theorem fmul_of_isNaN_fst {x : Pat P} (b : Pat P) (hx : isNaN x = true) : fmul x b = quiet x := by
  obtain ⟨-, -, h, -⟩ := operations_of_isNaN_fst b b hx
  exact h

theorem fmul_of_isNaN_snd {a x : Pat P} (ha : isNaN a = false) (hx : isNaN x = true) : fmul a x = quiet x := by
  obtain ⟨-, -, h, -⟩ := operations_of_isNaN_snd a ha hx
  exact h

/-- A zero times an infinity is the canonical NaN (clause 2 of R20). -/
theorem fmul_of_invalid {a b : Pat P} (ha : isNaN a = false) (hb : isNaN b = false)
    (h : ((isZero a && isInf b) || (isInf a && isZero b)) = true) : fmul a b = cNaN P := by
  rw [fmul, if_neg (Bool.eq_false_iff.1 ha), if_neg (Bool.eq_false_iff.1 hb), if_pos h]

/-- A product that is no NaN has no NaN factor and is no zero times an infinity. -/
theorem isNaN_fmul_eq_false {a b : Pat P} (h : isNaN (fmul a b) = false) :
    isNaN a = false ∧ isNaN b = false ∧ ((isZero a && isInf b) || (isInf a && isZero b)) = false := by
  have ha : isNaN a = false := Bool.eq_false_iff.2 fun ha => by
    rw [fmul_of_isNaN_fst b ha, isNaN_quiet a ha] at h; cases h
  have hb : isNaN b = false := Bool.eq_false_iff.2 fun hb => by
    rw [fmul_of_isNaN_snd ha hb, isNaN_quiet b hb] at h; cases h
  refine ⟨ha, hb, Bool.eq_false_iff.2 fun hinv => ?_⟩
  rw [fmul_of_invalid ha hb hinv, isNaN_cNaN] at h
  cases h

/-- A product that is no NaN is negated with its first factor. -/
theorem fmul_neg_fst {a b : Pat P} (h : isNaN (fmul a b) = false) : fmul (neg a) b = neg (fmul a b) := by
  obtain ⟨ha, hb, hinv⟩ := isNaN_fmul_eq_false h
  simp [fmul, ha, hb, hinv, apply_ite neg, zeroPat, infPat, neg_pack, neg_roundRNE]

theorem fmul_neg_neg {a b : Pat P} (ha : isNaN a = false) (hb : isNaN b = false) : fmul (neg a) (neg b) = fmul a b := by
  simp [fmul, ha, hb]

/-- Settles O40: the square of the argument does not see its sign, and the last product of an ODD table does. -/
theorem tableParity : Obligations.TableParity := by
  intro P fma T x hx
  have hsq : fmul (neg x) (neg x) = fmul x x := fmul_neg_neg hx hx
  refine ⟨fun h => ?_, fun h hv => ?_⟩
  · rw [evalTable_of_even h, evalTable_of_even h, hsq]
  · rw [evalTable_of_odd h] at hv ⊢
    rw [evalTable_of_odd h, hsq, fmul_neg_fst hv]

/-! ### A zero argument (R198) -/

theorem sgn_eq_decide_val_lt_zero {x : Pat P} (hx : FiniteNonzero x) : sgn x = decide (val x < 0) := by
  have hpos := magnitude_pos_of_finiteNonzero hx
  cases hs : sgn x <;> simp [val, hs, hpos, hpos.le]

theorem val_ne_zero_of_finiteNonzero {x : Pat P} (hx : FiniteNonzero x) : val x ≠ 0 := fun h =>
  Bool.eq_false_iff.1 hx.2 (val_eq_zero_iff.1 h)

theorem roundVal_val {x : Pat P} (hx : FiniteNonzero x) : roundVal P (val x) = x := by
  rw [roundVal, ← sgn_eq_decide_val_lt_zero hx, abs_val, roundRNE_magnitude hx]

/-- A product of finite patterns with a zero factor. -/
theorem fmul_of_isZero {a b : Pat P} (ha : isFinite a = true) (hb : isFinite b = true)
    (h : isZero a = true ∨ isZero b = true) : fmul a b = zeroPat P (sgn a != sgn b) := by
  obtain ⟨hanan, hainf⟩ := isNaN_isInf_of_isFinite ha
  obtain ⟨hbnan, hbinf⟩ := isNaN_isInf_of_isFinite hb
  simp [fmul, h, hanan, hainf, hbnan, hbinf]

theorem fadd_of_isZero_fst {a c : Pat P} (ha : isZero a = true) (hc : FiniteNonzero c) : fadd a c = c := by
  obtain ⟨hanan, hainf⟩ := isNaN_isInf_of_isFinite (isFinite_of_isZero ha)
  obtain ⟨hcnan, hcinf⟩ := isNaN_isInf_of_isFinite hc.1
  have hval : val c ≠ 0 := val_ne_zero_of_finiteNonzero hc
  simp [fadd, hanan, hainf, hcnan, hcinf, val_eq_zero_iff.2 ha, hval, roundVal_val hc]

theorem isZero_fadd {a c : Pat P} (ha : isZero a = true) (hc : isZero c = true) : isZero (fadd a c) = true := by
  obtain ⟨hanan, hainf⟩ := isNaN_isInf_of_isFinite (isFinite_of_isZero ha)
  obtain ⟨hcnan, hcinf⟩ := isNaN_isInf_of_isFinite (isFinite_of_isZero hc)
  simp [fadd, hanan, hainf, hcnan, hcinf, val_eq_zero_iff.2 ha, val_eq_zero_iff.2 hc]

/-- A product with a zero is exact, so fusing it makes no difference. -/
theorem ffma_of_isZero_snd {a t c : Pat P} (ha : isFinite a = true) (ht : isZero t = true) (hc : isFinite c = true) :
    ffma a t c = fadd (fmul a t) c := by
  have htfin := isFinite_of_isZero ht
  obtain ⟨hanan, hainf⟩ := isNaN_isInf_of_isFinite ha
  obtain ⟨htnan, htinf⟩ := isNaN_isInf_of_isFinite htfin
  obtain ⟨hcnan, hcinf⟩ := isNaN_isInf_of_isFinite hc
  have hp0 : isZero (zeroPat P (sgn a != sgn t)) = true := isZero_zeroPat _
  obtain ⟨-, hpinf⟩ := isNaN_isInf_of_isFinite (isFinite_of_isZero hp0)
  rw [fmul_of_isZero ha htfin (.inr ht)]
  simp [ffma, fadd, hanan, hainf, htnan, htinf, hcnan, hcinf, hpinf, ht, val_eq_zero_iff.2 ht, val_eq_zero_iff.2 hp0,
    Bool.and_comm]

theorem hornerStep_eq_fadd_of_isZero (fma : Bool) {acc t c : Pat P} (ha : isFinite acc = true) (ht : isZero t = true)
    (hc : isFinite c = true) : hornerStep fma acc t c = fadd (zeroPat P (sgn acc != sgn t)) c := by
  rw [← fmul_of_isZero ha (isFinite_of_isZero ht) (.inr ht)]
  cases fma with
  | true => exact ffma_of_isZero_snd ha ht hc
  | false => rfl

/-- A step at a zero argument gives its coefficient, where that is no zero. -/
theorem hornerStep_of_isZero (fma : Bool) {acc t c : Pat P} (ha : isFinite acc = true) (ht : isZero t = true)
    (hc : FiniteNonzero c) : hornerStep fma acc t c = c :=
  (hornerStep_eq_fadd_of_isZero fma ha ht hc.1).trans (fadd_of_isZero_fst (isZero_zeroPat _) hc)

theorem isZero_hornerStep (fma : Bool) {acc t c : Pat P} (ha : isFinite acc = true) (ht : isZero t = true)
    (hc : isZero c = true) : isZero (hornerStep fma acc t c) = true := by
  rw [hornerStep_eq_fadd_of_isZero fma ha ht (isFinite_of_isZero hc)]
  exact isZero_fadd (isZero_zeroPat _) hc

theorem isFinite_horner_of_isZero (fma : Bool) {t : Pat P} (ht : isZero t = true) {c0 : Pat P} {cs : List (Pat P)}
    (h0 : isFinite c0 = true) (hcs : ∀ a ∈ cs, isFinite a = true) : isFinite (horner fma t c0 cs) = true := by
  induction cs generalizing c0 with
  | nil => exact h0
  | cons c1 cs ih =>
    obtain ⟨h1, hcs⟩ := List.forall_mem_cons.1 hcs
    have hacc := ih h1 hcs
    cases hz : isZero c0 with
    | true => exact isFinite_of_isZero (isZero_hornerStep fma hacc ht hz)
    | false => rwa [horner, hornerStep_of_isZero fma hacc ht ⟨h0, hz⟩]

/-- At a zero argument Horner gives the lowest coefficient, where that is no zero. -/
theorem horner_of_isZero (fma : Bool) {t : Pat P} (ht : isZero t = true) {c0 : Pat P} {cs : List (Pat P)}
    (h0 : FiniteNonzero c0) (hcs : ∀ a ∈ cs, isFinite a = true) : horner fma t c0 cs = c0 := by
  cases cs with
  | nil => rfl
  | cons c1 cs =>
    obtain ⟨h1, hcs⟩ := List.forall_mem_cons.1 hcs
    exact hornerStep_of_isZero fma (isFinite_horner_of_isZero fma ht h1 hcs) ht h0

/-- Settles O41: the Horner value is c_0, and an ODD table multiplies it, positive, into the zero. -/
theorem tableAtZero : Obligations.TableAtZero := by
  intro P fma T z hz h0 hcs
  have hzfin := isFinite_of_isZero hz
  have hsq : isZero (fmul z z) = true := by
    rw [fmul_of_isZero hzfin hzfin (.inl hz)]; exact isZero_zeroPat _
  refine ⟨fun h hc => ?_, fun h hpos => ?_, fun h hc => ?_⟩
  · rw [evalTable_of_even h, horner_of_isZero fma hsq ⟨h0, hc⟩ hcs]
  · have hc : isZero T.c0 = false := Bool.not_eq_true _ ▸ fun hc => hpos.ne' (val_eq_zero_iff.2 hc)
    have hsgn : sgn T.c0 = false := by simp [sgn_eq_decide_val_lt_zero ⟨h0, hc⟩, hpos.le]
    rw [evalTable_of_odd h, horner_of_isZero fma hsq ⟨h0, hc⟩ hcs, fmul_of_isZero hzfin h0 (.inl hz), hsgn,
      Bool.bne_false, ← eq_zeroPat hz]
  · rw [evalTable_of_plain h, horner_of_isZero fma hz ⟨h0, hc⟩ hcs]

/-! ### A NaN argument (R199) -/

/-- A step at a NaN argument whose accumulator is no NaN, or is the argument's own quieted. -/
theorem hornerStep_of_isNaN (fma : Bool) {acc t : Pat P} (c : Pat P) (ht : isNaN t = true)
    (hacc : isNaN acc = false ∨ acc = quiet t) : hornerStep fma acc t c = quiet t := by
  have hq := isNaN_quiet t ht
  have hops : fmul acc t = quiet t ∧ ffma acc t c = quiet t := by
    rcases hacc with hacc | rfl
    · obtain ⟨-, -, hmul, -, hfma⟩ := operations_of_isNaN_snd c hacc ht
      exact ⟨hmul, hfma⟩
    · obtain ⟨-, -, hmul, -, hfma⟩ := operations_of_isNaN_fst t c hq
      exact ⟨hmul.trans (quiet_quiet t), hfma.trans (quiet_quiet t)⟩
  obtain ⟨hmul, hfma⟩ := hops
  obtain ⟨hadd, -⟩ := operations_of_isNaN_fst c c hq
  cases fma with
  | true => exact hfma
  | false => exact (congrArg (fadd · c) hmul).trans (hadd.trans (quiet_quiet t))

/-- At a NaN argument Horner of a positive degree gives the quieted argument. -/
theorem horner_of_isNaN (fma : Bool) {t : Pat P} (ht : isNaN t = true) (c0 : Pat P) {cs : List (Pat P)} (hne : cs ≠ [])
    (hcs : ∀ a ∈ cs, isFinite a = true) : horner fma t c0 cs = quiet t := by
  induction cs generalizing c0 with
  | nil => exact absurd rfl hne
  | cons c1 cs ih =>
    obtain ⟨h1, hcs⟩ := List.forall_mem_cons.1 hcs
    refine hornerStep_of_isNaN fma c0 ht ?_
    cases cs with
    | nil => exact .inl (isNaN_isInf_of_isFinite h1).1
    | cons c2 cs => exact .inr (ih c1 (List.cons_ne_nil c2 cs) hcs)

/-- A quotient whose dividend is the quieted NaN, or whose divisor is and whose dividend is no NaN. -/
theorem fdiv_of_quiet {x a b : Pat P} (hx : isNaN x = true) (h : a = quiet x ∨ isNaN a = false ∧ b = quiet x) :
    fdiv a b = quiet x := by
  have hq := isNaN_quiet x hx
  rcases h with rfl | ⟨ha, rfl⟩
  · obtain ⟨-, -, -, hdiv, -⟩ := operations_of_isNaN_fst b b hq
    exact hdiv.trans (quiet_quiet x)
  · obtain ⟨-, -, -, hdiv, -⟩ := operations_of_isNaN_snd a ha hq
    exact hdiv.trans (quiet_quiet x)

/-- Settles O42: by form; the square of a NaN is its quieting, and so is the Horner value of a positive degree. -/
theorem tableAtNaN : Obligations.TableAtNaN := by
  intro P fma T x hx h0 hcs _ hqs
  have hsq : fmul x x = quiet x := fmul_of_isNaN_fst x hx
  refine ⟨fun h => ?_, fun h hne => ?_, fun h hnil => ?_, fun h hne => ?_, fun h hcs0 hqs0 => ?_⟩
  · rw [evalTable_of_odd h, fmul_of_isNaN_fst _ hx]
  · rcases h with h | h
    · rw [evalTable_of_plain h, horner_of_isNaN fma hx _ hne hcs]
    · rw [evalTable_of_even h, hsq, horner_of_isNaN fma (isNaN_quiet x hx) _ hne hcs, quiet_quiet]
  · rcases h with h | h
    · rw [evalTable_of_plain h, hnil, horner]
    · rw [evalTable_of_even h, hnil, horner]
  · rw [evalTable_of_rational h]
    refine fdiv_of_quiet hx ?_
    by_cases hd : T.cs = []
    · rw [hd, horner]
      exact .inr ⟨(isNaN_isInf_of_isFinite h0).1, horner_of_isNaN fma hx _ (hne.resolve_left (· hd)) hqs⟩
    · exact .inl (horner_of_isNaN fma hx _ hd hcs)
  · rw [evalTable_of_rational h, hcs0, hqs0, horner, horner]

end Sys2Proof.Machine

/-! PROOF. O43, O44, O45, O46: special values (spec/43_special_values.md). The table SV decides by the class and the sign
of its operands, so it has one entry per class, and SV.RESOLVE delivers that entry (R222). A function command takes a hit
of the same table as its result (R220, R221), so a NaN operand, which every function hits, comes back quieted (R236). -/

namespace Sys2Proof.Machine

open Sys2Proof Sys2Proof.Claims

variable {P : Prec}

/-! ### Classes and the sign tests of the tables (R228, R230) -/

theorem isZero_of_isInf {x : Pat P} (h : isInf x = true) : isZero x = false := by
  obtain ⟨hexp, -⟩ := (isInf_iff x).1 h
  have hpos := expMax_pos P
  simp only [isZero, Bool.and_eq_false_iff, beq_eq_false_iff_ne]
  omega

theorem isNaN_isInf_of_isZero {x : Pat P} (h : isZero x = true) : isNaN x = false ∧ isInf x = false :=
  isNaN_isInf_of_isFinite (isFinite_of_isZero h)

theorem finiteNonzero_of_val_ne_zero {x : Pat P} (hx : isFinite x = true) (h : val x ≠ 0) : FiniteNonzero x :=
  ⟨hx, Bool.eq_false_iff.2 fun hz => h (val_eq_zero_iff.2 hz)⟩

theorem gtZero_iff {x : Pat P} : gtZero x = true ↔ sgn x = false ∧ isZero x = false := by simp [gtZero]

theorem ltZero_iff {x : Pat P} : ltZero x = true ↔ sgn x = true ∧ isZero x = false := by simp [ltZero]

theorem gtZero_of_isZero {x : Pat P} (h : isZero x = true) : gtZero x = false := by simp [gtZero, h]

theorem ltZero_of_isZero {x : Pat P} (h : isZero x = true) : ltZero x = false := by simp [ltZero, h]

theorem ltZero_of_gtZero {x : Pat P} (h : gtZero x = true) : ltZero x = false := by
  simp [ltZero, (gtZero_iff.1 h).1]

theorem gtZero_of_ltZero {x : Pat P} (h : ltZero x = true) : gtZero x = false := by
  simp [gtZero, (ltZero_iff.1 h).1]

/-- The test on sign and class finds every value greater than 0. -/
theorem isNaN_gtZero_of_positive {x : Pat P} (h : Positive x) : isNaN x = false ∧ gtZero x = true := by
  rcases h with ⟨hinf, hs⟩ | ⟨hfin, hpos⟩
  · exact ⟨isNaN_of_isInf hinf, gtZero_iff.2 ⟨hs, isZero_of_isInf hinf⟩⟩
  · have hnz := finiteNonzero_of_val_ne_zero hfin hpos.ne'
    have hs : sgn x = false := by rw [sgn_eq_decide_val_lt_zero hnz]; exact decide_eq_false hpos.not_gt
    exact ⟨(isNaN_isInf_of_isFinite hfin).1, gtZero_iff.2 ⟨hs, hnz.2⟩⟩

/-- The test on sign and class finds every value less than 0. -/
theorem isNaN_ltZero_of_negative {x : Pat P} (h : Negative x) : isNaN x = false ∧ ltZero x = true := by
  rcases h with ⟨hinf, hs⟩ | ⟨hfin, hneg⟩
  · exact ⟨isNaN_of_isInf hinf, ltZero_iff.2 ⟨hs, isZero_of_isInf hinf⟩⟩
  · have hnz := finiteNonzero_of_val_ne_zero hfin hneg.ne
    have hs : sgn x = true := by rw [sgn_eq_decide_val_lt_zero hnz]; exact decide_eq_true hneg
    exact ⟨(isNaN_isInf_of_isFinite hfin).1, ltZero_iff.2 ⟨hs, hnz.2⟩⟩

theorem absGtOne_of_isInf {x : Pat P} (h : isInf x = true) : absGtOne x = true := by simp [absGtOne, h]

theorem absGtOne_of_one_lt {x : Pat P} (h : 1 < |val x|) : absGtOne x = true := by simp [absGtOne, h]

theorem absGtOne_of_abs_le_one {x : Pat P} (hx : isFinite x = true) (h : |val x| ≤ 1) : absGtOne x = false := by
  simp [absGtOne, (isNaN_isInf_of_isFinite hx).2, h]

theorem absGtOne_of_isZero {x : Pat P} (h : isZero x = true) : absGtOne x = false :=
  absGtOne_of_abs_le_one (isFinite_of_isZero h) (by rw [val_eq_zero_iff.2 h, abs_zero]; exact zero_le_one)

/-- Only one pattern has the value 1. -/
theorem eq_onePat_of_val_eq_one {x : Pat P} (hx : isFinite x = true) (h : val x = 1) : x = onePat P := by
  have hone : isFinite (onePat P) = true := by cases P <;> decide
  have hval : val (onePat P) ≠ 0 := by rw [val_onePat]; exact one_ne_zero
  calc x = roundVal P (val x) := (roundVal_val (finiteNonzero_of_val_ne_zero hx (h ▸ one_ne_zero))).symm
    _ = roundVal P (val (onePat P)) := by rw [h, val_onePat]
    _ = onePat P := roundVal_val (finiteNonzero_of_val_ne_zero hone hval)

/-! ### The tables of one operand, entry by entry (R224-R234) -/

/-- The first entry of every table (R224). -/
theorem sv_of_isNaN_fst (c : Cfg) (f : FnId) {a : Pat P} (b : Pat P) (h : isNaN a = true) :
    sv c f a b = some (quiet a) := by
  cases f <;> exact if_pos h

section
variable {x : Pat P}

theorem svOddTrig_of_isInf (h : isInf x = true) : svOddTrig x = some (cNaN P) := by
  simp [svOddTrig, isNaN_of_isInf h, h]

theorem svOddTrig_of_isZero (h : isZero x = true) : svOddTrig x = some x := by
  simp [svOddTrig, isNaN_isInf_of_isZero h, h]

theorem svOddTrig_of_finiteNonzero (h : FiniteNonzero x) : svOddTrig x = none := by
  simp [svOddTrig, isNaN_isInf_of_isFinite h.1, h.2]

theorem svCos_of_isInf (h : isInf x = true) : svCos x = some (cNaN P) := by
  simp [svCos, isNaN_of_isInf h, h]

theorem svCos_of_isZero (h : isZero x = true) : svCos x = some (onePat P) := by
  simp [svCos, isNaN_isInf_of_isZero h, h]

theorem svCos_of_finiteNonzero (h : FiniteNonzero x) : svCos x = none := by
  simp [svCos, isNaN_isInf_of_isFinite h.1, h.2]

theorem svAsin_of_absGtOne (hn : isNaN x = false) (h : absGtOne x = true) : svAsin x = some (cNaN P) := by
  simp [svAsin, hn, h]

theorem svAsin_of_isZero (h : isZero x = true) : svAsin x = some x := by
  simp [svAsin, isNaN_isInf_of_isZero h, absGtOne_of_isZero h, h]

theorem svAsin_of_abs_le_one (hx : FiniteNonzero x) (h : |val x| ≤ 1) : svAsin x = none := by
  simp [svAsin, isNaN_isInf_of_isFinite hx.1, absGtOne_of_abs_le_one hx.1 h, hx.2]

theorem svAcos_of_absGtOne (hn : isNaN x = false) (h : absGtOne x = true) : svAcos x = some (cNaN P) := by
  simp [svAcos, hn, h]

theorem svAcos_of_abs_le_one (hx : isFinite x = true) (h : |val x| ≤ 1) : svAcos x = none := by
  simp [svAcos, isNaN_isInf_of_isFinite hx, absGtOne_of_abs_le_one hx h]

theorem svAcos_of_isZero (h : isZero x = true) : svAcos x = none := by
  simp [svAcos, isNaN_isInf_of_isZero h, absGtOne_of_isZero h]

theorem svAtan_of_isInf (h : isInf x = true) :
    svAtan x = some (if sgn x then neg (kPiHalf P) else kPiHalf P) := by
  simp [svAtan, isNaN_of_isInf h, h]

theorem svAtan_of_isZero (h : isZero x = true) : svAtan x = some x := by
  simp [svAtan, isNaN_isInf_of_isZero h, h]

theorem svAtan_of_finiteNonzero (h : FiniteNonzero x) : svAtan x = none := by
  simp [svAtan, isNaN_isInf_of_isFinite h.1, h.2]

theorem svExp_of_isInf (h : isInf x = true) :
    svExp x = some (if sgn x then zeroPat P false else infPat P false) := by
  simp [svExp, isNaN_of_isInf h, isZero_of_isInf h, h]

theorem svExp_of_isZero (h : isZero x = true) : svExp x = some (onePat P) := by
  simp [svExp, isNaN_isInf_of_isZero h, h]

theorem svExp_of_finiteNonzero (h : FiniteNonzero x) : svExp x = none := by
  simp [svExp, isNaN_isInf_of_isFinite h.1, h.2]

theorem svLog_of_negative (h : Negative x) : svLog x = some (cNaN P) := by
  simp [svLog, isNaN_ltZero_of_negative h]

theorem svLog_of_isZero (h : isZero x = true) : svLog x = some (infPat P true) := by
  simp [svLog, isNaN_isInf_of_isZero h, ltZero_of_isZero h, h]

/-- Past the NaN, the negative and the zero entry, the table looks for +inf and for 1. -/
theorem svLog_of_positive (h : Positive x) :
    svLog x = if isInf x then some (infPat P false) else if x = onePat P then some (zeroPat P false) else none := by
  obtain ⟨hnan, hgt⟩ := isNaN_gtZero_of_positive h
  simp [svLog, hnan, ltZero_of_gtZero hgt, (gtZero_iff.1 hgt).2]

theorem svLog_of_posInf (h : isInf x = true) (hs : sgn x = false) : svLog x = some (infPat P false) := by
  rw [svLog_of_positive (.inl ⟨h, hs⟩), if_pos h]

theorem svLog_of_val_eq_one (hx : isFinite x = true) (h : val x = 1) : svLog x = some (zeroPat P false) := by
  rw [svLog_of_positive (.inr ⟨hx, h ▸ one_pos⟩), (isNaN_isInf_of_isFinite hx).2, if_neg Bool.false_ne_true,
    if_pos (eq_onePat_of_val_eq_one hx h)]

theorem svLog_of_val_ne_one (hx : isFinite x = true) (hpos : 0 < val x) (h : val x ≠ 1) : svLog x = none := by
  have hne : x ≠ onePat P := fun he => h (he ▸ val_onePat P)
  rw [svLog_of_positive (.inr ⟨hx, hpos⟩), (isNaN_isInf_of_isFinite hx).2, if_neg Bool.false_ne_true, if_neg hne]

end

/-! ### The table of ATAN2, entry by entry (R230) -/

section
variable {c : Cfg} {y x : Pat P}

theorem svAtan2_of_isNaN_snd (hy : isNaN y = false) (hx : isNaN x = true) : svAtan2 c y x = some (quiet x) := by
  simp [svAtan2, hy, hx]

theorem svAtan2_of_isInf_isInf (hy : isInf y = true) (hx : isInf x = true) : svAtan2 c y x = some (cNaN P) := by
  simp [svAtan2, isNaN_of_isInf hy, isNaN_of_isInf hx, hy, hx]

theorem svAtan2_of_positive_fst (hx : isZero x = true) (hy : Positive y) : svAtan2 c y x = some (kPiHalf P) := by
  obtain ⟨hnan, hgt⟩ := isNaN_gtZero_of_positive hy
  simp [svAtan2, hnan, isNaN_isInf_of_isZero hx, hx, hgt]

theorem svAtan2_of_negative_fst (hx : isZero x = true) (hy : Negative y) :
    svAtan2 c y x = some (neg (kPiHalf P)) := by
  obtain ⟨hnan, hlt⟩ := isNaN_ltZero_of_negative hy
  simp [svAtan2, hnan, isNaN_isInf_of_isZero hx, hx, hlt, gtZero_of_ltZero hlt]

theorem svAtan2_of_isZero_isZero (hx : isZero x = true) (hy : isZero y = true) :
    svAtan2 c y x = some (zeroPat P (c.atan2ZZSign (sgn y) (sgn x))) := by
  simp [svAtan2, isNaN_isInf_of_isZero hx, isNaN_isInf_of_isZero hy, hx, hy, gtZero_of_isZero hy, ltZero_of_isZero hy]

theorem svAtan2_of_positive_snd (hy : isZero y = true) (hx : Positive x) : svAtan2 c y x = some y := by
  obtain ⟨hnan, hgt⟩ := isNaN_gtZero_of_positive hx
  obtain ⟨-, hxz⟩ := gtZero_iff.1 hgt
  simp [svAtan2, isNaN_isInf_of_isZero hy, hnan, hxz, hy, hgt]

theorem svAtan2_of_negative_snd (hy : isZero y = true) (hx : Negative x) : svAtan2 c y x = some (kPi P) := by
  obtain ⟨hnan, hlt⟩ := isNaN_ltZero_of_negative hx
  obtain ⟨-, hxz⟩ := ltZero_iff.1 hlt
  simp [svAtan2, isNaN_isInf_of_isZero hy, hnan, hxz, hy, hlt, gtZero_of_ltZero hlt]

theorem svAtan2_of_isInf_finiteNonzero (hy : isInf y = true) (hx : FiniteNonzero x) :
    svAtan2 c y x = some (if sgn y then neg (kPiHalf P) else kPiHalf P) := by
  simp [svAtan2, isNaN_of_isInf hy, isZero_of_isInf hy, hy, isNaN_isInf_of_isFinite hx.1, hx.2]

theorem svAtan2_of_finiteNonzero_posInf (hy : FiniteNonzero y) (hx : isInf x = true) (hs : sgn x = false) :
    svAtan2 c y x = some (zeroPat P (sgn y)) := by
  simp [svAtan2, isNaN_isInf_of_isFinite hy.1, hy.2, isNaN_of_isInf hx, isZero_of_isInf hx, hx, hs]

theorem svAtan2_of_finiteNonzero_negInf (hy : FiniteNonzero y) (hx : isInf x = true) (hs : sgn x = true) :
    svAtan2 c y x = some (if sgn y then neg (kPi P) else kPi P) := by
  simp [svAtan2, isNaN_isInf_of_isFinite hy.1, hy.2, isNaN_of_isInf hx, isZero_of_isInf hx, hx, hs]

theorem svAtan2_of_finiteNonzero_finiteNonzero (hy : FiniteNonzero y) (hx : FiniteNonzero x) :
    svAtan2 c y x = none := by
  simp [svAtan2, isNaN_isInf_of_isFinite hy.1, hy.2, isNaN_isInf_of_isFinite hx.1, hx.2]

end

/-! ### SV.RESOLVE (R222) -/

theorem hits_of_sv {f : FnId} {a b v : Pat P} (h : sv Config.cfg f a b = some v) : Hits f a b v := by
  rintro n l rfl rfl
  exact gives_iff.2 (by simp only [laneOf, laneSvResolve, h])

theorem misses_of_sv {f : FnId} {a b : Pat P} (h : sv Config.cfg f a b = none) : Misses f a b := by
  rintro n l rfl rfl
  exact gives_iff.2 (by simp only [laneOf, laneSvResolve, h])

/-- Settles O43: the entry of the operand's class, function by function. -/
theorem svOneOperandTables : Obligations.SvOneOperandTables := by
  intro P x b
  refine ⟨fun h f _ => hits_of_sv (sv_of_isNaN_fst _ f b h), fun h => ?inf, fun h => ?zero, fun h => ?finite,
    fun h => ?negative, fun h hs => ?posInf, fun h h1 => ?one, fun h hpos h1 => ?positive⟩
  case inf =>
    have hnan := isNaN_of_isInf h
    have habs := absGtOne_of_isInf h
    have htrig := svOddTrig_of_isInf h
    have hexp := svExp_of_isInf h
    exact ⟨hits_of_sv htrig, hits_of_sv (svCos_of_isInf h), hits_of_sv htrig,
      hits_of_sv (svAsin_of_absGtOne hnan habs), hits_of_sv (svAcos_of_absGtOne hnan habs),
      hits_of_sv (svAtan_of_isInf h), hits_of_sv hexp, hits_of_sv hexp, hits_of_sv hexp⟩
  case zero =>
    have htrig := svOddTrig_of_isZero h
    have hexp := svExp_of_isZero h
    have hlog := svLog_of_isZero h
    exact ⟨hits_of_sv htrig, hits_of_sv (svCos_of_isZero h), hits_of_sv htrig, hits_of_sv (svAsin_of_isZero h),
      misses_of_sv (svAcos_of_isZero h), hits_of_sv (svAtan_of_isZero h), hits_of_sv hexp, hits_of_sv hexp,
      hits_of_sv hexp, hits_of_sv hlog, hits_of_sv hlog, hits_of_sv hlog⟩
  case finite =>
    have hnan := (isNaN_isInf_of_isFinite h.1).1
    have htrig := svOddTrig_of_finiteNonzero h
    have hexp := svExp_of_finiteNonzero h
    refine ⟨misses_of_sv htrig, misses_of_sv (svCos_of_finiteNonzero h), misses_of_sv htrig,
      misses_of_sv (svAtan_of_finiteNonzero h), misses_of_sv hexp, misses_of_sv hexp, misses_of_sv hexp,
      fun h1 => ?_, fun h1 => ?_⟩
    · have habs := absGtOne_of_one_lt h1
      exact ⟨hits_of_sv (svAsin_of_absGtOne hnan habs), hits_of_sv (svAcos_of_absGtOne hnan habs)⟩
    · exact ⟨misses_of_sv (svAsin_of_abs_le_one h h1), misses_of_sv (svAcos_of_abs_le_one h.1 h1)⟩
  case negative =>
    have hlog := svLog_of_negative h
    exact ⟨hits_of_sv hlog, hits_of_sv hlog, hits_of_sv hlog⟩
  case posInf =>
    have hlog := svLog_of_posInf h hs
    exact ⟨hits_of_sv hlog, hits_of_sv hlog, hits_of_sv hlog⟩
  case one =>
    have hlog := svLog_of_val_eq_one h h1
    exact ⟨hits_of_sv hlog, hits_of_sv hlog, hits_of_sv hlog⟩
  case positive =>
    have hlog := svLog_of_val_ne_one h hpos h1
    exact ⟨misses_of_sv hlog, misses_of_sv hlog, misses_of_sv hlog⟩

/-- Settles O44: entry by entry, in the order of R230. -/
theorem svAtan2Table : Obligations.SvAtan2Table := fun _ _ x =>
  ⟨fun hy => hits_of_sv (sv_of_isNaN_fst _ .atan2 x hy),
    fun hy hx => hits_of_sv (svAtan2_of_isNaN_snd hy hx), fun hy hx => hits_of_sv (svAtan2_of_isInf_isInf hy hx),
    fun hx hy => hits_of_sv (svAtan2_of_positive_fst hx hy),
    fun hx hy => hits_of_sv (svAtan2_of_negative_fst hx hy),
    fun hx hy => hits_of_sv (svAtan2_of_isZero_isZero hx hy),
    fun hy hx => hits_of_sv (svAtan2_of_positive_snd hy hx),
    fun hy hx => hits_of_sv (svAtan2_of_negative_snd hy hx),
    fun hy hx => hits_of_sv (svAtan2_of_isInf_finiteNonzero hy hx),
    fun hy hx hs => hits_of_sv (svAtan2_of_finiteNonzero_posInf hy hx hs),
    fun hy hx hs => hits_of_sv (svAtan2_of_finiteNonzero_negInf hy hx hs),
    fun hy hx => misses_of_sv (svAtan2_of_finiteNonzero_finiteNonzero hy hx)⟩

/-! ### The function commands (R220, R221, R236) -/

theorem resolve_of_hit {o : Option (Pat P)} {v : Pat P} (h : o = some v) (r : Pat P) : resolve o r = v := by
  rw [h, resolve]

/-- A function takes a hit of its own table as its result; a function of one operand has the same entry whatever the
second operand is. -/
theorem fnResult_of_hit {c : Cfg} {f : FnId} {a b v : Pat P} (h : sv c f a b = some v) : fnResult c f a b = v := by
  cases f <;> exact resolve_of_hit h _

theorem laneOf_fnCommand (f : FnId) (P : Prec) (n : LaneCount) (l : LaneIn) :
    laneOf (fnCommand f P n) l = .float (fnResult Config.cfg f (opP P l.a) (opP P l.b)) := by
  cases f <;> rfl

theorem givesFloat_fnCommand_of_hit {f : FnId} {n : LaneCount} {l : LaneIn} {v : Pat P}
    (h : sv Config.cfg f (opP P l.a) (opP P l.b) = some v) : GivesFloat (fnCommand f P n) l v := by
  rw [givesFloat_iff, laneOf_fnCommand, fnResult_of_hit h]

/-- Quieting sets the top bit of the fraction and no other (R16). -/
theorem getLsbD_quiet (x : Pat P) (k : ℕ) :
    (quiet x).getLsbD k = (x.getLsbD k || decide (k = P.fracBits - 1)) := by
  rw [quiet, BitVec.getLsbD_or, getLsbD_bitMask _ _ (by omega)]

theorem isQNaN_quiet {x : Pat P} (h : isNaN x = true) : isQNaN (quiet x) = true := by
  simp [isQNaN, isNaN_quiet x h, getLsbD_quiet]

/-- Settles O45: the NaN entries of the tables are hits. -/
theorem nanOperandQuieted : Obligations.NaNOperandQuieted := by
  intro f P n l x
  refine ⟨?_, ?_, fun h => ⟨isQNaN_quiet h, sgn_quiet x, fun k hk => ?_⟩⟩
  · rintro rfl h
    exact givesFloat_fnCommand_of_hit (sv_of_isNaN_fst _ f _ h)
  · rintro rfl hy rfl hx
    exact givesFloat_fnCommand_of_hit (svAtan2_of_isNaN_snd hy hx)
  · rw [getLsbD_quiet, decide_eq_false hk.ne, Bool.or_false]

/-- Settles O46: YN is 1 only on a hit, and the command takes the same hit. -/
theorem hitIsTheResult : Obligations.HitIsTheResult := by
  intro f P n m l
  cases hsv : sv Config.cfg f (opP P l.a) (opP P l.b) with
  | none => exact ⟨{}, misses_of_sv hsv m l rfl rfl, fun hyn => absurd hyn (by decide)⟩
  | some v => exact ⟨_, hits_of_sv hsv m l rfl rfl, fun _ => givesFloat_fnCommand_of_hit hsv⟩

end Sys2Proof.Machine

/-! PROOF. O18, O19: the lanes of a command (spec/44_lane_dispatch.md R260-R263, R266). A lane below the lane count holds
the lane function's result, which names its output files (10_state.md R34) and depends on that lane's inputs alone; every
other lane is zeroed. -/

namespace Sys2Proof.Machine

open Sys2Proof Sys2Proof.Claims

/-- The output files the command does not name are 0 in a lane's result (R34, R263). -/
structure UnnamedZero (i : Instr) (o : LaneOut) : Prop where
  yf : ¬namesYF i → o.yf = 0
  yn : ¬namesYN i → o.yn = 0
  ys : ¬namesYS i → o.ys = false
  ym : ¬namesYM i → o.ym = 0

/-- The result of a lane from the lane count on: it names nothing. -/
theorem unnamedZero_default (i : Instr) : UnnamedZero i {} := ⟨fun _ => rfl, fun _ => rfl, fun _ => rfl, fun _ => rfl⟩

/-- A result in YF alone, for the commands that name YF. -/
theorem unnamedZero_float {i : Instr} (hyf : namesYF i) {P : Prec} (r : Pat P) : UnnamedZero i (.float r) :=
  ⟨absurd hyf, fun _ => rfl, fun _ => rfl, fun _ => rfl⟩

/-- The lane functions write the output files of R34: FD.DECOMP all but YF, FD.NORM and RR.ATAN all but YM, RR.TRIG,
RR.EXP2 and SV.RESOLVE YF and YN, and the others YF alone. -/
theorem unnamedZero_laneOf (i : Instr) (l : LaneIn) : UnnamedZero i (laneOf i l) := by
  cases i with
  | fdDecomp p n => exact ⟨fun _ => rfl, absurd trivial, absurd trivial, absurd trivial⟩
  | fdNorm p n | rrAtan p n => exact ⟨absurd trivial, absurd trivial, absurd trivial, fun _ => rfl⟩
  | rrExp2 p n => exact ⟨absurd trivial, absurd trivial, fun _ => rfl, fun _ => rfl⟩
  | rrTrig p n =>
    simp only [laneOf, laneRrTrig]
    split_ifs <;> exact ⟨absurd trivial, absurd trivial, fun _ => rfl, fun _ => rfl⟩
  | svResolve p n f =>
    simp only [laneOf, laneSvResolve]
    split
    · exact ⟨absurd trivial, absurd trivial, fun _ => rfl, fun _ => rfl⟩
    · exact unnamedZero_default _
  | _ => exact unnamedZero_float (by trivial) _

/-- An output lane of a command, computed or zeroed. -/
theorem unnamedZero_laneOut (i : Instr) (s : State) (j : Fin 16) : UnnamedZero i (laneOut i.lanes (laneOf i) s j) := by
  unfold laneOut
  split
  · exact unnamedZero_laneOf i _
  · exact unnamedZero_default i

/-- The four files of a zeroed output lane. -/
theorem outLane_eq_default_iff {t : State} {j : Fin 16} :
    outLane t j = {} ↔ t.yf[j] = 0 ∧ t.yn[j] = 0 ∧ t.ys[j] = false ∧ t.ym[j] = 0 := by
  simp only [outLane, LaneOut.mk.injEq]

/-- Settles O18: a command is its lane function, dispatched. -/
theorem unnamedOutputsAreZero : Obligations.UnnamedOutputsAreZero := by
  intro i s
  refine ⟨_, exec_eq_dispatch i s, fun j hj => ?fromLaneCount, fun j => ?unnamed, fun s' t' hs ht' => ?inputsAlone⟩
  case fromLaneCount =>
    exact outLane_eq_default_iff.1 ((outLane_dispatch _ _ s j).trans (laneOut_of_le hj))
  case unnamed =>
    have hlane : UnnamedZero i (outLane (dispatch i.lanes (laneOf i) s) j) :=
      outLane_dispatch i.lanes (laneOf i) s j ▸ unnamedZero_laneOut i s j
    exact ⟨hlane.yf, hlane.yn, hlane.ys, hlane.ym⟩
  case inputsAlone =>
    obtain rfl := exec_eq_next_iff.1 ht'
    exact sameOutputs_dispatch _ _ hs

/-- A lane below the lane count holds the lane function's result, whatever the lane count (R260, R261). -/
theorem outLane_of_exec_withLanes {i : Instr} {n : LaneCount} {s t : State} {j : Fin 16}
    (h : exec (i.withLanes n) s = .next t) (hj : j.val < laneCount n) : outLane t j = laneOf i (laneIn s j) := by
  obtain rfl := exec_eq_next_iff.1 h
  rw [outLane_dispatch, lanes_withLanes, laneOf_withLanes, laneOut_of_lt hj]

/-- Settles O19: both lanes hold the same lane function's result of the same inputs. -/
theorem resultsAreLanewise : Obligations.ResultsAreLanewise := by
  intro i n m s s' t t' j k ht ht' hj hk hin
  calc outLane t j
      = laneOf i (laneIn s j) := outLane_of_exec_withLanes ht hj
    _ = laneOf i (laneIn s' k) := congrArg (laneOf i) hin
    _ = outLane t' k := (outLane_of_exec_withLanes ht' hk).symm

end Sys2Proof.Machine

/-! PROOF. O47, O48, O49: the trigonometric family (spec/45_trig.md). SIN, COS and TAN share one reduced value and one
selector, and these are RR.TRIG's own outputs for the same operand (R280-R283). TAN divides the same two values SIN and
COS deliver, and its special values are the quotients of theirs (R285, R286). An operand below π/4 is reduced by k = 0,
because both 0 and k lie within 1/2 of val(x)·2/π (R284). -/

namespace Sys2Proof.Machine

open Sys2Proof Sys2Proof.Claims

variable {P : Prec}

/-! ### SIN, COS and TAN by class of the operand (R220, R225) -/

theorem svOddTrig_of_isNaN {x : Pat P} (h : isNaN x = true) : svOddTrig x = some (quiet x) := if_pos h

theorem svCos_of_isNaN {x : Pat P} (h : isNaN x = true) : svCos x = some (quiet x) := if_pos h

theorem resolve_of_miss {o : Option (Pat P)} (h : o = none) (r : Pat P) : resolve o r = r := by
  rw [h, resolve]

theorem fnSin_of_hit (c : Cfg) {x v : Pat P} (h : svOddTrig x = some v) : fnSin c x = v := resolve_of_hit h _

theorem fnCos_of_hit (c : Cfg) {x v : Pat P} (h : svCos x = some v) : fnCos c x = v := resolve_of_hit h _

theorem fnTan_of_hit (c : Cfg) {x v : Pat P} (h : svOddTrig x = some v) : fnTan c x = v := resolve_of_hit h _

theorem fnSin_of_finiteNonzero (c : Cfg) {x : Pat P} (h : FiniteNonzero x) : fnSin c x = sinStruct c x :=
  resolve_of_miss (svOddTrig_of_finiteNonzero h) _

theorem fnCos_of_finiteNonzero (c : Cfg) {x : Pat P} (h : FiniteNonzero x) : fnCos c x = cosStruct c x :=
  resolve_of_miss (svCos_of_finiteNonzero h) _

theorem fnTan_of_finiteNonzero (c : Cfg) {x : Pat P} (h : FiniteNonzero x) :
    fnTan c x = fdiv (sinStruct c x) (cosStruct c x) :=
  resolve_of_miss (svOddTrig_of_finiteNonzero h) _

theorem givesFloat_sin_iff {n : LaneCount} {l : LaneIn} {r : Pat P} :
    GivesFloat (.sin P n) l r ↔ fnSin Config.cfg (opP P l.a) = r := by
  rw [givesFloat_iff]
  exact ⟨fun h => zext64_inj.1 (congrArg LaneOut.yf h), fun h => congrArg LaneOut.float h⟩

theorem givesFloat_cos_iff {n : LaneCount} {l : LaneIn} {r : Pat P} :
    GivesFloat (.cos P n) l r ↔ fnCos Config.cfg (opP P l.a) = r := by
  rw [givesFloat_iff]
  exact ⟨fun h => zext64_inj.1 (congrArg LaneOut.yf h), fun h => congrArg LaneOut.float h⟩

/-! ### In range: the quadrant table at RR.TRIG's outputs (R281) -/

/-- The SIN column, by the selector as it stands in a lane. -/
theorem sinOfQuadrant_eq_ite (q : Fin 4) (S C : Pat P) :
    sinOfQuadrant q S C = if BitVec.ofNat 64 q.val = 0 then S else if BitVec.ofNat 64 q.val = 1 then C
      else if BitVec.ofNat 64 q.val = 2 then neg S else neg C := by
  fin_cases q <;> rfl

/-- The COS column, by the selector as it stands in a lane. -/
theorem cosOfQuadrant_eq_ite (q : Fin 4) (S C : Pat P) :
    cosOfQuadrant q S C = if BitVec.ofNat 64 q.val = 0 then C else if BitVec.ofNat 64 q.val = 1 then neg S
      else if BitVec.ofNat 64 q.val = 2 then neg C else S := by
  fin_cases q <;> rfl

theorem sinStruct_of_le {c : Cfg} {x : Pat P} (h : |val x| ≤ trigRrMax c P) :
    sinStruct c x = canonNaN (sinOfQuadrant (trigQuadrant c x) (trigS c x) (trigC c x)) :=
  if_pos (decide_eq_true h)

theorem cosStruct_of_le {c : Cfg} {x : Pat P} (h : |val x| ≤ trigRrMax c P) :
    cosStruct c x = canonNaN (cosOfQuadrant (trigQuadrant c x) (trigS c x) (trigC c x)) :=
  if_pos (decide_eq_true h)

theorem toNat_ofNat_trigQuadrant_lt (c : Cfg) (x : Pat P) : (BitVec.ofNat 64 (trigQuadrant c x).val).toNat < 4 := by
  have hlt := (trigQuadrant c x).isLt
  rw [BitVec.toNat_ofNat]
  omega

/-- Settles O47: the special operands are hits of the tables SV; in range RR.TRIG's lane holds the reduced value and the
selector SIN and COS use. -/
theorem sinCosSelect : Obligations.SinCosSelect := by
  rintro P n m l x rfl
  refine ⟨fun h => ?nan, fun h => ?inf, fun h => ?zero, fun h hrange => ?inRange⟩
  case nan =>
    exact ⟨givesFloat_sin_iff.2 (fnSin_of_hit _ (svOddTrig_of_isNaN h)),
      givesFloat_cos_iff.2 (fnCos_of_hit _ (svCos_of_isNaN h))⟩
  case inf =>
    exact ⟨givesFloat_sin_iff.2 (fnSin_of_hit _ (svOddTrig_of_isInf h)),
      givesFloat_cos_iff.2 (fnCos_of_hit _ (svCos_of_isInf h))⟩
  case zero =>
    exact ⟨givesFloat_sin_iff.2 (fnSin_of_hit _ (svOddTrig_of_isZero h)),
      givesFloat_cos_iff.2 (fnCos_of_hit _ (svCos_of_isZero h))⟩
  case inRange =>
    refine ⟨_, gives_iff.2 (laneRrTrig_of_finiteNonzero h), toNat_ofNat_trigQuadrant_lt _ _, ?_⟩
    rintro S C rfl rfl
    rw [givesFloat_sin_iff, fnSin_of_finiteNonzero _ h, sinStruct_of_le hrange, sinOfQuadrant_eq_ite,
      givesFloat_cos_iff, fnCos_of_finiteNonzero _ h, cosStruct_of_le hrange, cosOfQuadrant_eq_ite,
      opP_zext64, trigS, trigC]
    exact ⟨rfl, rfl⟩

/-! ### TAN is the quotient (R286) -/

theorem fdiv_onePat_of_isZero {x : Pat P} (h : isZero x = true) : fdiv x (onePat P) = x := by
  obtain ⟨hnan, hinf⟩ := isNaN_isInf_of_isZero h
  calc fdiv x (onePat P) = zeroPat P (sgn x) := by simp [fdiv, hnan, hinf, h]
    _ = x := (eq_zeroPat h).symm

/-- The special values of TAN are the quotients of those of SIN and COS; elsewhere TAN is the quotient by definition. -/
theorem fnTan_eq_fdiv (c : Cfg) (x : Pat P) : fnTan c x = fdiv (fnSin c x) (fnCos c x) := by
  by_cases hnan : isNaN x = true
  · have hodd := svOddTrig_of_isNaN hnan
    rw [fnTan_of_hit c hodd, fnSin_of_hit c hodd, fdiv_of_quiet hnan (.inl rfl)]
  rcases isInf_or_isZero_or_finiteNonzero (Bool.eq_false_iff.2 hnan) with (hinf | hzero) | hfin
  · have hodd := svOddTrig_of_isInf hinf
    rw [fnTan_of_hit c hodd, fnSin_of_hit c hodd, fdiv_of_quiet (isNaN_cNaN P) (.inl (quiet_cNaN P).symm), quiet_cNaN]
  · have hodd := svOddTrig_of_isZero hzero
    rw [fnTan_of_hit c hodd, fnSin_of_hit c hodd, fnCos_of_hit c (svCos_of_isZero hzero), fdiv_onePat_of_isZero hzero]
  · rw [fnTan_of_finiteNonzero c hfin, fnSin_of_finiteNonzero c hfin, fnCos_of_finiteNonzero c hfin]

/-- Settles O48: SIN, COS and TAN deliver their functions of the operand, and `fnTan_eq_fdiv` ties the three. -/
theorem tanIsQuotient : Obligations.TanIsQuotient := fun _ _ _ l =>
  ⟨_, _, givesFloat_sin_iff.2 rfl, givesFloat_cos_iff.2 rfl,
    givesFloat_iff.2 (congrArg LaneOut.float (fnTan_eq_fdiv Config.cfg (opP _ l.a)))⟩

/-! ### Below π/4 (R284) -/

/-- k = 0: the exact product is nearer than 1/2 to 0, and k is the integer nearest to it. -/
theorem trigK_eq_zero {x : Pat P} (hx : isFinite x = true) (h : (|val x| : ℝ) < Real.pi / 4) : trigK x = 0 := by
  have hpi := Real.pi_pos
  have hzero : |(val x : ℝ) * (2 / Real.pi)| < 1 / 2 := by
    calc |(val x : ℝ) * (2 / Real.pi)|
        = |(val x : ℝ)| * (2 / Real.pi) := by rw [abs_mul, abs_of_pos (by positivity : 0 < 2 / Real.pi)]
      _ < Real.pi / 4 * (2 / Real.pi) := by gcongr
      _ = 1 / 2 := by field_simp; norm_num
  have hnear := abs_val_mul_two_div_pi_sub_trigK_lt hx
  have hlt : |(trigK x : ℝ)| < 1 := by
    rw [abs_lt] at hzero hnear ⊢
    constructor <;> linarith
  exact Int.abs_lt_one_iff.1 (by exact_mod_cast hlt)

/-- TRIG_RR_MAX is at least 100, which is above π/4. -/
theorem abs_val_le_trigRrMax (c : Cfg) {x : Pat P} (h : (|val x| : ℝ) < Real.pi / 4) : |val x| ≤ trigRrMax c P := by
  have hlt : (|val x| : ℝ) < 100 := by linarith [Real.pi_lt_four]
  have hle : |val x| < 100 := by exact_mod_cast hlt
  exact hle.le.trans (le_max_left _ _)

theorem trigReduced_of_trigK_eq_zero {c : Cfg} {x : Pat P} (hrange : |val x| ≤ trigRrMax c P) (hk : trigK x = 0) :
    trigReduced c x = x := by
  rw [trigReduced_of_le hrange, if_pos hk]

theorem trigQuadrant_of_trigK_eq_zero {c : Cfg} {x : Pat P} (hrange : |val x| ≤ trigRrMax c P) (hk : trigK x = 0) :
    trigQuadrant c x = 0 := by
  rw [trigQuadrant_of_le hrange, hk]
  rfl

/-- A table of an operand that is no NaN makes no NaN but cNaN, so passing it through `canonNaN` changes nothing. -/
theorem canonNaN_polyEval (c : Cfg) (t : TableId) {x : Pat P} (h : isNaN x = false) :
    canonNaN (polyEval c t x) = polyEval c t x :=
  (CanonicalNaN.polyEval c t (.of_not h)).canonNaN_eq

/-- Settles O49: in range with k = 0 the reduced value is x and the selector is 0. -/
theorem smallAngleDirect : Obligations.SmallAngleDirect := by
  rintro P n l x rfl hfin hpos hlt
  have hx := finiteNonzero_of_val_ne_zero hfin (abs_pos.1 hpos)
  have hnan := (isNaN_isInf_of_isFinite hfin).1
  have hrange := abs_val_le_trigRrMax Config.cfg hlt
  have hk := trigK_eq_zero hfin hlt
  have hred := trigReduced_of_trigK_eq_zero hrange hk
  have hquad := trigQuadrant_of_trigK_eq_zero hrange hk
  refine ⟨givesFloat_iff.2 ?rrTrig, givesFloat_sin_iff.2 ?sin, givesFloat_cos_iff.2 ?cos⟩
  case rrTrig =>
    refine (laneRrTrig_of_finiteNonzero hx).trans ?_
    rw [hred, hquad]
    rfl
  case sin =>
    rw [fnSin_of_finiteNonzero _ hx, sinStruct_of_le hrange, hquad, sinOfQuadrant, trigS, hred,
      canonNaN_polyEval _ _ hnan]
  case cos =>
    rw [fnCos_of_finiteNonzero _ hx, cosStruct_of_le hrange, hquad, cosOfQuadrant, trigC, hred,
      canonNaN_polyEval _ _ hnan]

end Sys2Proof.Machine

/-! PROOF. O54: K_PI and K_PI_2 (spec/46_inverse_trig.md R317). A number nearer to a normal pattern than half the pattern's
quantum rounds to the pattern, so bounds of π decide what π rounds to. K_PI is K_PI_2 one binade up, so the same holds of
π/2 and K_PI_2, and the difference of the two constants is exact. -/

namespace Sys2Proof.Machine

open Sys2Proof Sys2Proof.Claims

variable {P : Prec}

/-! ### Numbers near a normal pattern (R19) -/

theorem pow2_one : pow2 1 = 2 := rfl

theorem val_of_sgn_eq_false {x : Pat P} (hx : isFinite x = true) (hs : sgn x = false) :
    val x = significand x * pow2 (significandExp x) := by
  simp only [val, hs, Bool.false_eq_true, if_false, magnitude_eq_significand_mul hx]

/-- An integer nearer than one half is the rounded one. -/
theorem roundTiesEven_of_abs_sub_lt {m : ℚ} (hm : 0 ≤ m) {k : ℕ} (h : |(k : ℚ) - m| < 1 / 2) :
    roundTiesEven m = k := by
  by_contra hne
  exact (half_le_abs_sub_of_ne hm (Ne.symm hne)).not_gt h

/-- A number nearer than half a quantum to a normal pattern inside its binade lies in that binade too, so it has the
pattern's quantum. -/
theorem pos_and_quantumExp_of_near {x : Pat P} (hx : isNorm x = true) (hf : frac x ≠ 0) {v : ℚ}
    (h : |magnitude x - v| < pow2 (significandExp x) / 2) : 0 < v ∧ quantumExp P v = significandExp x := by
  have hq := pow2_pos (significandExp x)
  have hlo : ((2 ^ P.fracBits : ℕ) : ℚ) + 1 ≤ significand x := by
    rw [significand_of_isNorm hx]; exact_mod_cast (by omega : 2 ^ P.fracBits + 1 ≤ 2 ^ P.fracBits + frac x)
  have hhi : (significand x : ℚ) + 1 ≤ 2 * ((2 ^ P.fracBits : ℕ) : ℚ) := by
    have := significand_lt x
    rw [pow_succ] at this
    exact_mod_cast (by omega : significand x + 1 ≤ 2 * 2 ^ P.fracBits)
  rw [magnitude_eq_significand_mul (finiteNonzero_of_isNorm hx).1, abs_lt] at h
  have hbinade : pow2 (significandExp x + P.fracBits) ≤ v := by
    rw [pow2_add_fracBits]; nlinarith
  have hbinade' : v < pow2 (significandExp x + P.fracBits + 1) := by
    rw [pow2_add _ 1, pow2_add_fracBits, pow2_one]; nlinarith
  have hpos := (pow2_pos _).trans_le hbinade
  have hle := le_significandExp x
  refine ⟨hpos, ?_⟩
  rw [quantumExp, floorLog2_unique hpos hbinade hbinade']
  omega

/-- A number nearer than half a quantum to a positive normal pattern inside its binade rounds to the pattern. -/
theorem roundVal_of_near {x : Pat P} (hx : isNorm x = true) (hf : frac x ≠ 0) (hs : sgn x = false) {v : ℚ}
    (h : |val x - v| < pow2 (significandExp x) / 2) : roundVal P v = x := by
  have hq := pow2_pos (significandExp x)
  have hfin := (finiteNonzero_of_isNorm hx).1
  rw [val_of_sgn_eq_false hfin hs, ← magnitude_eq_significand_mul hfin] at h
  obtain ⟨hpos, hquantum⟩ := pos_and_quantumExp_of_near hx hf h
  have hround : roundTiesEven (v / pow2 (significandExp x)) = significand x := by
    rw [magnitude_eq_significand_mul hfin, abs_mul_pow2_sub] at h
    exact roundTiesEven_of_abs_sub_lt (by positivity) (lt_of_mul_lt_mul_right (by linarith) hq.le)
  calc roundVal P v = roundRNE P (sgn x) v := by
        rw [roundVal, abs_of_pos hpos, decide_eq_false hpos.not_gt, hs]
    _ = assemble P (sgn x) (significand x) (significandExp x) := by
        rw [roundRNE_eq_assemble _ hpos, hquantum, hround]
    _ = x := assemble_significand hfin

/-- The same of a real number: the rationals near enough to it are near enough to the pattern. -/
theorem roundsTo_of_near {x : Pat P} (hx : isNorm x = true) (hf : frac x ≠ 0) (hs : sgn x = false) {r : ℝ}
    (h : |(val x : ℝ) - r| < pow2 (significandExp x) / 2) : RoundsTo P r x := by
  refine ⟨_, sub_pos.2 h, fun q hq => roundVal_of_near hx hf hs ?_⟩
  have htri := abs_sub_le (val x : ℝ) r q
  rw [abs_sub_comm r] at htri
  have hlt : |(val x : ℝ) - q| < pow2 (significandExp x) / 2 := by linarith
  exact_mod_cast hlt

/-! ### Sums of finite patterns (R20) -/

section
variable {a b : Pat P}

theorem fadd_of_val_add_ne_zero (ha : isFinite a = true) (hb : isFinite b = true) (h : val a + val b ≠ 0) :
    fadd a b = roundVal P (val a + val b) := by
  simp [fadd, isNaN_isInf_of_isFinite ha, isNaN_isInf_of_isFinite hb, h]

theorem isZero_fadd_of_val_add_eq_zero (ha : isFinite a = true) (hb : isFinite b = true) (h : val a + val b = 0) :
    isZero (fadd a b) = true := by
  simp [fadd, isNaN_isInf_of_isFinite ha, isNaN_isInf_of_isFinite hb, h]

/-- A difference that is the value of a finite nonzero pattern is that pattern. -/
theorem fsub_eq_of_val {d : Pat P} (ha : isFinite a = true) (hb : isFinite b = true) (hd : FiniteNonzero d)
    (h : val a - val b = val d) : fsub a b = d := by
  have hsum : val a + val (neg b) = val d := by rw [val_neg, ← sub_eq_add_neg, h]
  have hne : val a + val (neg b) ≠ 0 := hsum ▸ val_ne_zero_of_finiteNonzero hd
  rw [fsub_eq_fadd_neg (isNaN_isInf_of_isFinite ha).1 (isNaN_isInf_of_isFinite hb).1,
    fadd_of_val_add_ne_zero ha ((isFinite_neg b).trans hb) hne, hsum, roundVal_val hd]

end

/-! ### K_PI and K_PI_2 (R317) -/

theorem kPi_toNat : (kPi .b32).toNat = 0x40490FDB ∧ (kPiHalf .b32).toNat = 0x3FC90FDB ∧
    (kPi .b64).toNat = 0x400921FB54442D18 ∧ (kPiHalf .b64).toNat = 0x3FF921FB54442D18 := by decide

@[simp] theorem isNorm_kPi (P : Prec) : isNorm (kPi P) = true := by cases P <;> decide

@[simp] theorem isNorm_kPiHalf (P : Prec) : isNorm (kPiHalf P) = true := by cases P <;> decide

@[simp] theorem sgn_kPi (P : Prec) : sgn (kPi P) = false := by cases P <;> decide

@[simp] theorem sgn_kPiHalf (P : Prec) : sgn (kPiHalf P) = false := by cases P <;> decide

theorem frac_kPi (P : Prec) : frac (kPi P) = frac (kPiHalf P) := by cases P <;> decide

theorem frac_kPiHalf_ne_zero (P : Prec) : frac (kPiHalf P) ≠ 0 := by cases P <;> decide

theorem expf_kPi (P : Prec) : expf (kPi P) = expf (kPiHalf P) + 1 := by cases P <;> decide

theorem finiteNonzero_kPiHalf (P : Prec) : FiniteNonzero (kPiHalf P) := finiteNonzero_of_isNorm (isNorm_kPiHalf P)

/-- K_PI is one binade above K_PI_2. -/
theorem significandExp_kPi (P : Prec) : significandExp (kPi P) = significandExp (kPiHalf P) + 1 := by
  rw [significandExp_of_isNorm (isNorm_kPi P), significandExp_of_isNorm (isNorm_kPiHalf P), expf_kPi]
  push_cast
  ring

/-- With the same fraction, one binade above is twice the value. -/
theorem val_kPi (P : Prec) : val (kPi P) = 2 * val (kPiHalf P) := by
  have hsig : significand (kPi P) = significand (kPiHalf P) := by
    rw [significand_of_isNorm (isNorm_kPi P), significand_of_isNorm (isNorm_kPiHalf P), frac_kPi]
  rw [val_of_sgn_eq_false (finiteNonzero_of_isNorm (isNorm_kPi P)).1 (sgn_kPi P),
    val_of_sgn_eq_false (finiteNonzero_kPiHalf P).1 (sgn_kPiHalf P), significandExp_kPi, hsig, pow2_add, pow2_one]
  ring

/-- K_PI is nearer to π than half its quantum, at both precisions: 20 decimals of π decide it. -/
theorem abs_val_kPi_sub_pi_lt (P : Prec) :
    |(val (kPi P) : ℝ) - Real.pi| < pow2 (significandExp (kPi P)) / 2 := by
  have hlo := Real.pi_gt_d20
  have hhi := Real.pi_lt_d20
  rw [val_of_sgn_eq_false (finiteNonzero_of_isNorm (isNorm_kPi P)).1 (sgn_kPi P), abs_lt]
  cases P with
  | b32 =>
    have hsig : significand (kPi .b32) = 0xC90FDB := by decide
    have hexp : significandExp (kPi .b32) = -22 := by decide
    rw [hsig, hexp, pow2_eq_zpow]
    constructor <;> norm_num <;> linarith
  | b64 =>
    have hsig : significand (kPi .b64) = 0x1921FB54442D18 := by decide
    have hexp : significandExp (kPi .b64) = -51 := by decide
    rw [hsig, hexp, pow2_eq_zpow]
    constructor <;> norm_num <;> linarith

theorem roundsTo_pi (P : Prec) : RoundsTo P Real.pi (kPi P) :=
  roundsTo_of_near (isNorm_kPi P) (frac_kPi P ▸ frac_kPiHalf_ne_zero P) (sgn_kPi P) (abs_val_kPi_sub_pi_lt P)

/-- Half of everything: the constant, π and the quantum. -/
theorem roundsTo_pi_div_two (P : Prec) : RoundsTo P (Real.pi / 2) (kPiHalf P) := by
  refine roundsTo_of_near (isNorm_kPiHalf P) (frac_kPiHalf_ne_zero P) (sgn_kPiHalf P) ?_
  have h := abs_val_kPi_sub_pi_lt P
  rw [val_kPi, significandExp_kPi, pow2_add, pow2_one, abs_lt] at h
  push_cast at h
  rw [abs_lt]
  constructor <;> linarith [h.1, h.2]

/-- The difference of the constants is exact: 2k - k = k. -/
theorem fsub_kPi_kPiHalf (P : Prec) : fsub (kPi P) (kPiHalf P) = kPiHalf P :=
  fsub_eq_of_val (finiteNonzero_of_isNorm (isNorm_kPi P)).1 (finiteNonzero_kPiHalf P).1 (finiteNonzero_kPiHalf P)
    (by rw [val_kPi]; ring)

/-- Settles O54: the patterns, the roundings of π and π/2, and the two constants' fields, values and difference. -/
theorem piConstants : Obligations.PiConstants :=
  ⟨kPi_toNat, fun P => ⟨roundsTo_pi P, roundsTo_pi_div_two P, frac_kPi P, expf_kPi P, val_kPi P, fsub_kPi_kPiHalf P⟩⟩

end Sys2Proof.Machine

/-! PROOF. O50, O51, O53: the branches of the inverse trigonometric family (spec/46_inverse_trig.md). A function's special
operands are hits of its table SV, and past them the function is its structural value: ASIN and ACOS by ASIN_SPLIT and
ACOS_MODE (R311, R314), ATAN by RR.ATAN's class (R318), ATAN2 by the quadrant (R321). For x > 0 the special values of ATAN2
are those of ATAN at the quotient (R324). -/

namespace Sys2Proof.Machine

open Sys2Proof Sys2Proof.Claims

variable {P : Prec}

/-- A function command delivers its function of the lane's operands. -/
theorem givesFloat_fnCommand {f : FnId} {n : LaneCount} {l : LaneIn} {r : Pat P}
    (h : fnResult Config.cfg f (opP P l.a) (opP P l.b) = r) : GivesFloat (fnCommand f P n) l r := by
  rw [givesFloat_iff, laneOf_fnCommand, h]

theorem givesFloat_asin {n : LaneCount} {l : LaneIn} {r : Pat P} (h : fnAsin Config.cfg (opP P l.a) = r) :
    GivesFloat (.asin P n) l r :=
  givesFloat_fnCommand (f := .asin) h

theorem givesFloat_acos {n : LaneCount} {l : LaneIn} {r : Pat P} (h : fnAcos Config.cfg (opP P l.a) = r) :
    GivesFloat (.acos P n) l r :=
  givesFloat_fnCommand (f := .acos) h

theorem givesFloat_atan {n : LaneCount} {l : LaneIn} {r : Pat P} (h : fnAtan Config.cfg (opP P l.a) = r) :
    GivesFloat (.atan P n) l r :=
  givesFloat_fnCommand (f := .atan) h

theorem givesFloat_atan2 {n : LaneCount} {l : LaneIn} {r : Pat P}
    (h : fnAtan2 Config.cfg (opP P l.a) (opP P l.b) = r) : GivesFloat (.atan2 P n) l r :=
  givesFloat_fnCommand (f := .atan2) h

/-! ### ASIN and ACOS (R311, R314) -/

section
variable (c : Cfg) {x : Pat P}

theorem fnAsin_of_isNaN (h : isNaN x = true) : fnAsin c x = quiet x := resolve_of_hit (sv_of_isNaN_fst c .asin x h) _

theorem fnAcos_of_isNaN (h : isNaN x = true) : fnAcos c x = quiet x := resolve_of_hit (sv_of_isNaN_fst c .acos x h) _

theorem fnAsin_of_absGtOne (hn : isNaN x = false) (h : absGtOne x = true) : fnAsin c x = cNaN P :=
  resolve_of_hit (svAsin_of_absGtOne hn h) _

theorem fnAcos_of_absGtOne (hn : isNaN x = false) (h : absGtOne x = true) : fnAcos c x = cNaN P :=
  resolve_of_hit (svAcos_of_absGtOne hn h) _

theorem fnAsin_of_isZero (h : isZero x = true) : fnAsin c x = x := resolve_of_hit (svAsin_of_isZero h) _

theorem fnAsin_of_abs_le_one (hx : FiniteNonzero x) (h : |val x| ≤ 1) :
    fnAsin c x = if |val x| < asinSplit c P then polyEval c .asin x else c.asinVal P x :=
  resolve_of_miss (svAsin_of_abs_le_one hx h) _

theorem fnAcos_of_abs_le_one (hx : isFinite x = true) (h : |val x| ≤ 1) : fnAcos c x = acosStruct c x :=
  resolve_of_miss (svAcos_of_abs_le_one hx h) _

end

/-- A finite operand outside [-1, 1], or an infinite one. -/
theorem isNaN_absGtOne_of_outside {x : Pat P} (h : isInf x = true ∨ (isFinite x = true ∧ 1 < |val x|)) :
    isNaN x = false ∧ absGtOne x = true := by
  rcases h with hinf | ⟨hfin, hlt⟩
  · exact ⟨isNaN_of_isInf hinf, absGtOne_of_isInf hinf⟩
  · exact ⟨(isNaN_isInf_of_isFinite hfin).1, absGtOne_of_one_lt hlt⟩

/-- Subtracting a zero from a finite nonzero pattern keeps it. -/
theorem fsub_of_isZero_snd {a z : Pat P} (ha : FiniteNonzero a) (hz : isZero z = true) : fsub a z = a :=
  fsub_eq_of_val ha.1 (isFinite_of_isZero hz) ha (by rw [val_eq_zero_iff.2 hz, sub_zero])

theorem fnAcos_of_isZero (c : Cfg) {x : Pat P} (h : isZero x = true) : fnAcos c x = acosStruct c x :=
  resolve_of_miss (svAcos_of_isZero h) _

/-- At a zero IDENTITY gives K_PI_2 itself, because ASIN of a zero is the zero (R314). -/
theorem acosStruct_of_isZero_of_identity {c : Cfg} (hmode : c.acosMode = .identity) {x : Pat P} (h : isZero x = true) :
    acosStruct c x = kPiHalf P := by
  simp only [acosStruct, hmode]
  rw [fnAsin_of_isZero c h, fsub_of_isZero_snd (finiteNonzero_kPiHalf P) h]

theorem acosStruct_of_table {c : Cfg} (hmode : c.acosMode = .table) (x : Pat P) : acosStruct c x = c.acosVal P x := by
  simp only [acosStruct, hmode]

/-- Settles O50: the special operands are hits of the tables SV; the others are the structural values. -/
theorem asinAcosBranches : Obligations.AsinAcosBranches := by
  rintro P n m l x rfl
  refine ⟨fun h => ?nan, fun h => ?outside, fun h => ?asinZero, fun hx h => ?asinInside, fun hx h => ?acosInside,
    fun h => ?acosZero⟩
  case nan => exact ⟨givesFloat_asin (fnAsin_of_isNaN _ h), givesFloat_acos (fnAcos_of_isNaN _ h)⟩
  case outside =>
    obtain ⟨hnan, habs⟩ := isNaN_absGtOne_of_outside h
    exact ⟨givesFloat_asin (fnAsin_of_absGtOne _ hnan habs), givesFloat_acos (fnAcos_of_absGtOne _ hnan habs)⟩
  case asinZero => exact givesFloat_asin (fnAsin_of_isZero _ h)
  case asinInside => exact givesFloat_asin (fnAsin_of_abs_le_one _ hx h)
  case acosInside => exact ⟨_, givesFloat_asin rfl, givesFloat_acos (fnAcos_of_abs_le_one _ hx h)⟩
  case acosZero =>
    refine givesFloat_acos ((fnAcos_of_isZero _ h).trans ?_)
    cases hmode : Config.acosMode with
    | identity => exact acosStruct_of_isZero_of_identity hmode h
    | table => exact acosStruct_of_table hmode _

/-! ### ATAN (R318) -/

section
variable (c : Cfg) {x : Pat P}

theorem fnAtan_of_isNaN (h : isNaN x = true) : fnAtan c x = quiet x := resolve_of_hit (sv_of_isNaN_fst c .atan x h) _

theorem fnAtan_of_isInf (h : isInf x = true) : fnAtan c x = if sgn x then neg (kPiHalf P) else kPiHalf P :=
  resolve_of_hit (svAtan_of_isInf h) _

theorem fnAtan_of_isZero (h : isZero x = true) : fnAtan c x = x := resolve_of_hit (svAtan_of_isZero h) _

theorem fnAtan_of_class_zero (hx : FiniteNonzero x) (h : atanClass x = false) : fnAtan c x = polyEval c .atan x := by
  rw [fnAtan, sv, resolve_of_miss (svAtan_of_finiteNonzero hx), atanStruct, h, if_neg Bool.false_ne_true]

theorem fnAtan_of_class_one (hx : FiniteNonzero x) (h : atanClass x = true) :
    fnAtan c x = atanReciprocal c x (polyEval c .atan (atanArg x)) := by
  rw [fnAtan, sv, resolve_of_miss (svAtan_of_finiteNonzero hx), atanStruct, if_pos h]

/-- The subtraction of class 1: an exact zero keeps the sign of x where the table is ODD. -/
theorem atanReciprocal_eq_ite (x E : Pat P) :
    atanReciprocal c x E =
      if isZero (fsub (signedPiHalf x) E) = true ∧ (romTable c .atan P).form = .odd then zeroPat P (sgn x)
      else fsub (signedPiHalf x) E := by
  simp only [atanReciprocal, romTable, Bool.and_eq_true, beq_iff_eq]
  congr

end

/-- Settles O51: the special operands are hits of the table SV; the class and the argument are RR.ATAN's own. -/
theorem atanBranches : Obligations.AtanBranches := by
  rintro P n m l x rfl
  refine ⟨fun h => givesFloat_atan (fnAtan_of_isNaN _ h), fun h => givesFloat_atan (fnAtan_of_isInf _ h),
    fun h => givesFloat_atan (fnAtan_of_isZero _ h), fun hx => ⟨_, gives_rrAtan rfl rfl, ?_⟩⟩
  rintro d rfl
  refine givesFloat_atan ?_
  cases hc : atanClass (opP P l.a) with
  | false => exact fnAtan_of_class_zero _ hx hc
  | true =>
    rw [fnAtan_of_class_one _ hx hc, atanReciprocal_eq_ite, opP_zext64]
    rfl

/-! ### ATAN2 (R321, R324) -/

section
variable {y x : Pat P}

theorem sgn_eq_false_iff_val_pos (hx : FiniteNonzero x) : sgn x = false ↔ 0 < val x := by
  rw [sgn_eq_decide_val_lt_zero hx, decide_eq_false_iff_not, not_lt]
  exact ⟨fun h => h.lt_of_ne' (val_ne_zero_of_finiteNonzero hx), le_of_lt⟩

/-- ATAN2 of finite nonzero operands, by the signs of their values. -/
theorem fnAtan2_of_finiteNonzero (c : Cfg) (hy : FiniteNonzero y) (hx : FiniteNonzero x) :
    fnAtan2 c y x =
      if 0 < val x then fnAtan c (fdiv y x) else if 0 < val y then fadd (fnAtan c (fdiv y x)) (kPi P)
      else fsub (fnAtan c (fdiv y x)) (kPi P) := by
  simp only [fnAtan2, sv, resolve_of_miss (svAtan2_of_finiteNonzero_finiteNonzero hy hx), atan2Struct,
    Bool.not_eq_true', sgn_eq_false_iff_val_pos hx, sgn_eq_false_iff_val_pos hy]

/-- A positive infinity, or a finite nonzero pattern of positive value. -/
theorem posInf_or_finite_of_positive (h : Positive x) :
    (isInf x = true ∧ sgn x = false) ∨ (FiniteNonzero x ∧ 0 < val x) :=
  h.imp_right fun ⟨hfin, hpos⟩ => ⟨finiteNonzero_of_val_ne_zero hfin hpos.ne', hpos⟩

theorem sgn_of_positive (h : Positive x) : sgn x = false := (gtZero_iff.1 (isNaN_gtZero_of_positive h).2).1

theorem fdiv_of_isInf_isInf (hy : isInf y = true) (hx : isInf x = true) : fdiv y x = cNaN P := by
  simp [fdiv, isNaN_of_isInf hy, isNaN_of_isInf hx, hy, hx]

theorem fdiv_of_isInf_finite (hy : isInf y = true) (hx : isFinite x = true) :
    fdiv y x = infPat P (sgn y != sgn x) := by
  simp [fdiv, isNaN_of_isInf hy, isZero_of_isInf hy, hy, isNaN_isInf_of_isFinite hx]

theorem fdiv_of_finite_isInf (hy : isFinite y = true) (hx : isInf x = true) :
    fdiv y x = zeroPat P (sgn y != sgn x) := by
  simp [fdiv, isNaN_of_isInf hx, isZero_of_isInf hx, hx, isNaN_isInf_of_isFinite hy]

theorem fdiv_of_isZero_fst (hy : isZero y = true) (hx : FiniteNonzero x) : fdiv y x = zeroPat P (sgn y != sgn x) := by
  simp [fdiv, isNaN_isInf_of_isZero hy, hy, isNaN_isInf_of_isFinite hx.1, hx.2]

/-- A zero over a positive value is that zero. -/
theorem fdiv_of_isZero_positive (hy : isZero y = true) (hx : Positive x) : fdiv y x = y := by
  have hquot : fdiv y x = zeroPat P (sgn y != sgn x) := by
    rcases posInf_or_finite_of_positive hx with ⟨hinf, -⟩ | ⟨hfin, -⟩
    · exact fdiv_of_finite_isInf (isFinite_of_isZero hy) hinf
    · exact fdiv_of_isZero_fst hy hfin
  rw [hquot, sgn_of_positive hx, Bool.bne_false, ← eq_zeroPat hy]

/-- ATAN2(y, x) = ATAN(fdiv(y, x)) for x > 0, by the class of y. -/
theorem fnAtan2_of_positive (c : Cfg) (y : Pat P) (hx : Positive x) : fnAtan2 c y x = fnAtan c (fdiv y x) := by
  by_cases hnan : isNaN y = true
  · have hquiet := isNaN_quiet y hnan
    obtain ⟨-, -, -, hdiv, -⟩ := operations_of_isNaN_fst x x hnan
    rw [hdiv, fnAtan_of_isNaN c hquiet, quiet_quiet]
    exact resolve_of_hit (sv_of_isNaN_fst c .atan2 x hnan) _
  rcases isInf_or_isZero_or_finiteNonzero (Bool.eq_false_iff.2 hnan) with (hinf | hzero) | hy
  · rcases posInf_or_finite_of_positive hx with ⟨hxinf, -⟩ | ⟨hxfin, -⟩
    · rw [fdiv_of_isInf_isInf hinf hxinf, fnAtan_of_isNaN c (isNaN_cNaN P), quiet_cNaN]
      exact resolve_of_hit (svAtan2_of_isInf_isInf hinf hxinf) _
    · rw [fdiv_of_isInf_finite hinf hxfin.1, sgn_of_positive hx, Bool.bne_false, fnAtan_of_isInf c (isInf_infPat _),
        sgn_infPat]
      exact resolve_of_hit (svAtan2_of_isInf_finiteNonzero hinf hxfin) _
  · rw [fdiv_of_isZero_positive hzero hx, fnAtan_of_isZero c hzero]
    exact resolve_of_hit (svAtan2_of_positive_snd hzero hx) _
  · rcases posInf_or_finite_of_positive hx with ⟨hxinf, hs⟩ | ⟨hxfin, hpos⟩
    · rw [fdiv_of_finite_isInf hy.1 hxinf, hs, Bool.bne_false, fnAtan_of_isZero c (isZero_zeroPat _)]
      exact resolve_of_hit (svAtan2_of_finiteNonzero_posInf hy hxinf hs) _
    · rw [fnAtan2_of_finiteNonzero c hy hxfin, if_pos hpos]

end

/-- Settles O53: the quadrants of finite nonzero operands, and every y over a positive x. -/
theorem atan2Quadrants : Obligations.Atan2Quadrants := by
  rintro P n m l l' y x rfl rfl hquot
  refine ⟨fun hy hx => ⟨_, givesFloat_atan rfl, givesFloat_atan2 ?_⟩,
    fun hx => ⟨_, givesFloat_atan rfl, givesFloat_atan2 ?_⟩⟩
  · rw [hquot, fnAtan2_of_finiteNonzero _ hy hx]
  · rw [hquot, fnAtan2_of_positive _ _ hx]

end Sys2Proof.Machine

/-! PROOF. O52: ATAN is odd where its table is (spec/46_inverse_trig.md R319). RR.ATAN's argument is finite, nonzero and at
most 1 in magnitude, so an ODD table, whose coefficients are finite, gives no NaN there (R313) and negates with its
argument (R197). In class 1 both operands of the subtraction change sign, and so does the difference, unless it is an
exact zero, which takes the sign of x. -/

namespace Sys2Proof.Machine

open Sys2Proof Sys2Proof.Claims

variable {P : Prec}

/-! ### An ODD table makes no NaN at a finite square (R313) -/

/-- A product with a finite nonzero factor is no NaN, infinite or not. -/
theorem isNaN_fmul_of_finiteNonzero_fst {a b : Pat P} (ha : FiniteNonzero a) (hb : isNaN b = false) :
    isNaN (fmul a b) = false := by
  obtain ⟨hanan, hainf⟩ := isNaN_isInf_of_isFinite ha.1
  simp only [fmul, hanan, hb, hainf, ha.2, Bool.false_and, Bool.or_false, Bool.false_eq_true, if_false]
  split_ifs <;> simp

theorem isNaN_fmul_of_finiteNonzero_snd {a b : Pat P} (ha : isNaN a = false) (hb : FiniteNonzero b) :
    isNaN (fmul a b) = false := by
  obtain ⟨hbnan, hbinf⟩ := isNaN_isInf_of_isFinite hb.1
  simp only [fmul, ha, hbnan, hbinf, hb.2, Bool.and_false, Bool.or_false, Bool.false_eq_true, if_false]
  split_ifs <;> simp

/-- A finite addend makes no NaN: the sum of two infinities is out. -/
theorem isNaN_fadd_of_isFinite_snd {a c : Pat P} (ha : isNaN a = false) (hc : isFinite c = true) :
    isNaN (fadd a c) = false := by
  obtain ⟨hcnan, hcinf⟩ := isNaN_isInf_of_isFinite hc
  simp only [fadd, ha, hcnan, hcinf, Bool.and_false, Bool.false_and, Bool.false_eq_true, if_false]
  split_ifs <;> simp [ha]

theorem isNaN_ffma_of_finite {a t c : Pat P} (ha : isNaN a = false) (ht : FiniteNonzero t) (hc : isFinite c = true) :
    isNaN (ffma a t c) = false := by
  obtain ⟨htnan, htinf⟩ := isNaN_isInf_of_isFinite ht.1
  obtain ⟨hcnan, hcinf⟩ := isNaN_isInf_of_isFinite hc
  simp only [ffma, ha, htnan, hcnan, htinf, hcinf, ht.2, Bool.and_false, Bool.false_and, Bool.or_false,
    Bool.false_eq_true, if_false]
  split_ifs <;> simp

theorem isNaN_hornerStep (fma : Bool) {acc t c : Pat P} (hacc : isNaN acc = false) (ht : FiniteNonzero t)
    (hc : isFinite c = true) : isNaN (hornerStep fma acc t c) = false := by
  cases fma with
  | true => exact isNaN_ffma_of_finite hacc ht hc
  | false => exact isNaN_fadd_of_isFinite_snd (isNaN_fmul_of_finiteNonzero_snd hacc ht) hc

/-- Horner of finite coefficients at a finite argument: an accumulator that overflowed stays infinite at a nonzero
argument, and none overflows at a zero. -/
theorem isNaN_horner (fma : Bool) {t : Pat P} (ht : isFinite t = true) {c0 : Pat P} {cs : List (Pat P)}
    (h0 : isFinite c0 = true) (hcs : ∀ a ∈ cs, isFinite a = true) : isNaN (horner fma t c0 cs) = false := by
  cases hz : isZero t with
  | true => exact (isNaN_isInf_of_isFinite (isFinite_horner_of_isZero fma hz h0 hcs)).1
  | false =>
    induction cs generalizing c0 with
    | nil => exact (isNaN_isInf_of_isFinite h0).1
    | cons c1 cs ih =>
      obtain ⟨h1, hcs⟩ := List.forall_mem_cons.1 hcs
      exact isNaN_hornerStep fma (ih h1 hcs) ⟨ht, hz⟩ h0

theorem isNaN_polyEval_of_odd {c : Cfg} {t : TableId} {x : Pat P} (hodd : (romTable c t P).form = .odd)
    (hx : FiniteNonzero x) (hsq : isFinite (fmul x x) = true) : isNaN (polyEval c t x) = false := by
  rw [polyEval, evalTable_of_odd hodd]
  exact isNaN_fmul_of_finiteNonzero_fst hx <| isNaN_horner _ hsq (isFinite_romTable c t P (.inl rfl))
    fun a ha => isFinite_romTable c t P (.inr (.inl ha))

theorem one_lt_overflowBound (P : Prec) : 1 < overflowBound P := by
  have hemax : 1 ≤ P.emax := by cases P <;> decide
  calc 1 < pow2 1 := by rw [pow2_one]; exact one_lt_two
    _ ≤ pow2 P.emax := pow2_le_pow2 hemax
    _ ≤ overflowBound P := pow2_emax_le_overflowBound P

/-- The square of a pattern of magnitude at most 1 does not overflow. -/
theorem isFinite_fmul_self {x : Pat P} (hx : FiniteNonzero x) (h : magnitude x ≤ 1) : isFinite (fmul x x) = true := by
  obtain ⟨hnan, hinf⟩ := isNaN_isInf_of_isFinite hx.1
  have hpos := magnitude_pos_of_finiteNonzero hx
  have hov : magnitude x * magnitude x < overflowBound P :=
    (mul_le_one₀ h hpos.le h).trans_lt (one_lt_overflowBound P)
  have hmul : fmul x x = roundRNE P false (magnitude x * magnitude x) := by
    simp [fmul, hnan, hinf, hx.2, abs_mul, abs_val]
  rw [hmul]
  exact (roundRNE_spec false (mul_pos hpos hpos) (overflowBound_eq P ▸ hov)).1

/-- An ODD table at an argument of magnitude at most 1: no NaN, and negated with the argument (R313, R197). -/
theorem polyEval_of_odd {c : Cfg} {t : TableId} {x : Pat P} (hodd : (romTable c t P).form = .odd)
    (hx : FiniteNonzero x) (h : magnitude x ≤ 1) :
    isNaN (polyEval c t x) = false ∧ polyEval c t (neg x) = neg (polyEval c t x) := by
  have hnan := isNaN_polyEval_of_odd hodd hx (isFinite_fmul_self hx h)
  obtain ⟨-, hparity⟩ := tableParity P c.peFma (romTable c t P) x (isNaN_isInf_of_isFinite hx.1).1
  exact ⟨hnan, hparity hodd hnan⟩

/-! ### The operands of both signs -/

theorem finiteNonzero_neg {x : Pat P} (h : FiniteNonzero x) : FiniteNonzero (neg x) :=
  ⟨(isFinite_neg x).trans h.1, (isZero_neg x).trans h.2⟩

@[simp] theorem neg_zeroPat (s : Bool) : neg (zeroPat P s) = zeroPat P (!s) := neg_pack s 0 0

@[simp] theorem atanClass_neg (x : Pat P) : atanClass (neg x) = atanClass x := by simp [atanClass]

theorem fdiv_onePat_neg {x : Pat P} (h : FiniteNonzero x) : fdiv (onePat P) (neg x) = neg (fdiv (onePat P) x) := by
  rw [fdiv_onePat_of_finiteNonzero h, fdiv_onePat_of_finiteNonzero (finiteNonzero_neg h), neg_roundRNE, sgn_neg,
    magnitude_neg]

theorem atanArg_neg_of_class_one {x : Pat P} (hx : FiniteNonzero x) (h : atanClass x = true) :
    atanArg (neg x) = neg (atanArg x) := by
  rw [atanArg_of_class_one h, atanArg_of_class_one ((atanClass_neg x).trans h), fdiv_onePat_neg hx]

theorem magnitude_le_one_of_class_zero {x : Pat P} (hx : isFinite x = true) (h : atanClass x = false) :
    magnitude x ≤ 1 := by
  by_contra hlt
  rw [← abs_val, not_le] at hlt
  exact absurd ((atanClass_of_one_lt_abs hx hlt).symm.trans h) (by decide)

/-- RR.ATAN's argument in class 1 (R170): finite, nonzero and inside [-1, 1]. -/
theorem atanArg_inside_of_class_one {x : Pat P} (hx : FiniteNonzero x) (h : atanClass x = true) :
    FiniteNonzero (atanArg x) ∧ magnitude (atanArg x) ≤ 1 := by
  have hlt : 1 < magnitude x := by
    by_contra hle
    rw [← abs_val, not_lt] at hle
    exact absurd ((atanClass_of_abs_le_one hx.1 hle).symm.trans h) (by decide)
  rw [atanArg_of_class_one h, fdiv_onePat_of_finiteNonzero hx]
  obtain ⟨hfin, hpos, hlt1⟩ := roundRNE_inv_magnitude (sgn x) hx hlt
  exact ⟨⟨hfin, Bool.eq_false_iff.2 fun hz => hpos.ne' (magnitude_eq_zero_iff.2 hz)⟩, hlt1.le⟩

/-! ### A difference of both signs (R20) -/

theorem roundVal_neg {v : ℚ} (h : v ≠ 0) : roundVal P (-v) = neg (roundVal P v) := by
  have hs : decide (-v < 0) = !decide (v < 0) := by
    rcases h.lt_or_gt with h | h <;> simp [h, h.le]
  rw [roundVal, roundVal, neg_roundRNE, abs_neg, hs]

/-- A sum with a finite operand changes sign with both operands, unless it is a zero at both. -/
theorem fadd_neg_neg {a b : Pat P} (ha : isFinite a = true) (hb : isNaN b = false) :
    (isZero (fadd a b) = true ∧ isZero (fadd (neg a) (neg b)) = true) ∨ fadd (neg a) (neg b) = neg (fadd a b) := by
  by_cases hinf : isInf b = true
  · right
    simp [fadd, isNaN_isInf_of_isFinite ha, hb, hinf]
  have hfin : isFinite b = true := by
    rcases isInf_or_isZero_or_finiteNonzero hb with (h | h) | h
    · exact absurd h hinf
    · exact isFinite_of_isZero h
    · exact h.1
  have ha' := (isFinite_neg a).trans ha
  have hfin' := (isFinite_neg b).trans hfin
  have hsum : val (neg a) + val (neg b) = -(val a + val b) := by rw [val_neg, val_neg, neg_add]
  by_cases hzero : val a + val b = 0
  · left
    exact ⟨isZero_fadd_of_val_add_eq_zero ha hfin hzero,
      isZero_fadd_of_val_add_eq_zero ha' hfin' (by rw [hsum, hzero, neg_zero])⟩
  · right
    rw [fadd_of_val_add_ne_zero ha hfin hzero, fadd_of_val_add_ne_zero ha' hfin' (hsum ▸ neg_ne_zero.2 hzero), hsum,
      roundVal_neg hzero]

theorem fsub_neg_neg {a b : Pat P} (ha : isFinite a = true) (hb : isNaN b = false) :
    (isZero (fsub a b) = true ∧ isZero (fsub (neg a) (neg b)) = true) ∨ fsub (neg a) (neg b) = neg (fsub a b) := by
  have hanan := (isNaN_isInf_of_isFinite ha).1
  have hbnan := (isNaN_neg b).trans hb
  rw [fsub_eq_fadd_neg hanan hb, fsub_eq_fadd_neg ((isNaN_neg a).trans hanan) hbnan]
  exact fadd_neg_neg ha hbnan

theorem signedPiHalf_neg (x : Pat P) : signedPiHalf (neg x) = neg (signedPiHalf x) := by
  cases hs : sgn x <;> simp [signedPiHalf, hs]

theorem isFinite_signedPiHalf (x : Pat P) : isFinite (signedPiHalf x) = true := by
  have h := (finiteNonzero_kPiHalf P).1
  cases hs : sgn x <;> simp [signedPiHalf, hs, h]

/-- With an ODD table the subtraction of class 1 is odd, an exact zero included. -/
theorem atanReciprocal_neg {c : Cfg} (hodd : (romTable c .atan P).form = .odd) (x : Pat P) {E : Pat P}
    (hE : isNaN E = false) : atanReciprocal c (neg x) (neg E) = neg (atanReciprocal c x E) := by
  simp only [atanReciprocal_eq_ite, signedPiHalf_neg, hodd, and_true, sgn_neg]
  rcases fsub_neg_neg (isFinite_signedPiHalf x) hE with ⟨hzero, hzero'⟩ | hneg
  · rw [if_pos hzero, if_pos hzero', neg_zeroPat]
  · rw [hneg, isZero_neg, apply_ite neg, neg_zeroPat]

/-! ### ATAN (R319) -/

theorem fnAtan_neg_of_finiteNonzero {c : Cfg} (hodd : (romTable c .atan P).form = .odd) {x : Pat P}
    (hx : FiniteNonzero x) : fnAtan c (neg x) = neg (fnAtan c x) := by
  cases hc : atanClass x with
  | false =>
    obtain ⟨-, hneg⟩ := polyEval_of_odd hodd hx (magnitude_le_one_of_class_zero hx.1 hc)
    rw [fnAtan_of_class_zero c hx hc, fnAtan_of_class_zero c (finiteNonzero_neg hx) ((atanClass_neg x).trans hc), hneg]
  | true =>
    obtain ⟨harg, hle⟩ := atanArg_inside_of_class_one hx hc
    obtain ⟨hnan, hneg⟩ := polyEval_of_odd hodd harg hle
    rw [fnAtan_of_class_one c hx hc, fnAtan_of_class_one c (finiteNonzero_neg hx) ((atanClass_neg x).trans hc),
      atanArg_neg_of_class_one hx hc, hneg, atanReciprocal_neg hodd x hnan]

/-- Settles O52: by the class of x; an infinity gives the signed K_PI_2 and a zero itself. -/
theorem atanOddWhenTableOdd : Obligations.AtanOddWhenTableOdd := by
  intro c P x hodd hnan
  rcases isInf_or_isZero_or_finiteNonzero hnan with (hinf | hzero) | hx
  · rw [fnAtan_of_isInf c hinf, fnAtan_of_isInf c ((isInf_neg x).trans hinf)]
    exact signedPiHalf_neg x
  · rw [fnAtan_of_isZero c hzero, fnAtan_of_isZero c ((isZero_neg x).trans hzero)]
  · exact fnAtan_neg_of_finiteNonzero hodd hx

end Sys2Proof.Machine

/-! PROOF. O55, O56, O57, O58: the exponential family (spec/47_exponential.md). EXP2 of a finite nonzero operand is the
table at RR.EXP2's fraction, scaled by RR.EXP2's integer, and that integer fits its lane (R341, R348). A product with a
finite positive constant keeps a zero or an infinity and quiets a NaN, so the special values of EXP and EXP10 are those of
EXP2 at the scaled operand (R349). FD.SCALE keeps the sign, so EXP2 is as little negative as its table (R350). -/

namespace Sys2Proof.Machine

open Sys2Proof Sys2Proof.Claims

variable {P : Prec}

/-! ### EXP2 by class of the operand (R232, R341) -/

section
variable (c : Cfg) {x : Pat P}

theorem fnExp2_of_isNaN (h : isNaN x = true) : fnExp2 c x = quiet x := resolve_of_hit (sv_of_isNaN_fst c .exp2 x h) _

theorem fnExp2_of_isZero (h : isZero x = true) : fnExp2 c x = onePat P := resolve_of_hit (svExp_of_isZero h) _

theorem fnExp2_of_isInf (h : isInf x = true) : fnExp2 c x = if sgn x then zeroPat P false else infPat P false :=
  resolve_of_hit (svExp_of_isInf h) _

theorem fnExp2_of_finiteNonzero (h : FiniteNonzero x) :
    fnExp2 c x = scalePat (polyEval c .exp2 (exp2Frac x)) (exp2Int x) :=
  resolve_of_miss (svExp_of_finiteNonzero h) _

end

theorem givesFloat_exp2 {n : LaneCount} {l : LaneIn} {r : Pat P} (h : fnExp2 Config.cfg (opP P l.a) = r) :
    GivesFloat (.exp2 P n) l r :=
  givesFloat_fnCommand (f := .exp2) h

/-! ### The three commands (R348) -/

/-- The integer of a finite operand is saturated, so it comes back from its lane. -/
theorem sint64_trunc64_exp2Int {x : Pat P} (hx : isFinite x = true) : sint64 (trunc64 (exp2Int x)) = exp2Int x := by
  rw [exp2Int_of_isFinite hx]
  exact sint64_trunc64 (by unfold sat64; omega) (by unfold sat64; omega)

/-- Settles O55: the special operands are hits of the table SV; RR.EXP2's lane holds the fraction and the integer that
EXP2 itself uses. -/
theorem exp2ThreeCommands : Obligations.Exp2ThreeCommands := by
  rintro P n m l x rfl
  refine ⟨fun h => givesFloat_exp2 (fnExp2_of_isNaN _ h), fun h => givesFloat_exp2 (fnExp2_of_isZero _ h),
    fun h => givesFloat_exp2 (fnExp2_of_isInf _ h), fun h => ?_⟩
  refine ⟨_, .float (polyEval Config.cfg .exp2 (exp2Frac (opP P l.a))), .float (fnExp2 Config.cfg (opP P l.a)),
    gives_rrExp2_iff.2 rfl, fun b k s => givesFloat_peEval ?table, fun b s => givesFloat_fdScale_iff.2 ?scale,
    givesFloat_exp2 rfl⟩
  case table => rw [opP_zext64]; rfl
  case scale => rw [LaneOut.float, opP_zext64, sint64_trunc64_exp2Int h.1, fnExp2_of_finiteNonzero _ h]

/-! ### The scaling constants (R342, R343, R373, R374) -/

/-- A finite positive pattern: what the ROM holds as a scaling constant. -/
def IsScale (k : Pat P) : Prop := FiniteNonzero k ∧ sgn k = false

theorem isScale_finitePositive (x : Pat P) {d : Pat P} (hd : IsScale d) : IsScale (finitePositive x d) := by
  unfold finitePositive
  split
  · next h =>
    simp only [Bool.and_eq_true, Bool.not_eq_true'] at h
    obtain ⟨⟨hfin, hzero⟩, hsgn⟩ := h
    exact ⟨⟨hfin, hzero⟩, hsgn⟩
  · exact hd

theorem isScale_romLog2e (c : Cfg) (P : Prec) : IsScale (romLog2e c P) :=
  isScale_finitePositive _ (by unfold IsScale FiniteNonzero; cases P <;> decide)

theorem isScale_romLog2Ten (c : Cfg) (P : Prec) : IsScale (romLog2Ten c P) :=
  isScale_finitePositive _ (by unfold IsScale FiniteNonzero; cases P <;> decide)

theorem isScale_romLn2 (c : Cfg) (P : Prec) : IsScale (romLn2 c P) :=
  isScale_finitePositive _ (by unfold IsScale FiniteNonzero; cases P <;> decide)

theorem isScale_romLog10Two (c : Cfg) (P : Prec) : IsScale (romLog10Two c P) :=
  isScale_finitePositive _ (by unfold IsScale FiniteNonzero; cases P <;> decide)

/-- A scaling constant keeps an infinity and a zero as they stand. -/
theorem fmul_isScale_of_isInf_or_isZero {x k : Pat P} (hx : isInf x = true ∨ isZero x = true) (hk : IsScale k) :
    fmul x k = x := by
  obtain ⟨⟨hfin, hnz⟩, hs⟩ := hk
  obtain ⟨hnan, hinf⟩ := isNaN_isInf_of_isFinite hfin
  rcases hx with h | h
  · calc fmul x k = infPat P (sgn x) := by
          simp [fmul, isNaN_of_isInf h, isZero_of_isInf h, h, hnan, hinf, hnz, hs]
      _ = x := (eq_infPat h).symm
  · calc fmul x k = zeroPat P (sgn x) := by rw [fmul_of_isZero (isFinite_of_isZero h) hfin (.inl h), hs, Bool.bne_false]
      _ = x := (eq_zeroPat h).symm

/-- A scaling constant keeps the sign, in underflow and overflow too. -/
theorem sgn_fmul_isScale {x k : Pat P} (hx : isNaN x = false) (hk : IsScale k) : sgn (fmul x k) = sgn x := by
  rcases isInf_or_isZero_or_finiteNonzero hx with h | h
  · rw [fmul_isScale_of_isInf_or_isZero h hk]
  · obtain ⟨⟨hfin, hnz⟩, hs⟩ := hk
    simp [fmul, isNaN_isInf_of_isFinite h.1, isNaN_isInf_of_isFinite hfin, h.2, hnz, hs]

/-! ### EXP and EXP10 (R349) -/

/-- A special value of the family is EXP2 of the scaled operand too. -/
theorem resolve_sv_exp2_fmul (c : Cfg) (x : Pat P) {k : Pat P} (hk : IsScale k) :
    resolve (sv c .exp2 x x) (fnExp2 c (fmul x k)) = fnExp2 c (fmul x k) := by
  by_cases hnan : isNaN x = true
  · have hquiet := isNaN_quiet x hnan
    rw [resolve_of_hit (sv_of_isNaN_fst c .exp2 x hnan), fmul_of_isNaN_fst k hnan, fnExp2_of_isNaN c hquiet, quiet_quiet]
  rcases isInf_or_isZero_or_finiteNonzero (Bool.eq_false_iff.2 hnan) with h | h
  · rw [fmul_isScale_of_isInf_or_isZero h hk, sv]
    rcases h with h | h
    · rw [fnExp2_of_isInf c h, resolve_of_hit (svExp_of_isInf h)]
    · rw [fnExp2_of_isZero c h, resolve_of_hit (svExp_of_isZero h)]
  · exact resolve_of_miss (svExp_of_finiteNonzero h) _

theorem fnExp_eq_fnExp2 (c : Cfg) (x : Pat P) : fnExp c x = fnExp2 c (fmul x (romLog2e c P)) :=
  resolve_sv_exp2_fmul c x (isScale_romLog2e c P)

theorem fnExp10_eq_fnExp2 (c : Cfg) (x : Pat P) : fnExp10 c x = fnExp2 c (fmul x (romLog2Ten c P)) :=
  resolve_sv_exp2_fmul c x (isScale_romLog2Ten c P)

/-- Settles O56: the three commands deliver their functions of the operand, which are tied for every pattern. -/
theorem expIsScaledExp2 : Obligations.ExpIsScaledExp2 := by
  intro P n m l l₁ l₂ h₁ h₂
  refine ⟨⟨_, givesFloat_exp2 rfl, givesFloat_fnCommand (f := .exp) ?_⟩,
    ⟨_, givesFloat_exp2 rfl, givesFloat_fnCommand (f := .exp10) ?_⟩⟩
  · rw [h₁]; exact fnExp_eq_fnExp2 _ _
  · rw [h₂]; exact fnExp10_eq_fnExp2 _ _

/-! ### EXP2 of an integer (R346) -/

theorem exp2N_of_val_eq_intCast {x : Pat P} {k : ℤ} (h : val x = k) : exp2N x = k := by
  rw [exp2N, h, Int.floor_intCast_add]
  norm_num

/-- The split of a nonzero integer that a lane can hold: the integer itself and +0. -/
theorem exp2_split_of_intCast {x : Pat P} {k : ℤ} (hx : isFinite x = true) (h : val x = k) (hk : k ≠ 0)
    (hlt : |k| < 2 ^ 63) : exp2Int x = k ∧ exp2Frac x = zeroPat P false := by
  obtain ⟨hlo, hhi⟩ := abs_lt.1 hlt
  rw [exp2Int_of_isFinite hx, exp2Frac_of_isFinite hx, exp2N_of_val_eq_intCast h, if_neg hk, if_pos (sub_eq_zero.2 h)]
  exact ⟨by unfold sat64; omega, rfl⟩

theorem finiteNonzero_onePat (P : Prec) : FiniteNonzero (onePat P) := by unfold FiniteNonzero; cases P <;> decide

theorem scalePat_onePat (k : ℤ) : scalePat (onePat P) k = roundRNE P false (pow2 k) := by
  rw [scalePat_of_finiteNonzero (finiteNonzero_onePat P), sgn_onePat, ← abs_val, val_onePat, abs_one, one_mul]

/-- The powers of 2 from the least quantum to the top binade are kept by RoundRNE. -/
theorem roundRNE_pow2 {k : ℤ} (hlo : P.emin - P.fracBits ≤ k) (hhi : k ≤ P.emax) :
    isFinite (roundRNE P false (pow2 k)) = true ∧ val (roundRNE P false (pow2 k)) = pow2 k := by
  have hov : pow2 k < overflowBound P :=
    calc pow2 k ≤ pow2 P.emax := pow2_le_pow2 hhi
      _ < overflowBound P := by
        have hulp : pow2 (-(P.fracBits + 1)) < 1 := by
          rw [← two_pow_succ_mul_pow2_neg P.fracBits]
          exact lt_mul_of_one_lt_left (pow2_pos _) (by exact_mod_cast Nat.one_lt_two_pow P.fracBits.succ_ne_zero)
        rw [overflowBound_eq]
        exact lt_mul_of_one_lt_left (pow2_pos _) (by linarith)
  have hexact := roundRNE_exact (P := P) false one_ne_zero (Nat.one_lt_two_pow P.fracBits.succ_ne_zero) hlo
    (by rwa [Nat.cast_one, one_mul])
  rw [Nat.cast_one, one_mul] at hexact
  obtain ⟨hfin, hmag⟩ := hexact
  refine ⟨hfin, ?_⟩
  rw [val, sgn_roundRNE, if_neg Bool.false_ne_true, hmag]

theorem roundRNE_pow2_of_emax_lt {k : ℤ} (h : P.emax < k) : roundRNE P false (pow2 k) = infPat P false :=
  roundRNE_of_overflow false ((overflowBound_le P).trans (pow2_le_pow2 h))

/-- Settles O57: the split of an integer, and 1.0 scaled. -/
theorem exp2OfInteger : Obligations.Exp2OfInteger := by
  intro c P x k hx hval hk hlt
  obtain ⟨hint, hfrac⟩ := exp2_split_of_intCast hx hval hk hlt
  have hnz := finiteNonzero_of_val_ne_zero hx (by rw [hval]; exact_mod_cast hk)
  have hscale : fnExp2 c x = scalePat (polyEval c .exp2 (zeroPat P false)) k := by
    rw [fnExp2_of_finiteNonzero c hnz, hint, hfrac]
  refine ⟨hint, hfrac, hscale, fun hone => ?_⟩
  rw [hscale, hone, scalePat_onePat, ← pow2_eq_zpow]
  exact ⟨rfl, roundRNE_pow2, roundRNE_pow2_of_emax_lt⟩

/-! ### No negative result (R350) -/

/-- A property of the special values of the family that FD.SCALE keeps. -/
structure ScaleInvariant (p : Pat P → Prop) : Prop where
  onePat : p (onePat P)
  zeroPat : p (zeroPat P false)
  infPat : p (infPat P false)
  scalePat : ∀ {y : Pat P} (n : ℤ), p y → p (scalePat y n)

/-- The fraction RR.EXP2 delivers lies in [-1/2, 1/2) (R167). -/
theorem exp2Frac_bounds {x : Pat P} (hx : isFinite x = true) :
    isFinite (exp2Frac x) = true ∧ -1 / 2 ≤ val (exp2Frac x) ∧ val (exp2Frac x) < 1 / 2 := by
  obtain ⟨hfin, hval⟩ := exp2Frac_exact hx
  exact ⟨hfin, hval ▸ exp2N_bounds x⟩

section
variable {p : Pat P → Prop} {c : Cfg}

/-- What the table has on [-1/2, 1/2) EXP2 has everywhere. -/
theorem ScaleInvariant.fnExp2 (hp : ScaleInvariant p)
    (htable : ∀ f : Pat P, isFinite f = true → -1 / 2 ≤ val f → val f < 1 / 2 → p (polyEval c .exp2 f)) {x : Pat P}
    (hx : isNaN x = false) : p (fnExp2 c x) := by
  rcases isInf_or_isZero_or_finiteNonzero hx with (h | h) | h
  · rw [fnExp2_of_isInf c h]
    split
    · exact hp.zeroPat
    · exact hp.infPat
  · exact fnExp2_of_isZero c h ▸ hp.onePat
  · obtain ⟨hfin, hlo, hhi⟩ := exp2Frac_bounds h.1
    exact fnExp2_of_finiteNonzero c h ▸ hp.scalePat _ (htable _ hfin hlo hhi)

/-- And so have EXP and EXP10, whose scaled operand is no NaN. -/
theorem ScaleInvariant.expFamily (hp : ScaleInvariant p)
    (htable : ∀ f : Pat P, isFinite f = true → -1 / 2 ≤ val f → val f < 1 / 2 → p (polyEval c .exp2 f)) {x : Pat P}
    (hx : isNaN x = false) : p (Machine.fnExp2 c x) ∧ p (fnExp c x) ∧ p (fnExp10 c x) := by
  rw [fnExp_eq_fnExp2, fnExp10_eq_fnExp2]
  exact ⟨hp.fnExp2 htable hx, hp.fnExp2 htable (isNaN_fmul_of_finiteNonzero_snd hx (isScale_romLog2e c P).1),
    hp.fnExp2 htable (isNaN_fmul_of_finiteNonzero_snd hx (isScale_romLog2Ten c P).1)⟩

end

/-- FD.SCALE keeps the sign bit of every pattern. -/
@[simp] theorem sgn_scalePat (y : Pat P) (n : ℤ) : sgn (scalePat y n) = sgn y := by
  unfold scalePat
  split_ifs <;> simp

theorem scaleInvariant_sgn (P : Prec) : ScaleInvariant fun y : Pat P => sgn y = false where
  onePat := sgn_onePat P
  zeroPat := sgn_zeroPat false
  infPat := sgn_infPat false
  scalePat n h := (sgn_scalePat _ n).trans h

theorem not_negative_of_sgn {y : Pat P} (h : sgn y = false) : ¬Negative y := fun hneg => by
  obtain ⟨hs, -⟩ := ltZero_iff.1 (isNaN_ltZero_of_negative hneg).2
  exact absurd (h.symm.trans hs) (by decide)

/-- A scaled pattern is below 0 only if the pattern is: a NaN stays a NaN, a zero stays a zero, and the others keep their
sign. -/
theorem negative_of_negative_scalePat {y : Pat P} {n : ℤ} (h : Negative (scalePat y n)) : Negative y := by
  by_cases hnan : isNaN y = true
  · obtain ⟨hq, -⟩ := isNaN_ltZero_of_negative h
    rw [scalePat_of_isNaN hnan, isNaN_quiet y hnan] at hq
    exact absurd hq (by decide)
  rcases isInf_or_isZero_or_finiteNonzero (Bool.eq_false_iff.2 hnan) with hy | hy
  · rwa [scalePat_of_isInf_or_isZero hy] at h
  · by_contra hneg
    have hs : sgn y = false := by
      rw [sgn_eq_decide_val_lt_zero hy]
      exact decide_eq_false fun hlt => hneg (.inr ⟨hy.1, hlt⟩)
    exact not_negative_of_sgn ((sgn_scalePat y n).trans hs) h

theorem scaleInvariant_not_negative (P : Prec) : ScaleInvariant fun y : Pat P => ¬Negative y where
  onePat := not_negative_of_sgn (sgn_onePat P)
  zeroPat := not_negative_of_sgn (sgn_zeroPat false)
  infPat := not_negative_of_sgn (sgn_infPat false)
  scalePat _ h hneg := h (negative_of_negative_scalePat hneg)

/-- Settles O58: both readings of non-negative are kept by FD.SCALE. -/
theorem expNeverNegative : Obligations.ExpNeverNegative := fun _ P =>
  ⟨fun htable _ hx => (scaleInvariant_sgn P).expFamily htable hx,
    fun htable _ hx => (scaleInvariant_not_negative P).expFamily htable hx⟩

end Sys2Proof.Machine

/-! PROOF. O59: the logarithmic family (spec/48_logarithmic.md). Every special value of the table SV is a NaN already
quieted, an infinity or a zero, and a product with a finite positive constant keeps these as they stand. So LOG and LOG10
are the scaled LOG2 on a hit of the table too (R377, R378). -/

namespace Sys2Proof.Machine

open Sys2Proof Sys2Proof.Claims

variable {P : Prec}

/-! ### LOG2 by class of the operand (R234, R371) -/

section
variable (c : Cfg) {x : Pat P}

theorem fnLog2_of_hit {v : Pat P} (h : svLog x = some v) : fnLog2 c x = v := resolve_of_hit h _

theorem fnLog2_of_miss (h : svLog x = none) : fnLog2 c x = c.log2Val P x := resolve_of_miss h _

end

theorem svLog_of_isNaN {x : Pat P} (h : isNaN x = true) : svLog x = some (quiet x) := if_pos h

theorem svLog_onePat (P : Prec) : svLog (onePat P) = some (zeroPat P false) :=
  svLog_of_val_eq_one (finiteNonzero_onePat P).1 (val_onePat P)

theorem givesFloat_log2 {n : LaneCount} {l : LaneIn} {r : Pat P} (h : fnLog2 Config.cfg (opP P l.a) = r) :
    GivesFloat (.log2 P n) l r :=
  givesFloat_fnCommand (f := .log2) h

/-! ### LOG and LOG10 (R377, R378) -/

/-- A special value of the logarithms is a quiet NaN, an infinity or a zero. -/
theorem svLog_hit_cases {x v : Pat P} (h : svLog x = some v) :
    (isNaN v = true ∧ quiet v = v) ∨ isInf v = true ∨ isZero v = true := by
  unfold svLog at h
  split_ifs at h with hnan hlt hzero hinf hone <;> obtain rfl := Option.some.inj h
  · exact .inl ⟨isNaN_quiet x hnan, quiet_quiet x⟩
  · exact .inl ⟨isNaN_cNaN P, quiet_cNaN P⟩
  · exact .inr (.inl (isInf_infPat true))
  · exact .inr (.inl (isInf_infPat false))
  · exact .inr (.inr (isZero_zeroPat false))

/-- A special value of the logarithms is its own product with a scaling constant. -/
theorem fmul_isScale_of_svLog_hit {x v k : Pat P} (h : svLog x = some v) (hk : IsScale k) : fmul v k = v := by
  rcases svLog_hit_cases h with ⟨hnan, hquiet⟩ | hv
  · rw [fmul_of_isNaN_fst k hnan, hquiet]
  · exact fmul_isScale_of_isInf_or_isZero hv hk

theorem resolve_svLog_fmul (c : Cfg) (x : Pat P) {k : Pat P} (hk : IsScale k) :
    resolve (svLog x) (fmul (fnLog2 c x) k) = fmul (fnLog2 c x) k := by
  cases h : svLog x with
  | none => rfl
  | some v => rw [fnLog2_of_hit c h, fmul_isScale_of_svLog_hit h hk, resolve]

theorem fnLog_eq_fmul (c : Cfg) (x : Pat P) : fnLog c x = fmul (fnLog2 c x) (romLn2 c P) :=
  resolve_svLog_fmul c x (isScale_romLn2 c P)

theorem fnLog10_eq_fmul (c : Cfg) (x : Pat P) : fnLog10 c x = fmul (fnLog2 c x) (romLog10Two c P) :=
  resolve_svLog_fmul c x (isScale_romLog10Two c P)

/-- Settles O59: the entries of the table SV for LOG2, and the products for every pattern. -/
theorem logIsScaledLog2 : Obligations.LogIsScaledLog2 := by
  rintro P n m l x rfl
  refine ⟨fun h => givesFloat_log2 (fnLog2_of_hit _ (svLog_of_isNaN h)),
    fun h => givesFloat_log2 (fnLog2_of_hit _ (svLog_of_negative h)),
    fun h => givesFloat_log2 (fnLog2_of_hit _ (svLog_of_isZero h)),
    fun h hs => givesFloat_log2 (fnLog2_of_hit _ (svLog_of_posInf h hs)), fun h => givesFloat_log2 ?one,
    fun h hpos hne => givesFloat_log2 ?positive, _, givesFloat_log2 rfl,
    givesFloat_fnCommand (f := .log) (fnLog_eq_fmul _ _), givesFloat_fnCommand (f := .log10) (fnLog10_eq_fmul _ _),
    fun h => ⟨sgn_fmul_isScale h (isScale_romLn2 _ P), sgn_fmul_isScale h (isScale_romLog10Two _ P)⟩⟩
  case one => rw [h]; exact fnLog2_of_hit _ (svLog_onePat P)
  case positive =>
    exact fnLog2_of_miss _ (svLog_of_val_ne_one h hpos fun h1 => hne (eq_onePat_of_val_eq_one h h1))

end Sys2Proof.Machine

/-! PROOF. O33: the metric of a correctly rounded reference (spec/49_accuracy.md R400, R414). RoundRNE is off by at most
half a quantum of the number it rounds, and the step of the rounded pattern is no smaller than that quantum. A real number
that rounds to a pattern has rationals as near as one likes that round to it. -/

namespace Sys2Proof.Machine

open Sys2Proof Sys2Proof.Claims

variable {P : Prec}

/-! ### The step of a pattern (R24) -/

/-- The step of a finite pattern is the power of 2 its significand counts. -/
theorem ulp_of_isFinite {x : Pat P} (hx : isFinite x = true) : ulp x = pow2 (significandExp x) := by
  have hinf := (isNaN_isInf_of_isFinite hx).2
  cases hz : isZero x with
  | true =>
    have hnorm : isNorm x = false := by simp [isNorm, ((isZero_iff x).1 hz).1]
    simp [ulp, hinf, hz, significandExp_of_not_isNorm hnorm]
  | false => simp [ulp, hinf, hz, quantumExp_magnitude ⟨hx, hz⟩]

theorem ulp_pos {x : Pat P} (hx : isFinite x = true) : 0 < ulp x := ulp_of_isFinite hx ▸ pow2_pos _

/-- Above the least quantum, a number rounds to no less than the lower end of its quantum's binade. -/
theorem pow2_le_magnitude_roundRNE (s : Bool) {v : ℚ} (hv : 0 < v) (hov : v < overflowBound P)
    (hq : P.emin - P.fracBits < quantumExp P v) :
    pow2 (quantumExp P v + P.fracBits) ≤ magnitude (roundRNE P s v) := by
  obtain ⟨-, hmag⟩ := roundRNE_spec s hv (overflowBound_eq P ▸ hov)
  have hpos := pow2_pos (quantumExp P v)
  have hquot : ((2 ^ P.fracBits : ℕ) : ℚ) ≤ v / pow2 (quantumExp P v) := by
    rw [le_div_iff₀ hpos, ← pow2_add_fracBits]
    exact pow2_quantumExp_le hv hq
  have hround : 2 ^ P.fracBits ≤ roundTiesEven (v / pow2 (quantumExp P v)) := by
    simpa only [roundTiesEven_natCast] using roundTiesEven_mono (by positivity) hquot
  rw [hmag, pow2_add_fracBits]
  exact mul_le_mul_of_nonneg_right (by exact_mod_cast hround) hpos.le

/-- A pattern that is not below a binade has an exponent that is not below the binade's quantum. -/
theorem le_significandExp_of_le_magnitude {x : Pat P} (hx : isFinite x = true) {q : ℤ}
    (h : pow2 (q + P.fracBits) ≤ magnitude x) : q ≤ significandExp x := by
  by_contra hlt
  have hsig : (significand x : ℚ) < ((2 ^ (P.fracBits + 1) : ℕ) : ℚ) := by exact_mod_cast significand_lt x
  have hbelow : magnitude x < pow2 (q + P.fracBits) :=
    calc magnitude x = significand x * pow2 (significandExp x) := magnitude_eq_significand_mul hx
      _ < ((2 ^ (P.fracBits + 1) : ℕ) : ℚ) * pow2 (significandExp x) := mul_lt_mul_of_pos_right hsig (pow2_pos _)
      _ = pow2 ((P.fracBits + 1 : ℕ) + significandExp x) := by rw [pow2_add, pow2_natCast]
      _ ≤ pow2 (q + P.fracBits) := pow2_le_pow2 (by push_cast; omega)
  exact hbelow.not_ge h

/-- The step of the rounded pattern is at least the quantum of the number. -/
theorem pow2_quantumExp_le_ulp (s : Bool) {v : ℚ} (hv : 0 < v) (hov : v < overflowBound P) :
    pow2 (quantumExp P v) ≤ ulp (roundRNE P s v) := by
  obtain ⟨hfin, -⟩ := roundRNE_spec s hv (overflowBound_eq P ▸ hov)
  rw [ulp_of_isFinite hfin]
  rcases le_or_gt (quantumExp P v) (P.emin - P.fracBits) with hq | hq
  · exact pow2_le_pow2 (hq.trans (le_significandExp _))
  · exact pow2_le_pow2 (le_significandExp_of_le_magnitude hfin (pow2_le_magnitude_roundRNE s hv hov hq))

/-! ### The error of RoundRNE (R19) -/

theorem abs_magnitude_roundRNE_sub_le (s : Bool) {v : ℚ} (hv : 0 < v) (hov : v < overflowBound P) :
    |magnitude (roundRNE P s v) - v| ≤ ulp (roundRNE P s v) / 2 := by
  obtain ⟨-, hmag⟩ := roundRNE_spec s hv (overflowBound_eq P ▸ hov)
  have hq := pow2_pos (quantumExp P v)
  calc |magnitude (roundRNE P s v) - v|
      = |(roundTiesEven (v / pow2 (quantumExp P v)) : ℚ) - v / pow2 (quantumExp P v)| * pow2 (quantumExp P v) := by
        rw [hmag, abs_mul_pow2_sub]
    _ ≤ 1 / 2 * pow2 (quantumExp P v) :=
        mul_le_mul_of_nonneg_right (abs_roundTiesEven_sub_le (div_pos hv hq).le) hq.le
    _ ≤ ulp (roundRNE P s v) / 2 := by linarith [pow2_quantumExp_le_ulp s hv hov]

/-- A rounded number has the number's sign, so their distance is that of the magnitudes. -/
theorem abs_val_roundVal_sub (v : ℚ) : |val (roundVal P v) - v| = |magnitude (roundVal P v) - (|v|)| := by
  have hs : sgn (roundVal P v) = decide (v < 0) := sgn_roundRNE _ _
  rw [val, hs]
  rcases lt_or_ge v 0 with hv | hv
  · rw [decide_eq_true hv, if_pos rfl, abs_of_neg hv, ← abs_neg]
    congr 1
    ring
  · rw [decide_eq_false hv.not_gt, if_neg Bool.false_ne_true, abs_of_nonneg hv]

theorem roundVal_zero (P : Prec) : roundVal P 0 = zeroPat P false := by simp [roundVal, roundRNE_zero]

/-- A number below the overflow bound is at most half a step from the finite pattern it rounds to. -/
theorem roundVal_error {v : ℚ} (hov : |v| < overflowBound P) :
    isFinite (roundVal P v) = true ∧ |val (roundVal P v) - v| ≤ ulp (roundVal P v) / 2 := by
  rcases eq_or_ne v 0 with rfl | hv
  · have hzero : isZero (zeroPat P false) = true := isZero_zeroPat false
    have hfin := isFinite_of_isZero hzero
    rw [roundVal_zero, val_eq_zero_iff.2 hzero, sub_zero, abs_zero]
    exact ⟨hfin, (half_pos (ulp_pos hfin)).le⟩
  · have hpos := abs_pos.2 hv
    rw [abs_val_roundVal_sub]
    exact ⟨(roundRNE_spec _ hpos (overflowBound_eq P ▸ hov)).1, abs_magnitude_roundRNE_sub_le _ hpos hov⟩

/-- Only a number below the overflow bound rounds to a finite pattern. -/
theorem abs_lt_overflowBound_of_isFinite {v : ℚ} (h : isFinite (roundVal P v) = true) : |v| < overflowBound P := by
  by_contra hge
  rw [roundVal, roundRNE_of_overflow _ (not_lt.1 hge)] at h
  exact absurd ((isInf_infPat _).symm.trans (isNaN_isInf_of_isFinite h).2) (by decide)

/-- A real number that rounds to a finite pattern is at most half a step from it: rationals as near to it as one likes
are. -/
theorem abs_val_sub_le_of_roundsTo {v : ℝ} {r : Pat P} (hr : RoundsTo P v r) (hfin : isFinite r = true) :
    |(val r : ℝ) - v| ≤ ulp r / 2 := by
  obtain ⟨δ, hδ, hround⟩ := hr
  refine le_of_forall_pos_le_add fun ε hε => ?_
  obtain ⟨q, hvq, hqv⟩ := exists_rat_btwn (lt_add_of_pos_right v (lt_min hδ hε))
  have hnear : |(q : ℝ) - v| < min δ ε := by rw [abs_of_pos (sub_pos.2 hvq)]; linarith
  have hq : roundVal P q = r := hround q (hnear.trans_le (min_le_left δ ε))
  have herr : |val r - q| ≤ ulp r / 2 := by
    rw [← hq] at hfin ⊢
    exact (roundVal_error (abs_lt_overflowBound_of_isFinite hfin)).2
  have herr' : |(val r : ℝ) - q| ≤ ulp r / 2 := by exact_mod_cast herr
  calc |(val r : ℝ) - v| ≤ |(val r : ℝ) - q| + |(q : ℝ) - v| := abs_sub_le _ _ _
    _ ≤ ulp r / 2 + ε := add_le_add herr' (hnear.trans_le (min_le_right δ ε)).le

/-! ### The metric (R400, R401) -/

theorem ulpMetric_of_isFinite {r : Pat P} (hr : isFinite r = true) (v : ℝ) :
    UlpMetric r (.real v) (.value (|(val r : ℝ) - v| / ulp r)) := by
  simp [UlpMetric, isNaN_isInf_of_isFinite hr]

/-- A finite pattern at most half a step from the reference has a metric of at most 1/2. -/
theorem exists_ulpMetric_le_half {r : Pat P} (hr : isFinite r = true) {v : ℝ} (h : |(val r : ℝ) - v| ≤ ulp r / 2) :
    ∃ m : ℝ, UlpMetric r (.real v) (.value m) ∧ 0 ≤ m ∧ m ≤ 1 / 2 := by
  have hulp : (0 : ℝ) < ulp r := by exact_mod_cast ulp_pos hr
  refine ⟨_, ulpMetric_of_isFinite hr v, by positivity, ?_⟩
  rw [div_le_iff₀ hulp]
  linarith

/-- Settles O33: the rounding of a rational, a pattern a real number rounds to, and the two infinities. -/
theorem correctRoundingMetric : Obligations.CorrectRoundingMetric := by
  refine fun P => ⟨fun v hv => ?rational, fun v r hr hfin => ?real, ?posInf, ?negInf⟩
  case rational =>
    obtain ⟨hfin, herr⟩ := roundVal_error hv
    exact exists_ulpMetric_le_half hfin (by exact_mod_cast herr)
  case real => exact exists_ulpMetric_le_half hfin (abs_val_sub_le_of_roundsTo hr hfin)
  case posInf => simp [UlpMetric]
  case negInf => simp [UlpMetric]

end Sys2Proof.Machine

/-! PROOF. O60: the sample grids (spec/49_accuracy.md R409). The points of a grid ascend, so the ones up to its end are
those up to the last of them; the end 2π of two grids lies between 6.28 and 6.29. -/

namespace Sys2Proof.Machine

open Sys2Proof Sys2Proof.Claims

/-- The index of the last point of a grid. -/
def lastIndex : GridId → ℕ
  | .g1 => 125
  | .g2 => 400
  | .g3 => 628
  | .g4 => 40
  | .g5 => 20
  | .g6 => 400
  | .g7 => 200

/-- The index of the point 0 of a grid. -/
def zeroIndex : GridId → ℕ
  | .g1 | .g3 | .g7 => 0
  | .g2 | .g6 => 200
  | .g4 => 20
  | .g5 => 10

theorem gridStep_pos (g : GridId) : 0 < gridStep g := by cases g <;> norm_num [gridStep]

/-- What lies below a number up to the end of a grid lies up to the end too. -/
theorem UpToEnd.mono {g : GridId} {t t' : ℚ} (h : UpToEnd g t') (hle : t ≤ t') : UpToEnd g t := by
  have hleReal : (t : ℝ) ≤ t' := by exact_mod_cast hle
  cases g with
  | g1 | g3 => exact hleReal.trans h
  | g2 | g4 | g5 | g6 | g7 => exact hle.trans h

theorem upToEnd_lastIndex (g : GridId) : UpToEnd g (gridStart g + lastIndex g * gridStep g) := by
  have hpi := Real.pi_gt_d2
  cases g with
  | g1 | g3 =>
    norm_num [UpToEnd, gridStart, gridStep, lastIndex]
    linarith
  | g2 | g4 | g5 | g6 | g7 => norm_num [UpToEnd, gridStart, gridStep, lastIndex]

theorem not_upToEnd_after_lastIndex (g : GridId) :
    ¬UpToEnd g (gridStart g + (lastIndex g + 1 : ℕ) * gridStep g) := by
  have hpi := Real.pi_lt_d4
  cases g with
  | g1 | g3 =>
    norm_num [UpToEnd, gridStart, gridStep, lastIndex]
    linarith
  | g2 | g4 | g5 | g6 | g7 => norm_num [UpToEnd, gridStart, gridStep, lastIndex]

/-- The numbers a grid counts through ascend. -/
theorem gridValue_mono (g : GridId) {i j : ℕ} (h : i ≤ j) :
    gridStart g + i * gridStep g ≤ gridStart g + j * gridStep g := by
  have := gridStep_pos g
  gcongr

/-- The points of a grid are those up to its last index. -/
theorem upToEnd_iff (g : GridId) (i : ℕ) : UpToEnd g (gridStart g + i * gridStep g) ↔ i < lastIndex g + 1 := by
  constructor
  · intro h
    by_contra hge
    exact not_upToEnd_after_lastIndex g (h.mono (gridValue_mono g (not_lt.1 hge)))
  · intro h
    exact (upToEnd_lastIndex g).mono (gridValue_mono g (Nat.lt_succ_iff.1 h))

theorem zeroIndex_lt (g : GridId) : zeroIndex g < lastIndex g + 1 := by cases g <;> decide

theorem gridPoint_zeroIndex (P : Prec) (g : GridId) : gridPoint P g (zeroIndex g) = zeroPat P false := by
  have hzero : gridStart g + zeroIndex g * gridStep g = 0 := by
    cases g <;> norm_num [gridStart, gridStep, zeroIndex]
  rw [gridPoint, hzero, roundVal_zero]

/-- Settles O60: the last index of each grid, and the index of its point 0. -/
theorem gridPoints : Obligations.GridPoints :=
  ⟨fun i => ⟨upToEnd_iff .g1 i, upToEnd_iff .g2 i, upToEnd_iff .g3 i, upToEnd_iff .g4 i, upToEnd_iff .g5 i,
    upToEnd_iff .g6 i, upToEnd_iff .g7 i⟩,
    fun P g => ⟨zeroIndex g, (upToEnd_iff g _).2 (zeroIndex_lt g), gridPoint_zeroIndex P g⟩⟩

end Sys2Proof.Machine

/-! PROOF. O9: reset (spec/70_reset_and_hazards.md R460-R462). -/

namespace Sys2Proof.Machine

open Sys2Proof Sys2Proof.Claims

/-- Settles O9: the reset values lane by lane, the reset event, and the block that waits. -/
theorem resetState : Obligations.ResetState := by
  refine ⟨⟨reset_cmd, reset_ill, fun i => ?lanes⟩, fun s rest hq => ?event, fun s hq => ?waits⟩
  case lanes => simp
  case event => rw [step_of_queue hq]; rfl
  case waits => simp only [step, hq]

end Sys2Proof.Machine
